-- ==== Sys2Proof/Config.lean ====
section
/-! DEFINITION. The parameters of the block (spec/00_scope.md R8) with the number format `NUM` (R9), and the free
choices of spec/20_memory.md R67 and R68. They are one argument, `P : Params α`, of every operation and of the step,
over any carrier `α`. `Config.params`, a constant without a body, is the argument at which the host's `exec` and
`step` are taken: nothing in Lean can evaluate it. -/

namespace Sys2Proof

/-- The record `NUM` of R9 over a carrier `α`: its constants, its total functions and its decidable
comparisons. The rules assume of them only that a result depends on the operands alone. -/
structure NumFormat (α : Type) where
  /-- the constant `0` -/
  zero : α
  /-- the constant `1` -/
  one : α
  /-- the constant `2` -/
  two : α
  /-- the constant `0.5` -/
  half : α
  /-- the constant `HEADROOM`, 0.2 (R8) -/
  headroom : α
  /-- the constant `RES_MAX`, 0.99 (R8) -/
  resMax : α
  /-- the constant `PI` -/
  pi : α
  /-- the constant `TWO_PI` -/
  twoPi : α
  add : α → α → α
  sub : α → α → α
  mul : α → α → α
  div : α → α → α
  neg : α → α
  abs : α → α
  sin : α → α
  /-- the fractional part -/
  frac : α → α
  lt : α → α → Bool
  le : α → α → Bool
  gt : α → α → Bool
  ge : α → α → Bool
  eq : α → α → Bool
deriving Inhabited

/-- The parameters of the block that are OPEN (R8), and the free choices. A machine takes them as one argument. -/
structure Params (α : Type) where
  /-- `NUM` (R9) -/
  num : NumFormat α
  /-- `ENV_EPS`, the smallest envelope time that is stored (R134) -/
  envEps : α
  /-- the constraint `ENV_EPS > 0` (R8) -/
  envEps_positive : num.gt envEps num.zero = true
  /-- the channels beyond the first: `SVF_NCH` is in {1, 2} (R8) -/
  svfExtraChannels : Fin 2
  /-- one less than `SCOPE_CAP`, which is positive (R8) -/
  scopeCapLessOne : Nat
  /-- The free choices of R67 (which publication an acquire load reads from) and R68 (which candidate a sample read
  returns): the `k`-th choice of a run is `draw k`, reduced modulo the number of candidates. A FREE VALUE (log entry 4). -/
  draw : Nat → Nat

/-- `SVF_NCH`, the number of channels of filter state (R8). -/
def Params.svfNch {α : Type} (P : Params α) : Nat := P.svfExtraChannels.val + 1

/-- `SCOPE_CAP`, the number of slots of the sample memory (R8). -/
def Params.scopeCap {α : Type} (P : Params α) : Nat := P.scopeCapLessOne + 1

/-- What is known of the number format at which the host's `exec` and `step` are taken, each one true of numbers
(DESIGN CHOICE, log entry 2): 0 is not above 0, and 1 and 2 are; half a turn from phase 0, as `OSC_NEXT` computes it for
a frequency of 1 and a sample rate of 2 (R114, R115), is not a whole turn or more. No operation and no step asks for
them: they are what lets a concrete state be shown in which a per-sample operation completes. -/
structure Params.Ordinary {α : Type} (P : Params α) : Prop where
  zero_not_positive : P.num.gt P.num.zero P.num.zero = false
  one_positive : P.num.gt P.num.one P.num.zero = true
  two_positive : P.num.gt P.num.two P.num.zero = true
  half_turn_below_turn :
    P.num.ge (P.num.add P.num.zero (P.num.div (P.num.mul P.num.twoPi P.num.one) P.num.two)) P.num.twoPi = false

/-- The carrier at which the host's `exec` and `step` are taken: a value is known by its code alone, since the spec
gives a value of `NUM` no representation in bits (R9, R88). DESIGN CHOICE (log entry 1): the codes are the natural
numbers, so that the state is plain data. -/
structure NumVal where
  code : Nat
deriving DecidableEq, Repr, Inhabited

/-- An unnamed member of a type that has one: nothing else can be proved of it. -/
opaque Config.pick (T : Type) [Inhabited T] : T

/-- One member of the type that `Config.chosen` is drawn from, so that it has one. Nothing rests on it. -/
def Config.someMember : { P : Params NumVal // P.Ordinary } :=
  let N : NumFormat NumVal := { (default : NumFormat NumVal) with
    zero := ⟨0⟩, one := ⟨1⟩, two := ⟨2⟩, twoPi := ⟨1⟩, add := fun _ _ => ⟨0⟩
    gt := fun a b => decide (b.code < a.code), ge := fun a b => decide (b.code ≤ a.code) }
  ⟨{ num := N, envEps := ⟨1⟩, envEps_positive := by decide, svfExtraChannels := 0, scopeCapLessOne := 0,
     draw := fun k => k },
   { zero_not_positive := by decide, one_positive := by decide, two_positive := by decide,
     half_turn_below_turn := by decide }⟩

/-- The parameters of the host's machine, with what is known of them: OPEN (R8, R9; log entries 1, 2, 3). -/
def Config.chosen : { P : Params NumVal // P.Ordinary } := @Config.pick _ ⟨Config.someMember⟩

/-- The parameters of the host's machine. -/
def Config.params : Params NumVal := Config.chosen.val

/-- `NUM` of the host's machine (R9). -/
abbrev Config.num : NumFormat NumVal := Config.params.num

/-- `ENV_EPS` of the host's machine (R8). -/
abbrev Config.envEps : NumVal := Config.params.envEps

/-- `SVF_NCH` of the host's machine: 1 or 2 (R8; log entry 3). -/
abbrev Config.svfNch : Nat := Config.params.svfNch

/-- `SCOPE_CAP` of the host's machine: positive (R8; log entry 3). -/
abbrev Config.scopeCap : Nat := Config.params.scopeCap

/-- The free choices of the host's machine (R67, R68; log entry 4). -/
abbrev Config.draw : Nat → Nat := Config.params.draw

end Sys2Proof
end

