-- ==== Sys2Proof/Word.lean ====
section
/-! DEFINITION. The command word and its immediate field (spec/30_encoding.md R80, R81). -/

namespace Sys2Proof

/-- A command word `CW`: one 32-bit unsigned integer, presented whole (R80; `CW_BITS` = 32, R8). -/
abbrev CommandWord := BitVec 32

/-- The `ARG` field of a command word: an unsigned 24-bit immediate (R81, R84; `ARG_BITS` = 24, R8). -/
abbrev Arg := BitVec 24

end Sys2Proof
end

