-- ==== Sys2Proof/Syntax.lean ====
section
/-! DEFINITION. The sixteen operations (spec/00_scope.md R15, spec/30_encoding.md R83), one constructor for
each row of spec/opcode_table.json, with the immediate `ARG` where the row has one. The `NUM` operands
travel beside the command word and have no bits in it (R88); they stand in the presented command. -/

namespace Sys2Proof

/-- A decoded command word (R87). -/
inductive Instr where
  /-- `OSC_SET_SR` (R111) -/
  | oscSetSr
  /-- `OSC_SET_FREQ` (R112) -/
  | oscSetFreq
  /-- `OSC_SET_WAVE` (R113); `wave` is the waveform code -/
  | oscSetWave (wave : Arg)
  /-- `OSC_NEXT` (R114) -/
  | oscNext
  /-- `ENV_SET_SR` (R131) -/
  | envSetSr
  /-- `ENV_SET_PARAMS` (R133) -/
  | envSetParams
  /-- `ENV_ENTER` (R136); `stage` is the stage code -/
  | envEnter (stage : Arg)
  /-- `ENV_NEXT` (R138) -/
  | envNext
  /-- `ENV_ACTIVE` (R146) -/
  | envActive
  /-- `SVF_SET_SR` (R156) -/
  | svfSetSr
  /-- `SVF_SET_CUTOFF` (R158) -/
  | svfSetCutoff
  /-- `SVF_SET_RES` (R160) -/
  | svfSetRes
  /-- `SVF_SET_TYPE` (R162); `kind` is the type code, any 24-bit value -/
  | svfSetType (kind : Arg)
  /-- `SVF_PROC` (R164); `ch` is the channel -/
  | svfProc (ch : Arg)
  /-- `SCOPE_WRITE` (R176); `count` is the number of samples -/
  | scopeWrite (count : Arg)
  /-- `SCOPE_SNAP` (R181); `count` is the number of samples -/
  | scopeSnap (count : Arg)
deriving DecidableEq, Repr

end Sys2Proof
end

