-- ==== Sys2Proof/WellFormed.lean ====
section
/-! DEFINITION. The conditions on `ARG` that spec/30_encoding.md R87 and R90 (g) to (j) state beyond the decoding. -/

namespace Sys2Proof

/-- The immediate of the operation is one the spec gives a meaning: a waveform code up to 3, a stage code
up to 4, a channel below `SVF_NCH`, a snapshot count up to `SCOPE_CAP` (R90 (g) to (j)). -/
def Instr.wellFormed : Instr → Bool
  | .oscSetWave wave => wave.toNat ≤ 3
  | .envEnter stage => stage.toNat ≤ 4
  | .svfProc ch => ch.toNat < Config.svfNch
  | .scopeSnap count => count.toNat ≤ Config.scopeCap
  | .oscSetSr | .oscSetFreq | .oscNext | .envSetSr | .envSetParams | .envNext | .envActive
  | .svfSetSr | .svfSetCutoff | .svfSetRes | .svfSetType _ | .scopeWrite _ => true

end Sys2Proof
end

