-- ==== Sys2Proof/Decode.lean ====
section
/-! DEFINITION. Decoding of command words, total, and the encoder (spec/30_encoding.md R81 to R92). -/

namespace Sys2Proof

/-- `UNIT = CW[31:28]` (R81). -/
def unitField (cw : CommandWord) : BitVec 4 := cw.extractLsb' 28 4

/-- `FUNC = CW[27:24]` (R81). -/
def funcField (cw : CommandWord) : BitVec 4 := cw.extractLsb' 24 4

/-- `ARG = CW[23:0]` (R81). -/
def argField (cw : CommandWord) : Arg := cw.extractLsb' 0 24

/-- An operation whose row says that `ARG` must be 0 (R85): any other `ARG` is reserved. -/
def argMustBeZero (arg : Arg) (i : Instr) : Option Instr :=
  if arg = 0 then some i else none

/-- The rows of R83 by their `UNIT` and `FUNC` codes; every other pair of codes is reserved (R90 (a) to (e)). -/
def decodeFields (unit func : Nat) (arg : Arg) : Option Instr :=
  match unit, func with
  | 1, 0 => argMustBeZero arg .oscSetSr
  | 1, 1 => argMustBeZero arg .oscSetFreq
  | 1, 2 => some (.oscSetWave arg)
  | 1, 3 => argMustBeZero arg .oscNext
  | 2, 0 => argMustBeZero arg .envSetSr
  | 2, 1 => argMustBeZero arg .envSetParams
  | 2, 2 => some (.envEnter arg)
  | 2, 3 => argMustBeZero arg .envNext
  | 2, 4 => argMustBeZero arg .envActive
  | 3, 0 => argMustBeZero arg .svfSetSr
  | 3, 1 => argMustBeZero arg .svfSetCutoff
  | 3, 2 => argMustBeZero arg .svfSetRes
  | 3, 3 => some (.svfSetType arg)
  | 3, 4 => some (.svfProc arg)
  | 4, 0 => some (.scopeWrite arg)
  | 4, 1 => some (.scopeSnap arg)
  | _, _ => none

/-- `decode(CW)` of R87; `none` is the result `reserved`. -/
def decode (cw : CommandWord) : Option Instr :=
  decodeFields (unitField cw).toNat (funcField cw).toNat (argField cw)

/-- The first byte of the command word, `UNIT` and `FUNC`, of each operation (R82, R83). -/
def Instr.opcode : Instr → BitVec 8
  | .oscSetSr => 0x10
  | .oscSetFreq => 0x11
  | .oscSetWave _ => 0x12
  | .oscNext => 0x13
  | .envSetSr => 0x20
  | .envSetParams => 0x21
  | .envEnter _ => 0x22
  | .envNext => 0x23
  | .envActive => 0x24
  | .svfSetSr => 0x30
  | .svfSetCutoff => 0x31
  | .svfSetRes => 0x32
  | .svfSetType _ => 0x33
  | .svfProc _ => 0x34
  | .scopeWrite _ => 0x40
  | .scopeSnap _ => 0x41

/-- The immediate of each operation; zero where it has none (R84, R85). -/
def Instr.arg : Instr → Arg
  | .oscSetWave wave => wave
  | .envEnter stage => stage
  | .svfSetType kind => kind
  | .svfProc ch => ch
  | .scopeWrite count => count
  | .scopeSnap count => count
  | .oscSetSr | .oscSetFreq | .oscNext | .envSetSr | .envSetParams | .envNext | .envActive
  | .svfSetSr | .svfSetCutoff | .svfSetRes => 0

/-- The command word of an operation: `UNIT ++ FUNC ++ ARG` (R81). -/
def encode (i : Instr) : CommandWord := i.opcode ++ i.arg

/-- The `match` column of the opcode map R92. -/
def Instr.matchBits : Instr → CommandWord
  | .oscSetSr => 0x10000000
  | .oscSetFreq => 0x11000000
  | .oscSetWave _ => 0x12000000
  | .oscNext => 0x13000000
  | .envSetSr => 0x20000000
  | .envSetParams => 0x21000000
  | .envEnter _ => 0x22000000
  | .envNext => 0x23000000
  | .envActive => 0x24000000
  | .svfSetSr => 0x30000000
  | .svfSetCutoff => 0x31000000
  | .svfSetRes => 0x32000000
  | .svfSetType _ => 0x33000000
  | .svfProc _ => 0x34000000
  | .scopeWrite _ => 0x40000000
  | .scopeSnap _ => 0x41000000

/-- The `mask` column of the opcode map R92: all of the word for the ten operations of R85, the first byte for the other six. -/
def Instr.maskBits : Instr → CommandWord
  | .oscSetWave _ | .envEnter _ | .svfSetType _ | .svfProc _ | .scopeWrite _ | .scopeSnap _ => 0xFF000000
  | .oscSetSr | .oscSetFreq | .oscNext | .envSetSr | .envSetParams | .envNext | .envActive
  | .svfSetSr | .svfSetCutoff | .svfSetRes => 0xFFFFFFFF

/-- The number of `NUM` operands that follow the command word (R83, R88). -/
def Instr.operandCount : Instr → Nat
  | .oscSetSr | .oscSetFreq | .envSetSr | .svfSetSr | .svfSetCutoff | .svfSetRes | .svfProc _ => 1
  | .envSetParams => 4
  | .scopeWrite count => count.toNat
  | .oscSetWave _ | .oscNext | .envEnter _ | .envNext | .envActive | .svfSetType _ | .scopeSnap _ => 0

/-- The instruction the decoder reads from a word numbered as spec/opcode_table.json numbers it: bit 0 is the
least significant bit of the one 32-bit command word, and a command word has no byte order (R61, R80). -/
def decodeTableWord (nbits w : Nat) : Option Instr :=
  decode (BitVec.ofNat 32 (w % 2 ^ nbits))

end Sys2Proof
end

