-- ==== Sys2Proof/Machine/State.lean ====
section
/-! DEFINITION. The state of one instance of the block (spec/10_state.md R20, R49), the two agents that drive it
(spec/00_scope.md R11, R12), the reasons an operation is refused (spec/60_exceptions.md R198), and reset
(spec/70_reset_and_hazards.md R216). Everything is written over any carrier `α`, since the number
format is a parameter of the block (R9). -/

namespace Sys2Proof.Machine

/-- Why the machine stops with a fault: for no reason, since the block has no fault (R195). An `OSC_NEXT` that never
completes stops its own agent and no more (`Block.State.hanging`). -/
inductive Fault where
deriving DecidableEq, Repr

/-- Why an operation has no meaning: the closed list of R198, and two reasons of the model's own. A refusal
changes no state and returns nothing. -/
inductive Refusal where
  /-- An instruction without a meaning in the model; raised by `exec`'s arms alone (there is none). Safe. -/
  | notModelled (mnemonic : String)
  /-- A register that holds `unset`, its reset content (R216), is read, which R21, R221 and U14 say is refused; raised by
  `oscNext`, `envNext` and `svfProc`. Safe. -/
  | unset
  /-- A reserved encoding, raised by `step` (R90 (a) to (f)), or an immediate out of range, raised by the
  operation's meaning (R90 (g) to (j)). Safe. -/
  | reserved
  /-- `OSC_NEXT` with a frequency that is not positive (R123). Safe. -/
  | badFrequency
  /-- A sample rate that is not positive, raised by `oscNext`, `envNext` and `svfProc` (R123, R138, R170). Safe. -/
  | badSampleRate
  /-- `SVF_PROC` with a cutoff that is not positive (R170). Safe. -/
  | badCutoff
  /-- `SCOPE_WRITE` from the consumer or `SCOPE_SNAP` from the producer (R86). Safe. -/
  | wrongAgent
  /-- An OSC, ENV or SVF operation that overlaps another operation on the same unit (R226), a hung `OSC_NEXT` among them.
  Safe. -/
  | overlap
  /-- A command with fewer or more operands than its operation takes, which R88 puts outside the spec. The
  model's own reason (log entry 8). Safe. -/
  | operandCount
deriving DecidableEq, Repr

/-- What a meaning answers. -/
abbrev Result (σ : Type) : Type := Host.Outcome σ Fault Refusal

/-- The content of a numeric parameter or coefficient register: a number, or the explicit `unset` that it holds from reset
until the first operation that writes it (R21, R216). It is a constructor of its own (log entry 11). -/
inductive Param (α : Type) where
  | unset
  | val (x : α)
deriving DecidableEq, Repr

/-- The waveform selector `OSC.wave`: the four codes of R29. -/
inductive Wave where
  | sine
  | triangle
  | saw
  | square
deriving DecidableEq, Repr

/-- The envelope stage `ENV.stage`: the five codes of R30. Codes 5 to 7 are never held. -/
inductive Stage where
  | off
  | attack
  | decay
  | sustain
  | release
deriving DecidableEq, Repr

/-- The registers of OSC (R26 to R29). -/
structure Osc (α : Type) where
  /-- S0 `OSC.phase`, radians (R26) -/
  phase : α
  /-- S1 `OSC.freq`, Hz (R27) -/
  freq : Param α
  /-- S2 `OSC.sr`, Hz (R28) -/
  sr : Param α
  /-- S3 `OSC.wave` (R29) -/
  wave : Wave
deriving DecidableEq, Repr

/-- The registers of ENV (R30 to R36). -/
structure Env (α : Type) where
  /-- S4 `ENV.stage` (R30) -/
  stage : Stage
  /-- S5 `ENV.level` (R31) -/
  level : α
  /-- S6 `ENV.attack`, seconds (R32) -/
  attack : Param α
  /-- S7 `ENV.decay`, seconds (R33) -/
  decay : Param α
  /-- S8 `ENV.sustain` (R34) -/
  sustain : Param α
  /-- S9 `ENV.release`, seconds (R35) -/
  release : Param α
  /-- S10 `ENV.sr`, Hz (R36) -/
  sr : Param α
deriving DecidableEq, Repr

/-- The registers of SVF with `nch` channels (R37 to R44). -/
structure Svf (α : Type) (nch : Nat) where
  /-- S11 `SVF.cutoff`, Hz (R37) -/
  cutoff : Param α
  /-- S12 `SVF.res`, after clamping (R38) -/
  res : Param α
  /-- S13 `SVF.sr`, Hz (R39) -/
  sr : Param α
  /-- S14 `SVF.f`, derived from cutoff and sample rate (R40) -/
  f : Param α
  /-- S15 `SVF.q`, derived from the resonance (R41) -/
  q : Param α
  /-- S16 `SVF.type`, the tap selector as written (R42) -/
  kind : Arg
  /-- S17 `SVF.band[ch]` (R43) -/
  band : Vector α nch
  /-- S18 `SVF.low[ch]` (R44) -/
  low : Vector α nch
deriving DecidableEq, Repr

/-- A memory of samples, by slot index (R45, R60): pairs of a slot and its sample, slots strictly rising and
no pair equal to what an unlisted slot reads as. -/
structure Memory (α : Type) where
  cells : List (Nat × α)
deriving DecidableEq, Repr

/-- A memory event of the producer as the consumer may come to see it (R65): one `MemWrite`, or one
`StoreRelease` of the cursor. -/
inductive ScopeEvent (α : Type) where
  | write (slot : Nat) (x : α)
  | publish (cursor : Nat)
deriving DecidableEq, Repr

/-- The model's own record of what the consumer may still observe (R65 to R68; log entry 5): the memory and
the cursor as they stood at the publication its last acquire load read from, and every event of the
producer since, oldest first. Earlier events can be observed no more (R67, R68). -/
structure Trail (α : Type) where
  base : Memory α
  baseCursor : Nat
  later : List (ScopeEvent α)
deriving DecidableEq, Repr

/-- The state of SCOPE (R45 to R47), and the record of its events. -/
structure Scope (α : Type) where
  /-- S19 `SCOPE.mem` (R45) -/
  mem : Memory α
  /-- S20 `SCOPE.cursor` (R46) -/
  cursor : Nat
  /-- S21 `SCOPE.rcur`, which no operation reads or writes (R47) -/
  rcur : Nat
  /-- the model's own (log entry 5) -/
  trail : Trail α
deriving DecidableEq, Repr

/-- A `SCOPE_WRITE` in progress (R177, R180): the private index and the samples not yet stored. -/
structure Writing (α : Type) where
  slot : Nat
  rest : List α
deriving DecidableEq, Repr

/-- A `SCOPE_SNAP` in progress (R182, R184): the slot of its next read, and how many reads follow that one. -/
structure Snapping where
  slot : Nat
  after : Nat
deriving DecidableEq, Repr

/-- The two agents (R11). -/
inductive Agent where
  | producer
  | consumer
deriving DecidableEq, Repr

/-- A command as an agent presents it (R80, R88), with two facts of the host's own (log entry 7). -/
structure Command (α : Type) where
  word : CommandWord
  operands : List α
  /-- whether an operation of OSC, ENV or SVF overlaps another on its unit in time (R226) -/
  overlaps : Bool
  /-- at most how many `SCOPE_WRITE`s are published while a `SCOPE_SNAP` runs, before its load (R227); `none`: not known -/
  missable : Option Nat := none
deriving DecidableEq, Repr

/-- One result value (R89): a `NUM`, or the bit of `ENV_ACTIVE`. -/
inductive Reply (α : Type) where
  | num (x : α)
  | bit (b : Bool)
deriving DecidableEq, Repr

/-- The command port of one agent (R86; log entry 6): the commands it has still to present, in its program
order, and the results returned to it, oldest first. -/
structure Port (α : Type) where
  pending : List (Command α)
  results : List (Reply α)
deriving DecidableEq, Repr

/-- The command in execution, beside its decoded word: its issuer, its operands, whether it overlaps, and at most how many
publications a load of it passes over, `none` for no bound (log entries 6, 7, 20). -/
structure Issued (α : Type) where
  agent : Agent
  operands : List α
  overlaps : Bool
  missable : Option Nat := none
deriving DecidableEq, Repr

namespace Block

/-- The state of the machine: the four units of the block (R2, R49), and the model's own record of the two agents that
drive it (R11, R12, R24; log entry 6), over any carrier `α` of `NUM` and any number of channels `nch` (R8, R9). -/
structure State (α : Type) (nch : Nat) where
  osc : Osc α
  env : Env α
  svf : Svf α nch
  scope : Scope α
  /-- the producer's `SCOPE_WRITE` in progress -/
  writing : Option (Writing α)
  /-- the consumer's `SCOPE_SNAP` in progress -/
  snapping : Option Snapping
  /-- the agent whose `OSC_NEXT` never ends (U18, R231 (c)): it is inside that operation for good (log entry 21) -/
  hanging : Option Agent
  producer : Port α
  consumer : Port α
  /-- which agent takes the next step, and the one after it, and so on; when it is empty no agent moves -/
  schedule : List Agent
  command : Issued α
  /-- how many free choices have been made; the model's own (log entry 4) -/
  draws : Nat
deriving DecidableEq, Repr

end Block

/-- The state of the host's machine: the state of the block at the host's parameters. -/
abbrev State : Type := Block.State NumVal Config.svfNch

/-- OSC at reset (R216). -/
def Osc.reset {α : Type} (zero : α) : Osc α :=
  { phase := zero, freq := .unset, sr := .unset, wave := .sine }

/-- ENV at reset (R216). -/
def Env.reset {α : Type} (zero : α) : Env α :=
  { stage := .off, level := zero, attack := .unset, decay := .unset, sustain := .unset, release := .unset,
    sr := .unset }

/-- SVF at reset (R216). -/
def Svf.reset {α : Type} (zero : α) (nch : Nat) : Svf α nch :=
  { cutoff := .unset, res := .unset, sr := .unset, f := .unset, q := .unset, kind := 0,
    band := Vector.replicate nch zero, low := Vector.replicate nch zero }

/-- SCOPE at reset (R216): every slot reads as 0, so no slot is listed; the reset initialisation of the
cursor is the publication the consumer may read from (R65). -/
def Scope.reset {α : Type} : Scope α :=
  { mem := ⟨[]⟩, cursor := 0, rcur := 0, trail := { base := ⟨[]⟩, baseCursor := 0, later := [] } }

/-- The machine right after reset (R215, R216, R217): the block idle, nothing presented, nothing scheduled. -/
def Block.State.reset {α : Type} (P : Params α) : Block.State α P.svfNch :=
  { osc := Osc.reset P.num.zero
    env := Env.reset P.num.zero
    svf := Svf.reset P.num.zero P.svfNch
    scope := Scope.reset
    writing := none
    snapping := none
    hanging := none
    producer := { pending := [], results := [] }
    consumer := { pending := [], results := [] }
    schedule := []
    command := { agent := .producer, operands := [], overlaps := false }
    draws := 0 }

/-- The host's machine right after reset. -/
def State.reset : State := Block.State.reset Config.params

end Sys2Proof.Machine
end

