-- ==== Sys2Proof/Machine/Flags.lean ====
section
/-! DEFINITION. Flags. The block stores none; its one status is a function of the envelope's stage
(spec/10_state.md R23). -/

namespace Sys2Proof.Machine

/-- `ENV.active`: the stage is not Off (R23, R146). -/
def Env.active {α : Type} (e : Env α) : Bool :=
  e.stage ≠ .off

end Sys2Proof.Machine
end

