-- ==== Sys2Proof/Machine/Ops.lean ====
section
/-! DEFINITION. The named operations over memory, registers and ports, and the checks that stand before every
meaning (spec/60_exceptions.md R199). The block has no exception, trap or interrupt and hence no exception
entry and no return from one (R195, R200, R201): there is no such operation to share. -/

namespace Sys2Proof.Machine

/-- An operation's effect on the part of the state it answers, carried to another part; a stop stays that stop. -/
def mapNext {σ τ : Type} (g : σ → τ) : Result σ → Result τ
  | .next s => .next (g s)
  | .fault r => .fault r
  | .refused r => .refused r

/-! ### The sample memory (spec/20_memory.md) -/

/-- The sample listed for slot `a`, or `d` where none is. -/
def lookupCell {α : Type} (d : α) : List (Nat × α) → Nat → α
  | [], _ => d
  | (b, x) :: rest, a => if a = b then x else lookupCell d rest a

/-- List the sample `x` for slot `a`, in rising order of the slots. -/
def insertCell {α : Type} (a : Nat) (x : α) : List (Nat × α) → List (Nat × α)
  | [] => [(a, x)]
  | (b, y) :: rest =>
    if a < b then (a, x) :: (b, y) :: rest
    else if a = b then (a, x) :: rest
    else (b, y) :: insertCell a x rest

/-- List no sample for slot `a`. -/
def eraseCell {α : Type} (a : Nat) : List (Nat × α) → List (Nat × α)
  | [] => []
  | (b, y) :: rest => if a = b then eraseCell a rest else (b, y) :: eraseCell a rest

/-- The content of slot `a`; a slot that is not listed reads as `d`, the reset content (R45). -/
def Memory.read {α : Type} (d : α) (m : Memory α) (a : Nat) : α :=
  lookupCell d m.cells a

/-- `MemWrite(a, 1, x)` (R69): slot `a` holds `x`; no other slot changes. -/
def Memory.write {α : Type} [DecidableEq α] (d : α) (m : Memory α) (a : Nat) (x : α) : Memory α :=
  if x = d then ⟨eraseCell a m.cells⟩ else ⟨insertCell a x m.cells⟩

/-- The canonical form: the slots strictly rise and no listed sample is `d`. -/
abbrev Memory.wf {α : Type} (d : α) (m : Memory α) : Prop :=
  m.cells.Pairwise (fun x y => x.1 < y.1) ∧ ∀ c ∈ m.cells, c.2 ≠ d

/-- Every listed slot is in `[0, cap)` (R64). -/
abbrev Memory.within {α : Type} (cap : Nat) (m : Memory α) : Prop :=
  ∀ c ∈ m.cells, c.1 < cap

namespace Block

variable {α : Type} {nch : Nat}

/-! ### The units as parts of the state -/

/-- The state with other OSC registers. -/
def State.withOsc (s : State α nch) (o : Osc α) : State α nch := { s with osc := o }

/-- The state with other ENV registers. -/
def State.withEnv (s : State α nch) (e : Env α) : State α nch := { s with env := e }

/-- The state with other SVF registers. -/
def State.withSvf (s : State α nch) (v : Svf α nch) : State α nch := { s with svf := v }

/-! ### Ports and results -/

/-- The port of an agent. -/
def State.port (s : State α nch) : Agent → Port α
  | .producer => s.producer
  | .consumer => s.consumer

/-- The state with another port for an agent. -/
def State.withPort (s : State α nch) (a : Agent) (p : Port α) : State α nch :=
  match a with
  | .producer => { s with producer := p }
  | .consumer => { s with consumer := p }

/-- `result(v)` to agent `a`: its next result value (R14, R89). -/
def State.replyTo (s : State α nch) (a : Agent) (v : Reply α) : State α nch :=
  s.withPort a { s.port a with results := (s.port a).results ++ [v] }

/-- `result(v)` of the command in execution: to the agent that issued it and to no one else (R89). -/
def State.reply (s : State α nch) (v : Reply α) : State α nch :=
  s.replyTo s.command.agent v

/-- Agent `a` presents the command `c`, the first of its port; `rest` follows (R80, R86). -/
def State.present (s : State α nch) (a : Agent) (c : Command α) (rest : List (Command α)) : State α nch :=
  { s.withPort a { s.port a with pending := rest } with
    command := { agent := a, operands := c.operands, overlaps := c.overlaps, missable := c.missable } }

/-! ### The checks before a meaning -/

/-- An operation of OSC, ENV or SVF that takes `n` operands: of the right form (R88), and refused while it
overlaps another operation on its unit (R226), before its own conditions (R199). Either agent may issue it (R86). -/
def State.onUnit (s : State α nch) (n : Nat) (act : Result (State α nch)) : Result (State α nch) :=
  if s.command.operands.length ≠ n then .refused .operandCount
  else if s.command.overlaps then .refused .overlap
  else act

/-- An operation of OSC that takes `n` operands: while an `OSC_NEXT` of the other agent hangs, it overlaps that one and
is refused as well (R226; log entry 21). -/
def State.onOsc (s : State α nch) (n : Nat) (act : Result (State α nch)) : Result (State α nch) :=
  s.onUnit n (if s.hanging.isSome then .refused .overlap else act)

/-- An operation of SCOPE that takes `n` operands and belongs to agent `a` (R86, R88, R199). Another agent's
SCOPE operation may be in progress (R226). -/
def State.onScope (s : State α nch) (a : Agent) (n : Nat) (act : Result (State α nch)) : Result (State α nch) :=
  if s.command.operands.length ≠ n then .refused .operandCount
  else if s.command.agent ≠ a then .refused .wrongAgent
  else act

end Block

end Sys2Proof.Machine
end

