-- ==== Sys2Proof/Machine/Operands.lean ====
section
/-! DEFINITION. Operands: the `NUM` operands of a command and the codes its immediate stands for
(spec/30_encoding.md R84, R88). -/

namespace Sys2Proof.Machine

/-- `operand(k)` of the command in execution (R14, R88). The checks before a meaning make sure that it is there. -/
def Block.State.operand {α : Type} {nch : Nat} (s : Block.State α nch) (P : Params α) (k : Nat) : α :=
  s.command.operands.getD k P.num.zero

/-- The waveform of a code (R29, R84); codes above 3 are reserved (R90 (g)). -/
def Wave.ofArg (w : Arg) : Option Wave :=
  match w.toNat with
  | 0 => some .sine
  | 1 => some .triangle
  | 2 => some .saw
  | 3 => some .square
  | _ => none

/-- The code of a waveform (R29). -/
def Wave.code : Wave → Nat
  | .sine => 0
  | .triangle => 1
  | .saw => 2
  | .square => 3

/-- The stage of a code (R30, R84); codes above 4 are reserved (R90 (h)). -/
def Stage.ofArg (k : Arg) : Option Stage :=
  match k.toNat with
  | 0 => some .off
  | 1 => some .attack
  | 2 => some .decay
  | 3 => some .sustain
  | 4 => some .release
  | _ => none

/-- The code of a stage (R30). -/
def Stage.code : Stage → Nat
  | .off => 0
  | .attack => 1
  | .decay => 2
  | .sustain => 3
  | .release => 4

end Sys2Proof.Machine
end

