-- ==== Sys2Proof/Machine/Envelope.lean ====
section
/-! DEFINITION. ENV, the five-stage envelope controller (spec/41_envelope.md). -/

namespace Sys2Proof.Machine

section datapath

variable {α : Type} (N : NumFormat α)

/-- The time guard (R134): `eps` for anything below it. -/
def guardTime (eps x : α) : α := if N.lt x eps then eps else x

/-- `ENV_SET_PARAMS` on the envelope's registers (R133): the three times guarded, the sustain level as given
(R135); stage and level are kept. -/
def envSetParams (eps attack decay sustain release : α) (e : Env α) : Env α :=
  { e with
    attack := .val (guardTime N eps attack)
    decay := .val (guardTime N eps decay)
    sustain := .val sustain
    release := .val (guardTime N eps release) }

/-- `ENV_ENTER` on the envelope's registers (R136): entering Off forces the level to 0; entering any other
stage keeps it. -/
def envEnter (stage : Stage) (e : Env α) : Env α :=
  match stage with
  | .off => { e with stage := .off, level := N.zero }
  | .attack => { e with stage := .attack }
  | .decay => { e with stage := .decay }
  | .sustain => { e with stage := .sustain }
  | .release => { e with stage := .release }

/-- Stage Attack with its parameters read (R140): at 1 the level is clamped and the stage becomes Decay. -/
def attackStep (attack sr : α) (e : Env α) : Env α :=
  let level := N.add e.level (N.div N.one (N.mul attack sr))
  if N.ge level N.one then { e with level := N.one, stage := .decay } else { e with level := level }

/-- Stage Decay (R141): at the sustain level the level is clamped and the stage becomes Sustain. -/
def decayStep (decay sustain sr : α) (e : Env α) : Env α :=
  let level := N.sub e.level (N.div (N.sub N.one sustain) (N.mul decay sr))
  if N.le level sustain then { e with level := sustain, stage := .sustain } else { e with level := level }

/-- Stage Release (R143): at 0 the level is clamped and the stage becomes Off. -/
def releaseStep (release sustain sr : α) (e : Env α) : Env α :=
  let level := N.sub e.level (N.div sustain (N.mul release sr))
  if N.le level N.zero then { e with level := N.zero, stage := .off } else { e with level := level }

/-- `ENV_NEXT` on the envelope's registers (R138 to R144): one stage a call, evaluated by the stage found on
entry. The result it returns is the level after the update. -/
def envNext (e : Env α) : Result (Env α) :=
  match e.stage with
  | .off => .next { e with level := N.zero }
  | .attack =>
    match e.attack, e.sr with
    | .val attack, .val sr =>
      if !N.gt sr N.zero then .refused .badSampleRate else .next (attackStep N attack sr e)
    | _, _ => .refused .unset
  | .decay =>
    match e.decay, e.sustain, e.sr with
    | .val decay, .val sustain, .val sr =>
      if !N.gt sr N.zero then .refused .badSampleRate else .next (decayStep N decay sustain sr e)
    | _, _, _ => .refused .unset
  | .sustain =>
    match e.sustain with
    | .val sustain => .next { e with level := sustain }
    | .unset => .refused .unset
  | .release =>
    match e.release, e.sustain, e.sr with
    | .val release, .val sustain, .val sr =>
      if !N.gt sr N.zero then .refused .badSampleRate else .next (releaseStep N release sustain sr e)
    | _, _, _ => .refused .unset

end datapath

namespace Block

variable {α : Type} {nch : Nat} (P : Params α) (s : State α nch)

/-- `ENV_SET_SR` (R131): stored as given; stage and level are kept. -/
def State.envSetSr : Result (State α nch) :=
  s.onUnit 1 (.next (s.withEnv { s.env with sr := .val (s.operand P 0) }))

/-- `ENV_SET_PARAMS` (R133). -/
def State.envSetParams : Result (State α nch) :=
  s.onUnit 4 (.next (s.withEnv (Machine.envSetParams P.num P.envEps
    (s.operand P 0) (s.operand P 1) (s.operand P 2) (s.operand P 3) s.env)))

/-- `ENV_ENTER` (R136): a code above 4 is refused (R137). -/
def State.envEnter (stage : Arg) : Result (State α nch) :=
  s.onUnit 0 (match Stage.ofArg stage with
    | some k => .next (s.withEnv (Machine.envEnter P.num k s.env))
    | none => .refused .reserved)

/-- `ENV_NEXT` (R138): returns the level after the update. -/
def State.envNext : Result (State α nch) :=
  s.onUnit 0 (mapNext (fun e => (s.withEnv e).reply (.num e.level)) (Machine.envNext P.num s.env))

/-- `ENV_ACTIVE` (R146): returns one bit; no register changes. -/
def State.envActive : Result (State α nch) :=
  s.onUnit 0 (.next (s.reply (.bit s.env.active)))

end Block

/-- `ENV_SET_SR` of the host's machine. -/
def execEnvSetSr (s : State) : Result State := s.envSetSr Config.params

/-- `ENV_SET_PARAMS` of the host's machine. -/
def execEnvSetParams (s : State) : Result State := s.envSetParams Config.params

/-- `ENV_ENTER` of the host's machine. -/
def execEnvEnter (stage : Arg) (s : State) : Result State := s.envEnter Config.params stage

/-- `ENV_NEXT` of the host's machine. -/
def execEnvNext (s : State) : Result State := s.envNext Config.params

/-- `ENV_ACTIVE` of the host's machine. -/
def execEnvActive (s : State) : Result State := s.envActive

end Sys2Proof.Machine
end

