-- ==== Sys2Proof/Machine/Filter.lean ====
section
/-! DEFINITION. SVF, the two-pole state-variable filter (spec/42_filter.md). -/

namespace Sys2Proof.Machine

section datapath

variable {α : Type} (N : NumFormat α) {nch : Nat}

/-- The coefficient `2 · sin((PI · cutoff) / sr)` (R40, R157). -/
def cutoffCoefficient (cutoff sr : α) : α :=
  N.mul N.two (N.sin (N.div (N.mul N.pi cutoff) sr))

/-- The value `recompute_f` gives `SVF.f`: `unset` unless cutoff and sample rate are both set (R157). -/
def derivedF : Param α → Param α → Param α
  | .val cutoff, .val sr => .val (cutoffCoefficient N cutoff sr)
  | _, _ => .unset

/-- `recompute_f` (R157). -/
def recomputeF (v : Svf α nch) : Svf α nch :=
  { v with f := derivedF N v.cutoff v.sr }

/-- The clamp of `SVF_SET_RES` (R160). -/
def clampRes (r : α) : α :=
  let r := if N.lt r N.zero then N.zero else r
  if N.gt r N.resMax then N.resMax else r

/-- `SVF_SET_SR` on the filter's registers (R156). -/
def svfSetSr (sr : α) (v : Svf α nch) : Svf α nch :=
  recomputeF N { v with sr := .val sr }

/-- `SVF_SET_CUTOFF` on the filter's registers (R158). -/
def svfSetCutoff (cutoff : α) (v : Svf α nch) : Svf α nch :=
  recomputeF N { v with cutoff := .val cutoff }

/-- `SVF_SET_RES` on the filter's registers (R160, R161). -/
def svfSetRes (r : α) (v : Svf α nch) : Svf α nch :=
  { v with res := .val (clampRes N r), q := .val (N.sub N.one (clampRes N r)) }

/-- The four outputs of one call of the recurrence; nothing selects the notch (R166). -/
structure Taps (α : Type) where
  low : α
  high : α
  band : α
  notch : α
deriving DecidableEq, Repr

/-- The recurrence (R165): `low` from the old state, `high` from the new `low` and the old `band`, `band`
from `high` and the old `band`. -/
def svfTaps (f q x low band : α) : Taps α :=
  let low' := N.add low (N.mul f band)
  let high := N.sub (N.sub x low') (N.mul q band)
  let band' := N.add (N.mul f high) band
  { low := low', high := high, band := band', notch := N.add high low' }

/-- Tap selection (R163): 1 HighPass, 2 BandPass, everything else LowPass. -/
def selectTap (kind : Arg) (y : Taps α) : α :=
  if kind = 1 then y.high else if kind = 2 then y.band else y.low

/-- `SVF_PROC` on the filter's registers (R164): only channel `ch` changes (R167). -/
def svfProc (ch : Nat) (x : α) (v : Svf α nch) : Result (Svf α nch × α) :=
  if h : ch < nch then
    match v.f, v.q, v.sr, v.cutoff with
    | .val f, .val q, .val sr, .val cutoff =>
      if !N.gt sr N.zero then .refused .badSampleRate
      else if !N.gt cutoff N.zero then .refused .badCutoff
      else
        let y := svfTaps N f q x v.low[ch] v.band[ch]
        .next ({ v with band := v.band.set ch y.band, low := v.low.set ch y.low }, selectTap v.kind y)
    | _, _, _, _ => .refused .unset
  else .refused .reserved

end datapath

namespace Block

variable {α : Type} {nch : Nat} (P : Params α) (s : State α nch)

/-- `SVF_SET_SR` (R156): the integrator registers, the type and the resonance are kept. -/
def State.svfSetSr : Result (State α nch) :=
  s.onUnit 1 (.next (s.withSvf (Machine.svfSetSr P.num (s.operand P 0) s.svf)))

/-- `SVF_SET_CUTOFF` (R158): the integrator registers are kept; no clamp. -/
def State.svfSetCutoff : Result (State α nch) :=
  s.onUnit 1 (.next (s.withSvf (Machine.svfSetCutoff P.num (s.operand P 0) s.svf)))

/-- `SVF_SET_RES` (R160): the integrator registers are kept. -/
def State.svfSetRes : Result (State α nch) :=
  s.onUnit 1 (.next (s.withSvf (Machine.svfSetRes P.num (s.operand P 0) s.svf)))

/-- `SVF_SET_TYPE` (R162): any 24-bit value is stored. -/
def State.svfSetType (kind : Arg) : Result (State α nch) :=
  s.onUnit 0 (.next (s.withSvf { s.svf with kind := kind }))

/-- `SVF_PROC` (R164). -/
def State.svfProc (ch : Arg) : Result (State α nch) :=
  s.onUnit 1 (mapNext (fun r => (s.withSvf r.1).reply (.num r.2))
    (Machine.svfProc P.num ch.toNat (s.operand P 0) s.svf))

end Block

/-- `SVF_SET_SR` of the host's machine. -/
def execSvfSetSr (s : State) : Result State := s.svfSetSr Config.params

/-- `SVF_SET_CUTOFF` of the host's machine. -/
def execSvfSetCutoff (s : State) : Result State := s.svfSetCutoff Config.params

/-- `SVF_SET_RES` of the host's machine. -/
def execSvfSetRes (s : State) : Result State := s.svfSetRes Config.params

/-- `SVF_SET_TYPE` of the host's machine. -/
def execSvfSetType (kind : Arg) (s : State) : Result State := s.svfSetType kind

/-- `SVF_PROC` of the host's machine. -/
def execSvfProc (ch : Arg) (s : State) : Result State := s.svfProc Config.params ch

end Sys2Proof.Machine
end

