-- ==== Sys2Proof/Machine/Oscillator.lean ====
section
/-! DEFINITION. OSC, the band-limited oscillator (spec/40_oscillator.md). The arithmetic is that of the number
format `N`, one function for each arithmetic sign, in the order the spec writes it (R9, R110). -/

namespace Sys2Proof.Machine

section datapath

variable {α : Type} (N : NumFormat α)

/-- The phase increment `(TWO_PI · freq) / sr` (R115). -/
def oscIncrement (freq sr : α) : α := N.div (N.mul N.twoPi freq) sr

/-- Sine (R116). -/
def sineValue (phase : α) : α := N.sin phase

/-- Triangle, `2·|2·t − 1| − 1` (R117). -/
def triangleValue (t : α) : α :=
  N.sub (N.mul N.two (N.abs (N.sub (N.mul N.two t) N.one))) N.one

/-- The PolyBLEP correction (R118): both comparisons strict, the first condition wins, 0 outside both
intervals. `2·u` is the product, as the pseudocode writes it (log entry 9). -/
def blep (t dt : α) : α :=
  if N.lt t dt then
    let u := N.div t dt
    N.sub (N.sub (N.mul N.two u) (N.mul u u)) N.one
  else if N.gt t (N.sub N.one dt) then
    let u := N.div (N.sub t N.one) dt
    N.add (N.add (N.mul u u) (N.mul N.two u)) N.one
  else N.zero

/-- Saw, `(2·t − 1) − blep(t, dt)` (R119). -/
def sawValue (t dt : α) : α :=
  N.sub (N.sub (N.mul N.two t) N.one) (blep N t dt)

/-- The naive step of the square: 1 below one half, −1 from there on (R120). -/
def stepValue (t : α) : α :=
  if N.lt t N.half then N.one else N.neg N.one

/-- `frac(t + 0.5)` as R120 defines it: `t + 0.5` if that is below 1, and `t + 0.5 − 1` otherwise. -/
def halfTurnOn (t : α) : α :=
  let u := N.add t N.half
  if N.lt u N.one then u else N.sub u N.one

/-- Square, `step(t) + blep(t, dt) − blep(frac(t + 0.5), dt)` (R120). -/
def squareValue (t dt : α) : α :=
  N.sub (N.add (stepValue N t) (blep N t dt)) (blep N (halfTurnOn N t) dt)

/-- The waveform's value at a phase, for a phase increment (R114, R115: `t` and `dt` are the phase and the
increment over `TWO_PI`). -/
def waveValue (wave : Wave) (phase inc : α) : α :=
  let t := N.div phase N.twoPi
  let dt := N.div inc N.twoPi
  match wave with
  | .sine => sineValue N phase
  | .triangle => triangleValue N t
  | .saw => sawValue N t dt
  | .square => squareValue N t dt

/-- The wrap loop of R122: `TWO_PI` is subtracted while the phase is at or above it. `none` is the loop that
does not end (R231 (c), U18). -/
def wrapPhase (p : α) : Option α :=
  if N.ge p N.twoPi then wrapPhase (N.sub p N.twoPi) else some p
partial_fixpoint

/-- `OSC_NEXT` on the oscillator's registers (R114): the sample is formed from the phase as it stands, scaled by
the headroom (R121), and then the phase advances and wraps (R122). `none`: the wrap loop never ends, and the operation
does not complete (U18, R231 (c)). -/
def oscNext (o : Osc α) : Result (Option (Osc α × α)) :=
  match o.freq, o.sr with
  | .val freq, .val sr =>
    if !N.gt sr N.zero then .refused .badSampleRate
    else if !N.gt freq N.zero then .refused .badFrequency
    else
      let inc := oscIncrement N freq sr
      let out := N.mul N.headroom (waveValue N o.wave o.phase inc)
      .next ((wrapPhase N (N.add o.phase inc)).map fun p => ({ o with phase := p }, out))
  | _, _ => .refused .unset

end datapath

namespace Block

variable {α : Type} {nch : Nat} (P : Params α) (s : State α nch)

/-- `OSC_SET_SR` (R111): stored as given; the phase is kept. -/
def State.oscSetSr : Result (State α nch) :=
  s.onOsc 1 (.next (s.withOsc { s.osc with sr := .val (s.operand P 0) }))

/-- `OSC_SET_FREQ` (R112): stored as given; the phase is kept. -/
def State.oscSetFreq : Result (State α nch) :=
  s.onOsc 1 (.next (s.withOsc { s.osc with freq := .val (s.operand P 0) }))

/-- `OSC_SET_WAVE` (R113): a code above 3 is refused. -/
def State.oscSetWave (wave : Arg) : Result (State α nch) :=
  s.onOsc 0 (match Wave.ofArg wave with
    | some w => .next (s.withOsc { s.osc with wave := w })
    | none => .refused .reserved)

/-- What an `OSC_NEXT` leaves: the registers and the result of a completed one; of one that never completes, that its
agent hangs in it, with no register written and nothing returned (log entry 21). -/
def State.afterOscNext : Option (Osc α × α) → State α nch
  | some (o, out) => (s.withOsc o).reply (.num out)
  | none => { s with hanging := some s.command.agent }

/-- `OSC_NEXT` (R114). -/
def State.oscNext : Result (State α nch) :=
  s.onOsc 0 (mapNext s.afterOscNext (Machine.oscNext P.num s.osc))

end Block

/-- `OSC_SET_SR` of the host's machine. -/
def execOscSetSr (s : State) : Result State := s.oscSetSr Config.params

/-- `OSC_SET_FREQ` of the host's machine. -/
def execOscSetFreq (s : State) : Result State := s.oscSetFreq Config.params

/-- `OSC_SET_WAVE` of the host's machine. -/
def execOscSetWave (wave : Arg) (s : State) : Result State := s.oscSetWave wave

/-- `OSC_NEXT` of the host's machine. -/
def execOscNext (s : State) : Result State := s.oscNext Config.params

end Sys2Proof.Machine
end

