-- ==== Sys2Proof/Machine/ScopeBuffer.lean ====
section
/-! DEFINITION. SCOPE, the single-producer single-consumer ring buffer (spec/43_scope_buffer.md), and the memory
ordering between its two agents (spec/20_memory.md). Unlike every other operation, these two are sequences
of memory events, one step each, that interleave with the other agent's (R175, R180, R184). -/

namespace Sys2Proof.Machine

section events

variable {α : Type} [DecidableEq α] (d : α)

/-- The slot after `a` (R177). -/
def nextSlot (cap a : Nat) : Nat := (a + 1) % cap

/-- The first slot of a snapshot of `n` samples at cursor `c` (R181, R182). -/
def snapStart (cap c n : Nat) : Nat := (c + cap - n) % cap

/-- One more event of the producer that the consumer may come to observe. -/
def Trail.record (t : Trail α) (ev : ScopeEvent α) : Trail α :=
  { t with later := t.later ++ [ev] }

/-- The event `MemWrite(a, 1, x)` (R69). -/
def Scope.memWrite (a : Nat) (x : α) (sc : Scope α) : Scope α :=
  { sc with mem := sc.mem.write d a x, trail := sc.trail.record (.write a x) }

/-- The event `StoreRelease(SCOPE.cursor, c)` (R66, R178). -/
def Scope.storeRelease (c : Nat) (sc : Scope α) : Scope α :=
  { sc with cursor := c, trail := sc.trail.record (.publish c) }

/-- How many publications there are among the events. -/
def publications : List (ScopeEvent α) → Nat
  | [] => 0
  | .write _ _ :: evs => publications evs
  | .publish _ :: evs => publications evs + 1

/-- The record as it is once the `k`-th publication from the front of `evs` has been observed: every event up
to that publication is part of what the consumer surely sees (R66); `k = 0` observes none. -/
def Trail.forward : Nat → Memory α → Nat → List (ScopeEvent α) → Trail α
  | 0, m, c, evs => { base := m, baseCursor := c, later := evs }
  | _ + 1, m, c, [] => { base := m, baseCursor := c, later := [] }
  | k + 1, m, c, .write a x :: evs => Trail.forward (k + 1) (m.write d a x) c evs
  | k + 1, m, _, .publish c' :: evs => Trail.forward k m c' evs

/-- The event `LoadAcquire(SCOPE.cursor)` (R67): it reads from the publication it last read from or from any
later one, `pick` says which; the value it returns is the cursor of that publication, `baseCursor`. -/
def Scope.loadAcquire (pick : Nat) (sc : Scope α) : Scope α :=
  let t := sc.trail
  { sc with trail := Trail.forward d (pick % (publications t.later + 1)) t.base t.baseCursor t.later }

/-- The samples written to slot `a` among the events, oldest first. -/
def writesTo (a : Nat) : List (ScopeEvent α) → List α
  | [] => []
  | .write b x :: evs => if a = b then x :: writesTo a evs else writesTo a evs
  | .publish _ :: evs => writesTo a evs

/-- The candidate set of a read of slot `a` (R68): the slot as it stood at the observed publication, and every
write to it since that has been performed. -/
def Trail.candidates (t : Trail α) (a : Nat) : List α :=
  t.base.read d a :: writesTo a t.later

/-- The event `MemRead(a, 1)` (R68): one member of the candidate set, `pick` says which. -/
def Scope.memRead (pick a : Nat) (sc : Scope α) : α :=
  let c := sc.trail.candidates d a
  c.getD (pick % c.length) (sc.trail.base.read d a)

end events

/-- The reads that are left after one, as the operation in progress. -/
def moreReads (slot : Nat) : Nat → Option Snapping
  | 0 => none
  | k + 1 => some { slot := slot, after := k }

namespace Block

variable {α : Type} {nch : Nat} [DecidableEq α] (P : Params α) (s : State α nch)

/-- The next event of the producer's `SCOPE_WRITE` (R176, R180): a `MemWrite` while samples are left, else the
`StoreRelease` that ends the operation. -/
def State.advanceWrite (w : Writing α) : State α nch :=
  match w.rest with
  | x :: rest =>
    { s with
      scope := s.scope.memWrite P.num.zero w.slot x
      writing := some { slot := nextSlot P.scopeCap w.slot, rest := rest } }
  | [] => { s with scope := s.scope.storeRelease w.slot, writing := none }

/-- The next event of the consumer's `SCOPE_SNAP` (R181, R184): one `MemRead`, returned to the consumer. -/
def State.advanceSnap (p : Snapping) : State α nch :=
  { s.replyTo .consumer (.num (s.scope.memRead P.num.zero (P.draw s.draws) p.slot)) with
    snapping := moreReads (nextSlot P.scopeCap p.slot) p.after
    draws := s.draws + 1 }

/-- `SCOPE_WRITE` (R176): its first event, the producer's plain read of the cursor. The `MemWrite`s and the
`StoreRelease` are the producer's next steps (R180; log entry 6). -/
def State.scopeWrite (count : Arg) : Result (State α nch) :=
  s.onScope .producer count.toNat
    (.next { s with writing := some { slot := s.scope.cursor, rest := s.command.operands } })

/-- Which publication the acquire load of a `SCOPE_SNAP` reads from: by the next free choice any there is (R67), where the
command in execution has a bound the latest or one before it, past no more publications than that (R70, R227). -/
def State.loadChoice : Nat :=
  let n := publications s.scope.trail.later
  n - P.draw s.draws % ((s.command.missable.map (min n)).getD n + 1)

/-- `SCOPE_SNAP` (R181): its first event, the acquire load of the cursor. The `MemRead`s are the consumer's next
steps (R184; log entry 6). A count above `SCOPE_CAP` is refused (R183). -/
def State.scopeSnap (count : Arg) : Result (State α nch) :=
  s.onScope .consumer 0
    (if P.scopeCap < count.toNat then .refused .reserved
    else
      let sc := s.scope.loadAcquire P.num.zero (s.loadChoice P)
      .next { s with
        scope := sc
        snapping := moreReads (snapStart P.scopeCap sc.trail.baseCursor count.toNat) count.toNat
        draws := s.draws + 1 })

end Block

/-- `SCOPE_WRITE` of the host's machine. -/
def execScopeWrite (count : Arg) (s : State) : Result State := s.scopeWrite count

/-- `SCOPE_SNAP` of the host's machine. -/
def execScopeSnap (count : Arg) (s : State) : Result State := s.scopeSnap Config.params count

end Sys2Proof.Machine
end

