-- ==== Sys2Proof/Machine/Block.lean ====
section
/-! DEFINITION. The block with its parameters as an argument (spec/00_scope.md R8, R9): its sixteen operations, and a
step of the agent whose turn it is (R11, R12). The host's `exec` and `step` are these at `Config.params`. -/

namespace Sys2Proof.Machine

namespace Block

variable {α : Type} {nch : Nat} [DecidableEq α] (P : Params α)

/-- An operation, at the parameters `P`. -/
def State.perform (i : Instr) (s : State α nch) : Result (State α nch) :=
  match i with
  | .oscSetSr => s.oscSetSr P
  | .oscSetFreq => s.oscSetFreq P
  | .oscSetWave wave => s.oscSetWave wave
  | .oscNext => s.oscNext P
  | .envSetSr => s.envSetSr P
  | .envSetParams => s.envSetParams P
  | .envEnter stage => s.envEnter P stage
  | .envNext => s.envNext P
  | .envActive => s.envActive
  | .svfSetSr => s.svfSetSr P
  | .svfSetCutoff => s.svfSetCutoff P
  | .svfSetRes => s.svfSetRes P
  | .svfSetType kind => s.svfSetType kind
  | .svfProc ch => s.svfProc P ch
  | .scopeWrite count => s.scopeWrite count
  | .scopeSnap count => s.scopeSnap P count

/-- How many steps the producer takes in the schedule before the consumer has taken `n` (R12). -/
def producerTurns : Nat → List Agent → Nat
  | 0, _ => 0
  | _ + 1, [] => 0
  | n + 1, .producer :: later => producerTurns (n + 1) later + 1
  | n + 1, .consumer :: later => producerTurns n later

/-- Whether a word is one of `SCOPE_WRITE`. -/
def beginsWrite (cw : CommandWord) : Bool :=
  match decode cw with
  | some (.scopeWrite _) => true
  | _ => false

/-- The producer is quiescent while the consumer takes its next `n` steps (R70): no `SCOPE_WRITE` is in progress, and none
is started until then, since none is among the commands the producer presents in its steps before, or the producer hangs. -/
def State.quiescentFor (s : State α nch) (n : Nat) : Bool :=
  s.writing.isNone &&
    (decide (s.hanging = some .producer) ||
      (s.producer.pending.take (producerTurns n s.schedule)).all fun c => !beginsWrite c.word)

/-- At most how many publications the load of the command `c`, decoded as `i`, passes over: none in a `SCOPE_SNAP` with a
quiescent producer, which R70 makes exact, else as many as the host says (log entry 20). -/
def State.mayMiss (s : State α nch) (i : Instr) (c : Command α) : Option Nat :=
  match i with
  | .scopeSnap count => if s.quiescentFor count.toNat then some 0 else c.missable
  | _ => c.missable

variable (run : Instr → State α nch → Result (State α nch))

/-- Agent `a`, which is inside no operation, presents its next command, which is decoded and executed by `run` (R80,
R87); with none left to present, it does nothing. -/
def issueNext (a : Agent) (s : State α nch) : Result (State α nch) :=
  match (s.port a).pending with
  | [] => .next s
  | c :: rest =>
    match decode c.word with
    | none => .refused .reserved
    | some i => run i (s.present a { c with missable := s.mayMiss i c } rest)

/-- One step of agent `a`: the next event of its SCOPE operation in progress, else its next command. An agent
does not begin an operation before its previous one has completed (R12), so one that hangs in an `OSC_NEXT` begins none; the
other goes on (R73, R235; log entry 21). -/
def agentStep (a : Agent) (s : State α nch) : Result (State α nch) :=
  if s.hanging = some a then .next s
  else match a with
  | .producer =>
    match s.writing with
    | some w => .next (s.advanceWrite P w)
    | none => issueNext run .producer s
  | .consumer =>
    match s.snapping with
    | some p => .next (s.advanceSnap P p)
    | none => issueNext run .consumer s

/-- One step: the agent that `schedule` names first moves. The block takes no step of its own accord (R11). -/
def stepWith (s : State α nch) : Result (State α nch) :=
  match s.schedule with
  | [] => .next s
  | a :: rest => agentStep P run a { s with schedule := rest }

/-- One step, at the parameters `P`. -/
def stepAt (s : State α nch) : Result (State α nch) := stepWith P (State.perform P) s

end Block

end Sys2Proof.Machine
end

