-- ==== Sys2Proof/Machine/Dispatch.lean ====
section
/-! DEFINITION. The meaning of each operation, one arm a constructor. -/

namespace Sys2Proof.Machine

def exec (i : Instr) (s : State) : Host.Outcome State Fault Refusal :=
  match i with
  | .oscSetSr => Sys2Proof.Machine.execOscSetSr s
  | .oscSetFreq => Sys2Proof.Machine.execOscSetFreq s
  | .oscSetWave wave => Sys2Proof.Machine.execOscSetWave wave s
  | .oscNext => Sys2Proof.Machine.execOscNext s
  | .envSetSr => Sys2Proof.Machine.execEnvSetSr s
  | .envSetParams => Sys2Proof.Machine.execEnvSetParams s
  | .envEnter stage => Sys2Proof.Machine.execEnvEnter stage s
  | .envNext => Sys2Proof.Machine.execEnvNext s
  | .envActive => Sys2Proof.Machine.execEnvActive s
  | .svfSetSr => Sys2Proof.Machine.execSvfSetSr s
  | .svfSetCutoff => Sys2Proof.Machine.execSvfSetCutoff s
  | .svfSetRes => Sys2Proof.Machine.execSvfSetRes s
  | .svfSetType kind => Sys2Proof.Machine.execSvfSetType kind s
  | .svfProc ch => Sys2Proof.Machine.execSvfProc ch s
  | .scopeWrite count => Sys2Proof.Machine.execScopeWrite count s
  | .scopeSnap count => Sys2Proof.Machine.execScopeSnap count s

end Sys2Proof.Machine
end

