-- ==== Sys2Proof/Machine/Feed.lean ====
section
/-! DEFINITION. The placing of one command so that the very next step executes it (spec/10_state.md R24,
spec/30_encoding.md R80, R86; log entry 10). -/

namespace Sys2Proof.Machine

/-- The agent a command is placed with: `SCOPE_SNAP` belongs to the consumer (R86); every other operation may
be the producer's. -/
def agentFor : Option Instr → Agent
  | some (.scopeSnap _) => .consumer
  | some _ => .producer
  | none => .producer

/-- The operands a placed command travels with: as many of `zero` as its operation takes (R88), none for a reserved word. -/
def zeroOperands {α : Type} (zero : α) : Option Instr → List α
  | some i => List.replicate i.operandCount zero
  | none => []

/-- The state in which agent `a` moves next, is not inside an operation, and presents `c` first, with no `OSC_NEXT` hung. -/
def Block.State.place {α : Type} {nch : Nat} (s : Block.State α nch) (a : Agent) (c : Command α) : Block.State α nch :=
  let s := { s.withPort a { s.port a with pending := c :: (s.port a).pending } with hanging := none }
  match a with
  | .producer => { s with schedule := .producer :: s.schedule, writing := none }
  | .consumer => { s with schedule := .consumer :: s.schedule, snapping := none }

end Sys2Proof.Machine
end

