-- ==== Sys2Proof/Machine/Step.lean ====
section
/-! DEFINITION. One step of the host's machine: the agent whose turn it is takes one step (spec/00_scope.md R11, R12). -/

namespace Sys2Proof.Machine

/-- One step: the step of the block at the host's parameters, its operations executed by `exec`. -/
def step (s : State) : Host.Outcome State Fault Refusal := Block.stepWith Config.params exec s

/-- `s` with the command word `w` placed so that the next step executes exactly it (log entry 10); it
overlaps no operation and has no bound on what its load may pass over (log entry 7). -/
def State.withFetchWord (s : State) (nbits w : Nat) : State :=
  let word : CommandWord := BitVec.ofNat 32 (w % 2 ^ nbits)
  s.place (agentFor (decode word))
    { word := word, operands := zeroOperands Config.num.zero (decode word), overlaps := false, missable := none }

end Sys2Proof.Machine
end

