-- ==== Sys2Proof/Machine/Pseudo.lean ====
section
/-! DEFINITION. The assembler's lines, mnemonics, symbolic immediates and four pseudo-operations
(spec/30_encoding.md R93, R94). A pseudo-operation has no encoding of its own: it is its expansion. -/

namespace Sys2Proof.Machine

/-- The mnemonic of an operation (R15, R93). -/
def mnemonic : Instr → String
  | .oscSetSr => "OSC_SET_SR"
  | .oscSetFreq => "OSC_SET_FREQ"
  | .oscSetWave _ => "OSC_SET_WAVE"
  | .oscNext => "OSC_NEXT"
  | .envSetSr => "ENV_SET_SR"
  | .envSetParams => "ENV_SET_PARAMS"
  | .envEnter _ => "ENV_ENTER"
  | .envNext => "ENV_NEXT"
  | .envActive => "ENV_ACTIVE"
  | .svfSetSr => "SVF_SET_SR"
  | .svfSetCutoff => "SVF_SET_CUTOFF"
  | .svfSetRes => "SVF_SET_RES"
  | .svfSetType _ => "SVF_SET_TYPE"
  | .svfProc _ => "SVF_PROC"
  | .scopeWrite _ => "SCOPE_WRITE"
  | .scopeSnap _ => "SCOPE_SNAP"

/-- The symbolic names of immediates (R93). -/
inductive Symbol where
  | SINE | TRIANGLE | SAW | SQUARE
  | OFF | ATTACK | DECAY | SUSTAIN | RELEASE
  | LOWPASS | HIGHPASS | BANDPASS
deriving DecidableEq, Repr

/-- The immediate a symbolic name stands for (R84, R93). -/
def symbolValue : Symbol → Arg
  | .SINE => 0
  | .TRIANGLE => 1
  | .SAW => 2
  | .SQUARE => 3
  | .OFF => 0
  | .ATTACK => 1
  | .DECAY => 2
  | .SUSTAIN => 3
  | .RELEASE => 4
  | .LOWPASS => 0
  | .HIGHPASS => 1
  | .BANDPASS => 2

/-- The immediate of a line: a number or a symbolic name (R93). -/
inductive Immediate where
  | number (n : Nat)
  | symbol (name : Symbol)
deriving DecidableEq, Repr

/-- The 24-bit value of an immediate; a number that has none is not an immediate (R84, R93). -/
def immediateValue : Immediate → Option Arg
  | .number n => if n < 2 ^ 24 then some (BitVec.ofNat 24 n) else none
  | .symbol name => some (symbolValue name)

/-- One line of assembly, its numbers read (R93; log entry 17): who issues it, where the line says, the mnemonic, the
immediate, where there is one, and the operands. -/
structure Line (α : Type) where
  issuer : Option Agent
  name : String
  immediate : Option Immediate
  operands : List α
deriving DecidableEq, Repr

/-- The operation a mnemonic and an immediate name; an operation without an immediate takes none (R84, R85, R93). -/
def namedOperation (name : String) (imm : Option Arg) : Option Instr :=
  match imm with
  | some arg =>
    [Instr.oscSetWave arg, .envEnter arg, .svfSetType arg, .svfProc arg, .scopeWrite arg, .scopeSnap arg].find?
      fun i => mnemonic i == name
  | none =>
    [Instr.oscSetSr, .oscSetFreq, .oscNext, .envSetSr, .envSetParams, .envNext, .envActive, .svfSetSr,
      .svfSetCutoff, .svfSetRes].find? fun i => mnemonic i == name

/-- One operation with its operands, as the command an agent presents. Its text says nothing of time, so that it overlaps
no operation on its unit, as R226 asks of the host, and has no bound on what its load may pass over (R67); DESIGN CHOICE
(log entry 7), since R93 and R94 say nothing of either. -/
def commandOf {α : Type} (i : Instr) (operands : List α) : Command α :=
  { word := encode i, operands := operands, overlaps := false, missable := none }

/-- The command a line stands for, where it stands for one (R93): the word is the operation's, and it has the
operands the operation takes. -/
def assemble {α : Type} (l : Line α) : Option (Command α) :=
  match l.immediate.map immediateValue with
  | some none => none
  | some (some arg) => build (namedOperation l.name (some arg))
  | none => build (namedOperation l.name none)
where
  build (i : Option Instr) : Option (Command α) :=
    match i with
    | some i =>
      if l.operands.length = i.operandCount then
        some (commandOf i l.operands)
      else none
    | none => none

/-- The pseudo-operations (R94). -/
inductive Pseudo (α : Type) where
  | prepare (sr : α)
  | noteOn (freq : α)
  | noteOff
  | envReset
deriving DecidableEq, Repr

/-- The expansion of a pseudo-operation (R94). -/
def expand {α : Type} : Pseudo α → List (Command α)
  | .prepare sr => [commandOf .oscSetSr [sr], commandOf .envSetSr [sr], commandOf .svfSetSr [sr]]
  | .noteOn freq => [commandOf .oscSetFreq [freq], commandOf (.envEnter (symbolValue .ATTACK)) []]
  | .noteOff => [commandOf (.envEnter (symbolValue .RELEASE)) []]
  | .envReset => [commandOf (.envEnter (symbolValue .OFF)) []]

end Sys2Proof.Machine
end

