-- ==== Sys2Proof/Machine/Reference.lean ====
section
/-! DEFINITION. The reference instance `REAL` of the number format (spec/00_scope.md R10), in which the spec states
its values and bounds. The block can be taken at it, with any `ENV_EPS`, channels, capacity and free choices: `realParams`. -/

namespace Sys2Proof.Machine

/-- `REAL`: the real numbers with exact arithmetic (R10), and the constants of R8 and R9. DESIGN CHOICE (log entry 19):
R9 makes `div` total and R10 gives no value for a division by 0; here it is 0. -/
noncomputable def realNum : NumFormat ℝ where
  zero := 0
  one := 1
  two := 2
  half := 1 / 2
  headroom := 1 / 5
  resMax := 99 / 100
  pi := Real.pi
  twoPi := 2 * Real.pi
  add x y := x + y
  sub x y := x - y
  mul x y := x * y
  div x y := x / y
  neg x := -x
  abs x := |x|
  sin x := Real.sin x
  frac x := Int.fract x
  lt x y := decide (x < y)
  le x y := decide (x ≤ y)
  gt x y := decide (x > y)
  ge x y := decide (x ≥ y)
  eq x y := decide (x = y)

/-- The parameters of the block in `REAL` (R8, R10). -/
noncomputable def realParams (eps : ℝ) (h : 0 < eps) (extraChannels : Fin 2) (capLessOne : Nat) (draw : Nat → Nat) :
    Params ℝ :=
  { num := realNum, envEps := eps, envEps_positive := by simpa [realNum] using h, svfExtraChannels := extraChannels
    scopeCapLessOne := capLessOne, draw := draw }

end Sys2Proof.Machine
end

