-- ==== Sys2Proof/Safety.lean ====
section
/-! DEFINITION. Runs, what a good run is, and the invariant of the machine's state, in the terms the statements use. -/

namespace Sys2Proof.Machine

/-- `k` times the same step. A run that is refused is so for good (spec/60_exceptions.md R198). -/
def repeated {σ : Type} (next : σ → Result σ) : Nat → σ → Result σ
  | 0, s => .next s
  | k + 1, s =>
    match next s with
    | .next t => repeated next k t
    | .fault r => .fault r
    | .refused r => .refused r

/-- `k` steps of the host's machine. -/
abbrev stepN : Nat → State → Result State := repeated step

section

variable {α : Type} {nch : Nat}

/-- The end of a run (spec/60_exceptions.md R207): each agent has issued its last command and that command has
completed. -/
def Block.State.Ended (s : Block.State α nch) : Prop :=
  s.producer.pending = [] ∧ s.consumer.pending = [] ∧ s.writing = none ∧ s.snapping = none ∧
    s.hanging = none

/-- The `UNIT` code of an operation (spec/30_encoding.md R82): 1 OSC, 2 ENV, 3 SVF, 4 SCOPE. -/
def unitOf (i : Instr) : Nat := i.opcode.toNat / 16

/-- Agent `a` moves next and is inside no operation, so that it presents its next command (spec/00_scope.md R12). -/
def Block.State.Issues (s : Block.State α nch) (a : Agent) (later : List Agent) : Prop :=
  s.schedule = a :: later ∧ s.hanging ≠ some a ∧ (a = .producer → s.writing = none) ∧ (a = .consumer → s.snapping = none)

end

/-- A parameter register that holds a value. -/
def Param.isSet {α : Type} : Param α → Bool
  | .unset => false
  | .val _ => true

/-- A map of values that keeps every constant, function and comparison of the number formats (spec/00_scope.md R9). -/
structure FormatMap {α β : Type} (N : NumFormat α) (M : NumFormat β) (g : α → β) : Prop where
  zero : g N.zero = M.zero
  one : g N.one = M.one
  two : g N.two = M.two
  half : g N.half = M.half
  headroom : g N.headroom = M.headroom
  resMax : g N.resMax = M.resMax
  pi : g N.pi = M.pi
  twoPi : g N.twoPi = M.twoPi
  add : ∀ x y, g (N.add x y) = M.add (g x) (g y)
  sub : ∀ x y, g (N.sub x y) = M.sub (g x) (g y)
  mul : ∀ x y, g (N.mul x y) = M.mul (g x) (g y)
  div : ∀ x y, g (N.div x y) = M.div (g x) (g y)
  neg : ∀ x, g (N.neg x) = M.neg (g x)
  abs : ∀ x, g (N.abs x) = M.abs (g x)
  sin : ∀ x, g (N.sin x) = M.sin (g x)
  frac : ∀ x, g (N.frac x) = M.frac (g x)
  lt : ∀ x y, M.lt (g x) (g y) = N.lt x y
  le : ∀ x y, M.le (g x) (g y) = N.le x y
  gt : ∀ x y, M.gt (g x) (g y) = N.gt x y
  ge : ∀ x y, M.ge (g x) (g y) = N.ge x y
  eq : ∀ x y, M.eq (g x) (g y) = N.eq x y

/-- A parameter register with its value mapped. -/
def Param.map {α β : Type} (g : α → β) : Param α → Param β
  | .unset => .unset
  | .val x => .val (g x)

/-- The oscillator with its values mapped. -/
def Osc.map {α β : Type} (g : α → β) (o : Osc α) : Osc β :=
  { phase := g o.phase, freq := o.freq.map g, sr := o.sr.map g, wave := o.wave }

/-- The envelope with its values mapped. -/
def Env.map {α β : Type} (g : α → β) (e : Env α) : Env β :=
  { stage := e.stage, level := g e.level, attack := e.attack.map g, decay := e.decay.map g,
    sustain := e.sustain.map g, release := e.release.map g, sr := e.sr.map g }

/-- The filter with its values mapped. -/
def Svf.map {α β : Type} {nch : Nat} (g : α → β) (v : Svf α nch) : Svf β nch :=
  { cutoff := v.cutoff.map g, res := v.res.map g, sr := v.sr.map g, f := v.f.map g, q := v.q.map g, kind := v.kind,
    band := v.band.map g, low := v.low.map g }

/-- `k` calls of `ENV_NEXT` on the envelope's registers. -/
abbrev envCalls {α : Type} (N : NumFormat α) : Nat → Env α → Result (Env α) := repeated (envNext N)

/-! ### The producer's events -/

/-- The memory after the events. -/
def replay {α : Type} [DecidableEq α] (d : α) : Memory α → List (ScopeEvent α) → Memory α
  | m, [] => m
  | m, .write a x :: evs => replay d (m.write d a x) evs
  | m, .publish _ :: evs => replay d m evs

/-- The cursor after the events. -/
def lastCursor {α : Type} : Nat → List (ScopeEvent α) → Nat
  | c, [] => c
  | c, .write _ _ :: evs => lastCursor c evs
  | _, .publish c' :: evs => lastCursor c' evs

/-- The number of samples written by the events. -/
def writesIn {α : Type} : List (ScopeEvent α) → Nat
  | [] => 0
  | .write _ _ :: evs => writesIn evs + 1
  | .publish _ :: evs => writesIn evs

/-- The events are those of successive `SCOPE_WRITE`s from private index `i` on: each sample goes to the next
slot, and a publication stores the index reached (R177, R178). -/
def inOrder {α : Type} (cap : Nat) : Nat → List (ScopeEvent α) → Prop
  | _, [] => True
  | i, .write a _ :: evs => a = i ∧ inOrder cap (nextSlot cap i) evs
  | i, .publish c :: evs => c = i ∧ inOrder cap i evs

/-- The private index after the events. -/
def endIndex {α : Type} (cap : Nat) : Nat → List (ScopeEvent α) → Nat
  | i, [] => i
  | i, .write _ _ :: evs => endIndex cap (nextSlot cap i) evs
  | i, .publish _ :: evs => endIndex cap i evs

/-- The samples written after the last publication: how many are not yet accounted for by the cursor (spec/10_state.md R48). -/
def unpublished {α : Type} : Nat → List (ScopeEvent α) → Nat
  | n, [] => n
  | n, .write _ _ :: evs => unpublished (n + 1) evs
  | _, .publish _ :: evs => unpublished 0 evs

/-! ### The invariant -/

section

variable {α : Type} {nch : Nat} [DecidableEq α] (P : Params α) (s : Block.State α nch)

/-- The oscillator, envelope and filter registers as the spec says they are in every reachable state. -/
structure UnitsInv : Prop where
  /-- Off forces the level to 0 (R31) -/
  off_level : s.env.stage = .off → s.env.level = P.num.zero
  /-- a stored time is not below `ENV_EPS` (R32, R33, R35, R134) -/
  attack_guarded : ∀ x, s.env.attack = .val x → x = P.envEps ∨ P.num.lt x P.envEps = false
  decay_guarded : ∀ x, s.env.decay = .val x → x = P.envEps ∨ P.num.lt x P.envEps = false
  release_guarded : ∀ x, s.env.release = .val x → x = P.envEps ∨ P.num.lt x P.envEps = false
  /-- a stored resonance is not above `RES_MAX` and not below 0 (R38, R160); each bound is a value of its own, since
  nothing is known of how the two compare under a number format (R9) -/
  res_clamped : ∀ x, s.svf.res = .val x →
    (x = P.num.resMax ∨ P.num.gt x P.num.resMax = false) ∧
    (x = P.num.resMax ∨ x = P.num.zero ∨ P.num.lt x P.num.zero = false)
  /-- `SVF.f` agrees with cutoff and sample rate (R40) -/
  f_derived : s.svf.f = derivedF P.num s.svf.cutoff s.svf.sr
  /-- `SVF.q` agrees with the resonance (R41) -/
  q_unset : s.svf.res = .unset → s.svf.q = .unset
  q_derived : ∀ x, s.svf.res = .val x → s.svf.q = .val (P.num.sub P.num.one x)

/-- The SCOPE memory, the cursors and the record of the producer's events. -/
structure ScopeInv : Prop where
  mem_wf : s.scope.mem.wf P.num.zero
  mem_within : s.scope.mem.within P.scopeCap
  base_wf : s.scope.trail.base.wf P.num.zero
  base_within : s.scope.trail.base.within P.scopeCap
  /-- R46 -/
  cursor_lt : s.scope.cursor < P.scopeCap
  base_cursor_lt : s.scope.trail.baseCursor < P.scopeCap
  /-- R47: the read cursor holds its reset value for ever -/
  rcur_zero : s.scope.rcur = 0
  /-- the events lead from what the consumer has observed to the memory and the cursor (R66, R69) -/
  mem_replay : replay P.num.zero s.scope.trail.base s.scope.trail.later = s.scope.mem
  cursor_replay : lastCursor s.scope.trail.baseCursor s.scope.trail.later = s.scope.cursor
  events_in_order : inOrder P.scopeCap s.scope.trail.baseCursor s.scope.trail.later
  /-- between two `SCOPE_WRITE`s every sample written has been published (R178) -/
  quiescent_published : s.writing = none → unpublished 0 s.scope.trail.later = 0
  /-- a write in progress goes on at the index its samples have reached (R177) -/
  writing_slot : ∀ w, s.writing = some w →
    w.slot = endIndex P.scopeCap s.scope.trail.baseCursor s.scope.trail.later
  /-- a snapshot in progress reads inside the memory (R182) -/
  snapping_slot : ∀ p, s.snapping = some p → p.slot < P.scopeCap ∧ p.after < P.scopeCap

/-- An agent is inside one operation at a time (R12): one that hangs in an `OSC_NEXT` is inside no SCOPE operation. -/
structure AgentsInv : Prop where
  producer_hangs : s.hanging = some .producer → s.writing = none
  consumer_hangs : s.hanging = some .consumer → s.snapping = none

/-- The invariant of the machine. -/
def Inv : Prop := UnitsInv P s ∧ ScopeInv P s ∧ AgentsInv s

end

end Sys2Proof.Machine
end

