-- ==== Sys2Proof/Certificates/Slice0/Obligations.lean ====
section
/-! DEFINITION. The statements for the provers. Each docstring names the rules of spec/ it formalises. -/

open Sys2Proof Sys2Proof.Machine

/-! ### Encoding (spec/30_encoding.md) -/

/-- R81, R83, R85: decoding the word of an operation gives that operation, with any immediate. -/
def Obligations.DecodeOfEncodeIsTheInstruction : Prop :=
  ∀ i : Instr, decode (encode i) = some i

/-- R81, R87: a word that decodes is the word of what it decodes to, so no bit of it is dropped. -/
def Obligations.DecodedWordEncodesBack : Prop :=
  ∀ (cw : CommandWord) (i : Instr), decode cw = some i → encode i = cw

/-- R92: a word selects a row exactly when its masked bits are the row's match, and it selects no two rows. -/
def Obligations.WordSelectsItsOneRow : Prop :=
  (∀ (cw : CommandWord) (i : Instr),
    cw &&& i.maskBits = i.matchBits ↔ ∃ j, decode cw = some j ∧ j.opcode = i.opcode) ∧
  (∀ (cw : CommandWord) (i j : Instr),
    cw &&& i.maskBits = i.matchBits → cw &&& j.maskBits = j.matchBits → i.opcode = j.opcode)

/-- R90: the complete list of reserved encodings, (a) to (f) refused by the step that decodes them and (g) to (j) by
the operation, and only those; `SVF_SET_TYPE` has no reserved immediate. That an `OSC_SET_WAVE` is refused as overlapping
while an `OSC_NEXT` hangs is stated elsewhere (log entry 21). -/
def Obligations.ReservedEncodingsAreRefused : Prop :=
  (∀ cw : CommandWord, decode cw = none ↔
    unitField cw = 0 ∨ 5 ≤ (unitField cw).toNat ∨
    (unitField cw = 1 ∧ 4 ≤ (funcField cw).toNat) ∨
    (unitField cw = 2 ∧ 5 ≤ (funcField cw).toNat) ∨
    (unitField cw = 3 ∧ 5 ≤ (funcField cw).toNat) ∨
    (unitField cw = 4 ∧ 2 ≤ (funcField cw).toNat) ∨
    (argField cw ≠ 0 ∧
      ((unitField cw = 1 ∧ funcField cw ∈ [0, 1, 3]) ∨
       (unitField cw = 2 ∧ funcField cw ∈ [0, 1, 3, 4]) ∨
       (unitField cw = 3 ∧ funcField cw ∈ [0, 1, 2])))) ∧
  (∀ (s : State) (a : Agent) (later : List Agent) (c : Command NumVal) (rest : List (Command NumVal)),
    s.Issues a later → (s.port a).pending = c :: rest → decode c.word = none → step s = .refused .reserved) ∧
  (∀ (s : State) (arg : Arg), s.command.operands = [] → s.command.overlaps = false →
    (s.hanging = none → (exec (.oscSetWave arg) s = .refused .reserved ↔ 3 < arg.toNat)) ∧
    (exec (.envEnter arg) s = .refused .reserved ↔ 4 < arg.toNat) ∧
    exec (.svfSetType arg) s ≠ .refused .reserved) ∧
  (∀ (s : State) (arg : Arg) (x : NumVal), s.command.operands = [x] → s.command.overlaps = false →
    (exec (.svfProc arg) s = .refused .reserved ↔ Config.svfNch ≤ arg.toNat)) ∧
  (∀ (s : State) (arg : Arg), s.command.operands = [] → s.command.agent = .consumer →
    (exec (.scopeSnap arg) s = .refused .reserved ↔ Config.scopeCap < arg.toNat))

/-- R92, spec/95_test_vectors.md V1 and V2: words written out from the opcode map decode to their operations, and
reserved ones to none. -/
def Obligations.WordsOfTheOpcodeMapDecode : Prop :=
  decode 0x10000000 = some .oscSetSr ∧ decode 0x12000003 = some (.oscSetWave 3) ∧
  decode 0x13000000 = some .oscNext ∧ decode 0x21000000 = some .envSetParams ∧
  decode 0x22000004 = some (.envEnter 4) ∧ decode 0x24000000 = some .envActive ∧
  decode 0x32000000 = some .svfSetRes ∧ decode 0x34000001 = some (.svfProc 1) ∧
  decode 0x33FFFFFF = some (.svfSetType 0xFFFFFF) ∧ decode 0x40000200 = some (.scopeWrite 512) ∧
  decode 0x41001000 = some (.scopeSnap 4096) ∧
  decode 0x00000000 = none ∧ decode 0x50000000 = none ∧ decode 0x14000000 = none ∧ decode 0x24800000 = none

/-- R94: each pseudo-operation is its expansion. -/
def Obligations.PseudoOperationsExpand : Prop :=
  ∀ (α : Type) (x : α),
    (expand (.prepare x)).map (fun c => (decode c.word, c.operands)) =
      [(some .oscSetSr, [x]), (some .envSetSr, [x]), (some .svfSetSr, [x])] ∧
    (expand (.noteOn x)).map (fun c => (decode c.word, c.operands)) =
      [(some .oscSetFreq, [x]), (some (.envEnter 1), [])] ∧
    (expand (.noteOff : Pseudo α)).map (fun c => (decode c.word, c.operands)) = [(some (.envEnter 4), [])] ∧
    (expand (.envReset : Pseudo α)).map (fun c => (decode c.word, c.operands)) = [(some (.envEnter 0), [])]

/-! ### Steps, agents and refusals -/

/-- R12, R80, R87: when an agent moves that is inside no operation, and its next command decodes, the step executes
the decoded operation: the command leaves the port, and its issuer, operands and overlap are those in execution, with the
bound on what a snapshot's load passes over. Ports, schedule, the record of the command in execution and that bound are the
model's own (log entries 6, 7, 20). -/
def Obligations.StepExecutesTheDecodedCommand : Prop :=
  ∀ (s : State) (a : Agent) (later : List Agent) (c : Command NumVal) (rest : List (Command NumVal)) (i : Instr),
    s.Issues a later → (s.port a).pending = c :: rest → decode c.word = some i →
    step s = exec i
      { s.withPort a { s.port a with pending := rest } with
        schedule := later
        command := { agent := a, operands := c.operands, overlaps := c.overlaps,
                     missable := Block.State.mayMiss { s with schedule := later } i c } }

/-- R11: the block takes no step that an agent did not issue. With no agent scheduled nothing changes, and an agent
with no operation in progress and no command left changes nothing but the schedule. The schedule is the model's own
(log entry 6). -/
def Obligations.BlockTakesNoStepOfItsOwn : Prop :=
  (∀ s : State, s.schedule = [] → step s = .next s) ∧
  (∀ (s : State) (a : Agent) (later : List Agent), s.Issues a later → (s.port a).pending = [] →
    step s = .next { s with schedule := later })

/-- R12, R235: an agent that is inside an operation begins no other: its step always completes, presents no command of
its port, and the command in execution stays. An agent inside an `OSC_NEXT` that never ends takes steps that change
nothing, and the other agent's steps are not held up. Ports, schedule and operations in progress are the model's own record
(log entry 6), and that a hung agent goes on taking such steps is its choice (log entry 21). -/
def Obligations.BusyAgentPresentsNoCommand : Prop :=
  (∀ (s : State) (later : List Agent) (w : Writing NumVal), s.schedule = .producer :: later →
    s.hanging ≠ some .producer → s.writing = some w →
    ∃ t, step s = .next t ∧ t.producer = s.producer ∧ t.consumer = s.consumer ∧ t.command = s.command ∧
      t.schedule = later) ∧
  (∀ (s : State) (later : List Agent) (p : Snapping), s.schedule = .consumer :: later →
    s.hanging ≠ some .consumer → s.snapping = some p →
    ∃ t, step s = .next t ∧ t.producer = s.producer ∧ t.consumer.pending = s.consumer.pending ∧
      t.command = s.command ∧ t.schedule = later) ∧
  (∀ (s : State) (a : Agent) (later : List Agent), s.schedule = a :: later → s.hanging = some a →
    step s = .next { s with schedule := later })

/-- R199: of several refusal conditions the one reported is the first in the order reserved encoding at decode, wrong
agent, overlap, then the operation's own; R226: an overlapping operation of OSC, ENV or SVF is refused. That a command
says whether it overlaps is the model's choice (log entry 7), that one of OSC overlaps a hung `OSC_NEXT` as well (log entry
21), and that a wrong number of operands is asked for first (log entry 8). -/
def Obligations.RefusalsComeInOrder : Prop :=
  (∀ (i : Instr) (s : State), s.command.operands.length = i.operandCount → unitOf i ≠ 4 →
    s.command.overlaps = true → exec i s = .refused .overlap) ∧
  (∀ (i : Instr) (s : State), s.command.operands.length = i.operandCount → unitOf i = 1 →
    s.hanging ≠ none → exec i s = .refused .overlap) ∧
  (∀ (s : State) (count : Arg), s.command.operands.length = count.toNat → s.command.agent = .consumer →
    exec (.scopeWrite count) s = .refused .wrongAgent) ∧
  (∀ (s : State) (count : Arg), s.command.operands = [] → s.command.agent = .producer →
    exec (.scopeSnap count) s = .refused .wrongAgent)

/-- R89: results go to the issuing agent and to no one else, and each operation returns as many as its row says:
`OSC_NEXT`, `ENV_NEXT` and `SVF_PROC` one number, `ENV_ACTIVE` one bit, the first event of every other operation none.
An operation presents nothing of either port. An `OSC_NEXT` that never ends returns nothing, and its issuer hangs in it: that
is the model's choice (log entry 21), and the ports are the model's own (log entry 6). -/
def Obligations.ResultsGoToTheIssuerAlone : Prop :=
  ∀ (i : Instr) (s t : State), exec i s = .next t →
    (∀ a, a ≠ s.command.agent → t.port a = s.port a) ∧
    (t.port s.command.agent).pending = (s.port s.command.agent).pending ∧
    ∃ returned, (t.port s.command.agent).results = (s.port s.command.agent).results ++ returned ∧
      match i with
      | .oscNext => (t.hanging = none ∧ ∃ x, returned = [.num x]) ∨ (t.hanging = some s.command.agent ∧ returned = [])
      | .envNext | .svfProc _ => ∃ x, returned = [.num x]
      | .envActive => ∃ b, returned = [.bit b]
      | _ => returned = []

/-! ### Reset (spec/70_reset_and_hazards.md) -/

/-- R216: the reset state. -/
def Obligations.ResetStateIsTheTable : Prop :=
  let s := State.reset
  s.osc.phase = Config.num.zero ∧ s.env.level = Config.num.zero ∧
  (∀ (c : Nat) (h : c < Config.svfNch), s.svf.band[c] = Config.num.zero ∧ s.svf.low[c] = Config.num.zero) ∧
  (∀ slot, s.scope.mem.read Config.num.zero slot = Config.num.zero) ∧
  s.scope.cursor = 0 ∧ s.scope.rcur = 0 ∧ s.osc.wave = .sine ∧ s.env.stage = .off ∧ s.svf.kind = 0 ∧
  s.osc.freq = .unset ∧ s.osc.sr = .unset ∧ s.env.attack = .unset ∧ s.env.decay = .unset ∧ s.env.sustain = .unset ∧
  s.env.release = .unset ∧ s.env.sr = .unset ∧ s.svf.cutoff = .unset ∧ s.svf.res = .unset ∧ s.svf.sr = .unset ∧
  s.svf.f = .unset ∧ s.svf.q = .unset

/-- R218: a register that has been written never becomes unset again, at any step. -/
def Obligations.SetRegistersStaySet : Prop :=
  ∀ s t : State, step s = .next t →
    (s.osc.freq.isSet → t.osc.freq.isSet) ∧ (s.osc.sr.isSet → t.osc.sr.isSet) ∧
    (s.env.attack.isSet → t.env.attack.isSet) ∧ (s.env.decay.isSet → t.env.decay.isSet) ∧
    (s.env.sustain.isSet → t.env.sustain.isSet) ∧ (s.env.release.isSet → t.env.release.isSet) ∧
    (s.env.sr.isSet → t.env.sr.isSet) ∧ (s.svf.cutoff.isSet → t.svf.cutoff.isSet) ∧
    (s.svf.res.isSet → t.svf.res.isSet) ∧ (s.svf.sr.isSet → t.svf.sr.isSet) ∧
    (s.svf.q.isSet → t.svf.q.isSet) ∧ (Inv Config.params s → s.svf.f.isSet → t.svf.f.isSet)

/-! ### The invariant -/

/-- The invariant holds right after reset. It takes in the model's own records (log entries 5, 6, 21). -/
def Obligations.InvariantHoldsAtReset : Prop := Inv Config.params State.reset

/-- Every step keeps the invariant (R31 to R35, R38, R40, R41, R46, R47, R66, R69, R177, R178, R182): Off has level 0,
stored times are guarded and the resonance is clamped at both ends, the coefficients agree with their registers, the memory is in canonical form
and inside its slots, and the memory and the cursor are what the producer's events make of what the consumer has
observed; an agent that hangs in an `OSC_NEXT` is inside no SCOPE operation (R12). The record of the producer's events and
of who hangs is the model's own (log entries 5, 21). -/
def Obligations.InvariantKeptByEveryStep : Prop :=
  ∀ s t : State, Inv Config.params s → step s = .next t → Inv Config.params t

/-! ### Who writes what (spec/10_state.md) -/

/-- R22, R26, R31, R43, R44: each datapath register is written by the next-sample operation of its unit alone, the
level also by `ENV_ENTER` with stage Off. -/
def Obligations.DatapathRegistersHaveOneWriter : Prop :=
  ∀ (i : Instr) (s t : State), exec i s = .next t →
    (i ≠ .oscNext → t.osc.phase = s.osc.phase) ∧
    (i ≠ .envNext → i ≠ .envEnter 0 → t.env.level = s.env.level) ∧
    ((∀ ch, i ≠ .svfProc ch) → t.svf.band = s.svf.band ∧ t.svf.low = s.svf.low)

/-- R27 to R30, R32 to R42, R47: each parameter register is written by its own operation alone, and the read cursor by
none. That a completed `exec` writes neither the memory nor the cursor either is the model's choice (log entry 6): of
`SCOPE_WRITE` it is the first event alone, and the producer's next steps are the memory events with which that operation
writes them (R45, R46, R49). -/
def Obligations.ParameterRegistersHaveOneWriter : Prop :=
  ∀ (i : Instr) (s t : State), exec i s = .next t →
    (i ≠ .oscSetFreq → t.osc.freq = s.osc.freq) ∧ (i ≠ .oscSetSr → t.osc.sr = s.osc.sr) ∧
    ((∀ w, i ≠ .oscSetWave w) → t.osc.wave = s.osc.wave) ∧
    ((∀ k, i ≠ .envEnter k) → i ≠ .envNext → t.env.stage = s.env.stage) ∧
    (i ≠ .envSetParams → t.env.attack = s.env.attack ∧ t.env.decay = s.env.decay ∧
      t.env.sustain = s.env.sustain ∧ t.env.release = s.env.release) ∧
    (i ≠ .envSetSr → t.env.sr = s.env.sr) ∧ (i ≠ .svfSetCutoff → t.svf.cutoff = s.svf.cutoff) ∧
    (i ≠ .svfSetRes → t.svf.res = s.svf.res ∧ t.svf.q = s.svf.q) ∧ (i ≠ .svfSetSr → t.svf.sr = s.svf.sr) ∧
    (i ≠ .svfSetCutoff → i ≠ .svfSetSr → t.svf.f = s.svf.f) ∧
    ((∀ k, i ≠ .svfSetType k) → t.svf.kind = s.svf.kind) ∧
    t.scope.mem = s.scope.mem ∧ t.scope.cursor = s.scope.cursor ∧ t.scope.rcur = s.scope.rcur

/-- R2: no operation of one unit writes the state of another, and none of OSC, ENV and SVF touches a SCOPE operation
in progress or makes a free choice. None but OSC's makes an agent hang. Operations in progress and free choices are the
model's own record (log entries 4, 6, 21). -/
def Obligations.UnitsWriteNoOtherUnit : Prop :=
  ∀ (i : Instr) (s t : State), exec i s = .next t →
    (unitOf i ≠ 1 → t.osc = s.osc ∧ t.hanging = s.hanging) ∧ (unitOf i ≠ 2 → t.env = s.env) ∧ (unitOf i ≠ 3 → t.svf = s.svf) ∧
    (unitOf i ≠ 4 → t.scope = s.scope ∧ t.writing = s.writing ∧ t.snapping = s.snapping ∧ t.draws = s.draws)

/-- R2: no operation of one unit reads the state of another. In two states in which the command in execution and the
operation's own unit are the same, whatever else differs, it completes in both or in neither, leaves the same in its
unit, and returns the same results. Part of OSC's state is which agent hangs in an `OSC_NEXT` (log entry 21), and
for a snapshot the number of free choices made is the same too (log entry 4). -/
def Obligations.UnitsReadNoOtherUnit : Prop :=
  ∀ (i : Instr) (s s' t : State), exec i s = .next t → s'.command = s.command →
    (unitOf i = 1 → s'.osc = s.osc ∧ s'.hanging = s.hanging) → (unitOf i = 2 → s'.env = s.env) → (unitOf i = 3 → s'.svf = s.svf) →
    (unitOf i = 4 → s'.scope = s.scope ∧ s'.draws = s.draws) →
    ∃ t', exec i s' = .next t' ∧
      (unitOf i = 1 → t'.osc = t.osc ∧ t'.hanging = t.hanging) ∧ (unitOf i = 2 → t'.env = t.env) ∧ (unitOf i = 3 → t'.svf = t.svf) ∧
      (unitOf i = 4 → t'.scope = t.scope) ∧
      (∀ count, i = .scopeWrite count → t'.writing = t.writing) ∧
      (∀ count, i = .scopeSnap count → t'.snapping = t.snapping) ∧
      ∀ returned, (t.port s.command.agent).results = (s.port s.command.agent).results ++ returned →
        (t'.port s.command.agent).results = (s'.port s.command.agent).results ++ returned

/-! ### OSC (spec/40_oscillator.md) -/

/-- R111, R112: the two setters store their operand as given and change nothing else, unless they overlap another
operation of OSC (R226), a hung `OSC_NEXT` among them (log entry 21). -/
def Obligations.OscSettersStoreAsGiven : Prop :=
  ∀ (s : State) (x : NumVal), s.command.operands = [x] → s.command.overlaps = false → s.hanging = none →
    exec .oscSetSr s = .next { s with osc := { s.osc with sr := .val x } } ∧
    exec .oscSetFreq s = .next { s with osc := { s.osc with freq := .val x } }

/-- R113: the four waveform codes, and the refusal of every other, with no `OSC_NEXT` hung (log entry 21). -/
def Obligations.OscSetWaveSelectsTheWaveform : Prop :=
  ∀ s : State, s.command.operands = [] → s.command.overlaps = false → s.hanging = none →
    exec (.oscSetWave 0) s = .next { s with osc := { s.osc with wave := .sine } } ∧
    exec (.oscSetWave 1) s = .next { s with osc := { s.osc with wave := .triangle } } ∧
    exec (.oscSetWave 2) s = .next { s with osc := { s.osc with wave := .saw } } ∧
    exec (.oscSetWave 3) s = .next { s with osc := { s.osc with wave := .square } } ∧
    ∀ w : Arg, 3 < w.toNat → exec (.oscSetWave w) s = .refused .reserved

/-- R114, R115, R121, R122: `OSC_NEXT` returns the headroom times the waveform's value at the phase as it stands, and
leaves the phase advanced by `(TWO_PI · freq) / sr` and wrapped; nothing else changes. No `OSC_NEXT` hangs, and this one
ends (log entry 21). -/
def Obligations.OscNextSamplesThenAdvances : Prop :=
  ∀ (s : State) (freq sr p : NumVal), s.command.operands = [] → s.command.overlaps = false → s.hanging = none →
    s.osc.freq = .val freq → s.osc.sr = .val sr →
    Config.num.gt sr Config.num.zero = true → Config.num.gt freq Config.num.zero = true →
    wrapPhase Config.num
      (Config.num.add s.osc.phase (Config.num.div (Config.num.mul Config.num.twoPi freq) sr)) = some p →
    exec .oscNext s = .next
      (({ s with osc := { s.osc with phase := p } } : State).reply
        (.num (Config.num.mul Config.num.headroom
          (waveValue Config.num s.osc.wave s.osc.phase
            (Config.num.div (Config.num.mul Config.num.twoPi freq) sr)))))

/-- R21, R114, R123: an unset frequency or sample rate is refused, then a sample rate that is not positive, then a
frequency that is not positive, with no `OSC_NEXT` hung (log entry 21). -/
def Obligations.OscNextRefusesUnsetAndNotPositive : Prop :=
  ∀ s : State, s.command.operands = [] → s.command.overlaps = false → s.hanging = none →
    (s.osc.freq = .unset ∨ s.osc.sr = .unset → exec .oscNext s = .refused .unset) ∧
    (∀ freq sr, s.osc.freq = .val freq → s.osc.sr = .val sr → Config.num.gt sr Config.num.zero = false →
      exec .oscNext s = .refused .badSampleRate) ∧
    (∀ freq sr, s.osc.freq = .val freq → s.osc.sr = .val sr → Config.num.gt sr Config.num.zero = true →
      Config.num.gt freq Config.num.zero = false → exec .oscNext s = .refused .badFrequency)

/-- R122: under every number format the wrap subtracts `TWO_PI` as often as it takes to come below it, and no more. -/
def Obligations.WrapSubtractsUntilBelowATurn : Prop :=
  ∀ (α : Type) (N : NumFormat α) (p q : α),
    wrapPhase N p = some q ↔
      ∃ k : Nat, q = (fun x => N.sub x N.twoPi)^[k] p ∧ N.ge q N.twoPi = false ∧
        ∀ j < k, N.ge ((fun x => N.sub x N.twoPi)^[j] p) N.twoPi = true

/-- R231 (c), U18: under every number format `OSC_NEXT` fails to complete exactly when it is not refused and no number
of subtractions brings the phase below `TWO_PI`. Its issuer is then inside it for good: no register changes, nothing is
returned, nothing else changes; that is the model's choice (log entry 21). -/
def Obligations.OscNextIsStuckExactlyWhenTheWrapNeverEnds : Prop :=
  (∀ (α : Type) (N : NumFormat α) (o : Osc α),
    oscNext N o = .next none ↔
      ∃ freq sr, o.freq = .val freq ∧ o.sr = .val sr ∧ N.gt sr N.zero = true ∧ N.gt freq N.zero = true ∧
        ∀ k : Nat, N.ge ((fun x => N.sub x N.twoPi)^[k]
          (N.add o.phase (N.div (N.mul N.twoPi freq) sr))) N.twoPi = true) ∧
  (∀ (α : Type) [DecidableEq α] (P : Params α) (s : Block.State α P.svfNch), s.command.operands = [] →
    s.command.overlaps = false → s.hanging = none → oscNext P.num s.osc = .next none →
    s.perform P .oscNext = .next { s with hanging := some s.command.agent })

/-- R116 to R120 in `REAL`: the waveform values as real formulas in `t = phase / 2π` and `dt = inc / 2π`, with the
correction in its two squares; `frac(t + 1/2)` as R120 defines it, which for `t` in `[0, 1)` is the fractional part. -/
def Obligations.RealWaveformFormulas : Prop :=
  ∀ phase inc : ℝ,
    let t := phase / (2 * Real.pi)
    let dt := inc / (2 * Real.pi)
    let corr := fun u : ℝ =>
      if u < dt then -(1 - u / dt) ^ 2 else if u > 1 - dt then (1 + (u - 1) / dt) ^ 2 else 0
    let frac := if t + 1 / 2 < 1 then t + 1 / 2 else t + 1 / 2 - 1
    waveValue realNum .sine phase inc = Real.sin phase ∧
    waveValue realNum .triangle phase inc = 2 * |2 * t - 1| - 1 ∧
    waveValue realNum .saw phase inc = (2 * t - 1) - corr t ∧
    waveValue realNum .square phase inc = (if t < 1 / 2 then 1 else -1) + corr t - corr frac ∧
    (0 ≤ t → t < 1 → frac = Int.fract (t + 1 / 2))

/-- R26, R122, R235 in `REAL`: for any positive frequency and sample rate `OSC_NEXT` completes, and it leaves the phase
in `[0, 2π)`, a whole number of turns below the advanced phase. -/
def Obligations.RealPhaseStaysInOneTurn : Prop :=
  ∀ (o : Osc ℝ) (freq sr : ℝ), o.freq = .val freq → o.sr = .val sr → 0 < freq → 0 < sr →
    0 ≤ o.phase → o.phase < 2 * Real.pi →
    ∃ (p out : ℝ) (turns : Nat), oscNext realNum o = .next (some ({ o with phase := p }, out)) ∧
      0 ≤ p ∧ p < 2 * Real.pi ∧ p = o.phase + 2 * Real.pi * freq / sr - turns * (2 * Real.pi)

/-- R124 in `REAL`: below half the sample rate every sample of every waveform is within the headroom factor 0.2. -/
def Obligations.RealSampleIsWithinHeadroom : Prop :=
  ∀ (o o' : Osc ℝ) (freq sr out : ℝ), o.freq = .val freq → o.sr = .val sr → 0 < sr → 0 < freq → freq < sr / 2 →
    0 ≤ o.phase → o.phase < 2 * Real.pi → oscNext realNum o = .next (some (o', out)) → |out| ≤ 1 / 5

/-! ### ENV (spec/41_envelope.md) -/

/-- R131, R133, R134, R135: the setters of the envelope: the sample rate and the sustain level stored as given, the
three times guarded; stage, level and everything else kept. -/
def Obligations.EnvSettersStoreGuardedTimes : Prop :=
  (∀ (s : State) (x : NumVal), s.command.operands = [x] → s.command.overlaps = false →
    exec .envSetSr s = .next { s with env := { s.env with sr := .val x } }) ∧
  (∀ (s : State) (a d u r : NumVal), s.command.operands = [a, d, u, r] → s.command.overlaps = false →
    exec .envSetParams s = .next { s with env := { s.env with
      attack := .val (if Config.num.lt a Config.envEps then Config.envEps else a)
      decay := .val (if Config.num.lt d Config.envEps then Config.envEps else d)
      sustain := .val u
      release := .val (if Config.num.lt r Config.envEps then Config.envEps else r) } })

/-- R136, R137: `ENV_ENTER` sets the stage; entering Off forces the level to 0, any other stage keeps it; every other
code is refused. -/
def Obligations.EnvEnterSetsTheStage : Prop :=
  ∀ s : State, s.command.operands = [] → s.command.overlaps = false →
    exec (.envEnter 0) s = .next { s with env := { s.env with stage := .off, level := Config.num.zero } } ∧
    exec (.envEnter 1) s = .next { s with env := { s.env with stage := .attack } } ∧
    exec (.envEnter 2) s = .next { s with env := { s.env with stage := .decay } } ∧
    exec (.envEnter 3) s = .next { s with env := { s.env with stage := .sustain } } ∧
    exec (.envEnter 4) s = .next { s with env := { s.env with stage := .release } } ∧
    ∀ k : Arg, 4 < k.toNat → exec (.envEnter k) s = .refused .reserved

/-- R139, R142: in Off the level becomes 0 and is returned, with no parameter needed; in Sustain the level becomes the
sustain level and is returned. The stage stays; nothing else changes. -/
def Obligations.EnvNextHoldsInOffAndSustain : Prop :=
  ∀ s : State, s.command.operands = [] → s.command.overlaps = false →
    (s.env.stage = .off → exec .envNext s = .next
      (({ s with env := { s.env with level := Config.num.zero } } : State).reply (.num Config.num.zero))) ∧
    (∀ u, s.env.stage = .sustain → s.env.sustain = .val u → exec .envNext s = .next
      (({ s with env := { s.env with level := u } } : State).reply (.num u)))

/-- R140, R144: one call in Attack. -/
def Obligations.EnvNextRisesInAttack : Prop :=
  ∀ (s : State) (attack sr : NumVal), s.command.operands = [] → s.command.overlaps = false →
    s.env.stage = .attack → s.env.attack = .val attack → s.env.sr = .val sr →
    Config.num.gt sr Config.num.zero = true →
    let level := Config.num.add s.env.level (Config.num.div Config.num.one (Config.num.mul attack sr))
    exec .envNext s = .next
      (if Config.num.ge level Config.num.one then
        ({ s with env := { s.env with level := Config.num.one, stage := .decay } } : State).reply
          (.num Config.num.one)
      else ({ s with env := { s.env with level := level } } : State).reply (.num level))

/-- R141, R144: one call in Decay. -/
def Obligations.EnvNextFallsToSustainInDecay : Prop :=
  ∀ (s : State) (decay u sr : NumVal), s.command.operands = [] → s.command.overlaps = false →
    s.env.stage = .decay → s.env.decay = .val decay → s.env.sustain = .val u → s.env.sr = .val sr →
    Config.num.gt sr Config.num.zero = true →
    let level := Config.num.sub s.env.level
      (Config.num.div (Config.num.sub Config.num.one u) (Config.num.mul decay sr))
    exec .envNext s = .next
      (if Config.num.le level u then
        ({ s with env := { s.env with level := u, stage := .sustain } } : State).reply (.num u)
      else ({ s with env := { s.env with level := level } } : State).reply (.num level))

/-- R143, R144: one call in Release. -/
def Obligations.EnvNextFallsToZeroInRelease : Prop :=
  ∀ (s : State) (release u sr : NumVal), s.command.operands = [] → s.command.overlaps = false →
    s.env.stage = .release → s.env.release = .val release → s.env.sustain = .val u → s.env.sr = .val sr →
    Config.num.gt sr Config.num.zero = true →
    let level := Config.num.sub s.env.level (Config.num.div u (Config.num.mul release sr))
    exec .envNext s = .next
      (if Config.num.le level Config.num.zero then
        ({ s with env := { s.env with level := Config.num.zero, stage := .off } } : State).reply
          (.num Config.num.zero)
      else ({ s with env := { s.env with level := level } } : State).reply (.num level))

/-- R138: `ENV_NEXT` is refused where a register its stage needs is unset, and then where the sample rate is not
positive; Off needs nothing and Sustain no sample rate. -/
def Obligations.EnvNextRefusesWhatItsStageNeeds : Prop :=
  ∀ s : State, s.command.operands = [] → s.command.overlaps = false →
    (s.env.stage = .attack → s.env.attack = .unset ∨ s.env.sr = .unset → exec .envNext s = .refused .unset) ∧
    (s.env.stage = .decay → s.env.decay = .unset ∨ s.env.sustain = .unset ∨ s.env.sr = .unset →
      exec .envNext s = .refused .unset) ∧
    (s.env.stage = .sustain → s.env.sustain = .unset → exec .envNext s = .refused .unset) ∧
    (s.env.stage = .release → s.env.release = .unset ∨ s.env.sustain = .unset ∨ s.env.sr = .unset →
      exec .envNext s = .refused .unset) ∧
    (∀ a d u r sr, s.env.stage ≠ .off → s.env.stage ≠ .sustain → s.env.attack = .val a → s.env.decay = .val d →
      s.env.sustain = .val u → s.env.release = .val r → s.env.sr = .val sr →
      Config.num.gt sr Config.num.zero = false → exec .envNext s = .refused .badSampleRate)

/-- R145: the complete transition table: a stage changes by `ENV_ENTER`, to the stage of its code, or by `ENV_NEXT`
from Attack to Decay at level 1, from Decay to Sustain at the sustain level, or from Release to Off at level 0. -/
def Obligations.StageChangesOnlyByTheTable : Prop :=
  ∀ (i : Instr) (s t : State), exec i s = .next t → t.env.stage ≠ s.env.stage →
    (∃ k : Arg, i = .envEnter k ∧ k.toNat = t.env.stage.code ∧
      t.env.level = if t.env.stage = .off then Config.num.zero else s.env.level) ∨
    (i = .envNext ∧
      ((s.env.stage = .attack ∧ t.env.stage = .decay ∧ t.env.level = Config.num.one) ∨
       (s.env.stage = .decay ∧ t.env.stage = .sustain ∧ s.env.sustain = .val t.env.level) ∨
       (s.env.stage = .release ∧ t.env.stage = .off ∧ t.env.level = Config.num.zero)))

/-- R146, R23: `ENV_ACTIVE` returns whether the stage is not Off; no state of the block changes, and it is never refused. -/
def Obligations.EnvActiveReturnsStageNotOff : Prop :=
  ∀ s : State, s.command.operands = [] → s.command.overlaps = false →
    exec .envActive s = .next (s.reply (.bit (decide (s.env.stage ≠ .off))))

/-- R150, R31 in `REAL`: with the sustain level in `[0, 1]` and the times positive, a call keeps the level in `[0, 1]`;
in Attack it never falls, in Decay from a level not below sustain and in Release it never rises. -/
def Obligations.RealLevelStaysInUnitInterval : Prop :=
  ∀ (e e' : Env ℝ) (a d u r sr : ℝ), e.attack = .val a → e.decay = .val d → e.sustain = .val u → e.release = .val r →
    e.sr = .val sr → 0 < a → 0 < d → 0 < r → 0 ≤ u → u ≤ 1 → 0 < sr → 0 ≤ e.level → e.level ≤ 1 →
    envNext realNum e = .next e' →
    0 ≤ e'.level ∧ e'.level ≤ 1 ∧ (e.stage = .attack → e.level ≤ e'.level) ∧
    (e.stage = .decay → u ≤ e.level → e'.level ≤ e.level) ∧ (e.stage = .release → e'.level ≤ e.level)

/-- R147 in `REAL`, for a sustain level in `[0, 1]`: an Attack entered at level 0 lasts `ceil(attack · sr)` calls and
ends in Decay at level 1; a Decay from level 1 lasts `ceil(decay · sr)` calls, or one where sustain is 1, and ends in
Sustain at that level; a Release from the sustain level lasts `ceil(release · sr)` calls, or one where sustain is 0, and
ends in Off at level 0. Until its last call a stage stays, and the `n`-th call has moved the level by `n` steps. -/
def Obligations.RealAttackLastsItsTime : Prop :=
  (∀ (e : Env ℝ) (a sr : ℝ), e.stage = .attack → e.level = 0 → e.attack = .val a → e.sr = .val sr → 0 < a → 0 < sr →
    (∀ n : Nat, n < ⌈a * sr⌉₊ → envCalls realNum n e = .next { e with level := n / (a * sr) }) ∧
    envCalls realNum ⌈a * sr⌉₊ e = .next { e with level := 1, stage := .decay }) ∧
  (∀ (e : Env ℝ) (d u sr : ℝ), e.stage = .decay → e.level = 1 → e.decay = .val d → e.sustain = .val u →
    e.sr = .val sr → 0 < d → 0 < sr → 0 ≤ u → u ≤ 1 →
    (u < 1 →
      (∀ n : Nat, n < ⌈d * sr⌉₊ → envCalls realNum n e = .next { e with level := 1 - n * ((1 - u) / (d * sr)) }) ∧
      envCalls realNum ⌈d * sr⌉₊ e = .next { e with level := u, stage := .sustain }) ∧
    (u = 1 → envCalls realNum 1 e = .next { e with level := 1, stage := .sustain })) ∧
  (∀ (e : Env ℝ) (r u sr : ℝ), e.stage = .release → e.level = u → e.release = .val r → e.sustain = .val u →
    e.sr = .val sr → 0 < r → 0 < sr → 0 ≤ u → u ≤ 1 →
    (0 < u →
      (∀ n : Nat, n < ⌈r * sr⌉₊ → envCalls realNum n e = .next { e with level := u - n * (u / (r * sr)) }) ∧
      envCalls realNum ⌈r * sr⌉₊ e = .next { e with level := 0, stage := .off }) ∧
    (u = 0 → envCalls realNum 1 e = .next { e with level := 0, stage := .off }))

/-! ### SVF (spec/42_filter.md) -/

/-- R156, R157, R158, R162: the setters of the filter: stored as given, `SVF.f` recomputed, the integrators kept. -/
def Obligations.SvfSettersRecomputeTheCoefficient : Prop :=
  (∀ (s : State) (x : NumVal), s.command.operands = [x] → s.command.overlaps = false →
    exec .svfSetSr s = .next { s with svf := { s.svf with
      sr := .val x
      f := match s.svf.cutoff with
        | .val cutoff => .val (Config.num.mul Config.num.two
            (Config.num.sin (Config.num.div (Config.num.mul Config.num.pi cutoff) x)))
        | .unset => .unset } } ∧
    exec .svfSetCutoff s = .next { s with svf := { s.svf with
      cutoff := .val x
      f := match s.svf.sr with
        | .val sr => .val (Config.num.mul Config.num.two
            (Config.num.sin (Config.num.div (Config.num.mul Config.num.pi x) sr)))
        | .unset => .unset } }) ∧
  (∀ (s : State) (kind : Arg), s.command.operands = [] → s.command.overlaps = false →
    exec (.svfSetType kind) s = .next { s with svf := { s.svf with kind := kind } })

/-- R160, R161: the resonance is clamped from below at 0 and then from above at `RES_MAX`, and `SVF.q` is 1 minus it. -/
def Obligations.SvfSetResClampsTheResonance : Prop :=
  ∀ (s : State) (x : NumVal), s.command.operands = [x] → s.command.overlaps = false →
    ∃ r, exec .svfSetRes s = .next { s with svf := { s.svf with
        res := .val r
        q := .val (Config.num.sub Config.num.one r) } } ∧
      r = (let r₀ := if Config.num.lt x Config.num.zero then Config.num.zero else x
           if Config.num.gt r₀ Config.num.resMax then Config.num.resMax else r₀)

/-- R164, R165, R163, R167: `SVF_PROC` runs the recurrence on channel `ch`, returns the selected tap, and changes
nothing but that channel's two integrator registers. -/
def Obligations.SvfProcRunsTheRecurrence : Prop :=
  ∀ (s : State) (ch : Arg) (x f q sr cutoff : NumVal) (h : ch.toNat < Config.svfNch),
    s.command.operands = [x] → s.command.overlaps = false →
    s.svf.f = .val f → s.svf.q = .val q → s.svf.sr = .val sr → s.svf.cutoff = .val cutoff →
    Config.num.gt sr Config.num.zero = true → Config.num.gt cutoff Config.num.zero = true →
    let low := Config.num.add s.svf.low[ch.toNat] (Config.num.mul f s.svf.band[ch.toNat])
    let high := Config.num.sub (Config.num.sub x low) (Config.num.mul q s.svf.band[ch.toNat])
    let band := Config.num.add (Config.num.mul f high) s.svf.band[ch.toNat]
    exec (.svfProc ch) s = .next
      (({ s with svf := { s.svf with
          band := s.svf.band.set ch.toNat band
          low := s.svf.low.set ch.toNat low } } : State).reply
        (.num (if s.svf.kind = 1 then high else if s.svf.kind = 2 then band else low)))

/-- R164, R170: a channel out of range is refused, then an unset coefficient, then a sample rate and then a cutoff that
is not positive. -/
def Obligations.SvfProcRefusesUnsetAndNotPositive : Prop :=
  ∀ (s : State) (ch : Arg) (x : NumVal), s.command.operands = [x] → s.command.overlaps = false →
    (Config.svfNch ≤ ch.toNat → exec (.svfProc ch) s = .refused .reserved) ∧
    (ch.toNat < Config.svfNch → s.svf.f = .unset ∨ s.svf.q = .unset → exec (.svfProc ch) s = .refused .unset) ∧
    (∀ f q sr cutoff, ch.toNat < Config.svfNch → s.svf.f = .val f → s.svf.q = .val q → s.svf.sr = .val sr →
      s.svf.cutoff = .val cutoff →
      (Config.num.gt sr Config.num.zero = false → exec (.svfProc ch) s = .refused .badSampleRate) ∧
      (Config.num.gt sr Config.num.zero = true → Config.num.gt cutoff Config.num.zero = false →
        exec (.svfProc ch) s = .refused .badCutoff))

/-- R38, R161 in `REAL`: whatever the operand, the stored resonance is in `[0, 0.99]` and `SVF.q` in `[0.01, 1]`. -/
def Obligations.RealResonanceIsBelowOne : Prop :=
  ∀ (nch : Nat) (v : Svf ℝ nch) (x : ℝ), ∃ r, svfSetRes realNum x v = { v with res := .val r, q := .val (1 - r) } ∧
    0 ≤ r ∧ r ≤ 99 / 100 ∧ 1 / 100 ≤ 1 - r ∧ 1 - r ≤ 1

/-- R169 in `REAL`: at rest, zero input gives exactly zero on every tap and leaves the filter as it is. -/
def Obligations.RealFilterAtRestStaysAtRest : Prop :=
  ∀ (nch : Nat) (v v' : Svf ℝ nch) (ch : Nat) (h : ch < nch) (y : ℝ), v.band[ch] = 0 → v.low[ch] = 0 →
    svfProc realNum ch 0 v = .next (v', y) → y = 0 ∧ v' = v

/-- R168 in `REAL`: one call is linear in the state and the input: it takes `(low, band)` to
`(low + f·band, −f·low + (1 − f² − f·q)·band + f·x)` of its channel. -/
def Obligations.RealFilterCallIsLinear : Prop :=
  ∀ (nch : Nat) (v v' : Svf ℝ nch) (ch : Nat) (h : ch < nch) (x y f q : ℝ), v.f = .val f → v.q = .val q →
    svfProc realNum ch x v = .next (v', y) →
    v'.low[ch] = v.low[ch] + f * v.band[ch] ∧
    v'.band[ch] = -f * v.low[ch] + (1 - f ^ 2 - f * q) * v.band[ch] + f * x

/-! ### SCOPE and memory ordering (spec/43_scope_buffer.md, spec/20_memory.md) -/

/-- R176, R180: the first event of `SCOPE_WRITE` reads the cursor; the samples are still to be stored and nothing else
changes. The operation in progress is the model's own record (log entry 6). -/
def Obligations.ScopeWriteBeginsAtTheCursor : Prop :=
  ∀ (s : State) (count : Arg), s.command.operands.length = count.toNat → s.command.agent = .producer →
    exec (.scopeWrite count) s =
      .next { s with writing := some { slot := s.scope.cursor, rest := s.command.operands } }

/-- R69, R177, R178: a `MemWrite` of the producer's stores one sample into its slot and moves the private index one
slot on; the `StoreRelease` stores the index reached into the cursor and ends the operation. Every other slot, every
register, and until the publication the cursor, are unchanged. Schedule and operation in progress are the model's own
record (log entry 6), and that the producer hangs in no `OSC_NEXT` is a premise (log entry 21). -/
def Obligations.WriteEventsStoreAndPublish : Prop :=
  ∀ (s : State) (later : List Agent) (slot : Nat) (rest : List NumVal), s.schedule = .producer :: later →
    s.hanging ≠ some .producer → s.writing = some { slot := slot, rest := rest } →
    ∃ t, step s = .next t ∧ t.osc = s.osc ∧ t.env = s.env ∧ t.svf = s.svf ∧ t.snapping = s.snapping ∧
      t.hanging = s.hanging ∧ t.producer = s.producer ∧ t.consumer = s.consumer ∧ t.draws = s.draws ∧
      t.scope.rcur = s.scope.rcur ∧
      (∀ x xs, rest = x :: xs →
        t.scope.mem.read Config.num.zero slot = x ∧
        (∀ a, a ≠ slot → t.scope.mem.read Config.num.zero a = s.scope.mem.read Config.num.zero a) ∧
        t.scope.cursor = s.scope.cursor ∧
        t.writing = some { slot := (slot + 1) % Config.scopeCap, rest := xs }) ∧
      (rest = [] → t.scope.mem = s.scope.mem ∧ t.scope.cursor = slot ∧ t.writing = none)

/-- R176, R177, R180, R235: `SCOPE_WRITE` of `n` samples completes in `n + 2` steps of the producer. Sample `k` is in
slot `(c + k) mod SCOPE_CAP` unless a later sample of the operation took that slot, every slot no sample went to is
unchanged, the cursor is `(c + n) mod SCOPE_CAP`, and no other register of the block, no result and no operation of the
consumer's has changed. The schedule is the model's own, and so is the record of events, which grows by the operation's
events (log entries 5, 6); the producer hangs in no `OSC_NEXT` (log entry 21). -/
def Obligations.ScopeWriteCompletesInItsSteps : Prop :=
  ∀ (s : State) (c : Command NumVal) (rest : List (Command NumVal)) (later : List Agent),
    c.operands.length < 2 ^ 24 → c.word = encode (.scopeWrite (BitVec.ofNat 24 c.operands.length)) →
    s.hanging ≠ some .producer → s.writing = none → s.producer.pending = c :: rest → s.scope.cursor < Config.scopeCap →
    s.schedule = List.replicate (c.operands.length + 2) .producer ++ later →
    ∃ t, stepN (c.operands.length + 2) s = .next t ∧
      (∀ (k : Nat) (hk : k < c.operands.length),
        (∀ j, k < j → j < c.operands.length →
          (s.scope.cursor + j) % Config.scopeCap ≠ (s.scope.cursor + k) % Config.scopeCap) →
        t.scope.mem.read Config.num.zero ((s.scope.cursor + k) % Config.scopeCap) = c.operands[k]) ∧
      (∀ a, (∀ k, k < c.operands.length → (s.scope.cursor + k) % Config.scopeCap ≠ a) →
        t.scope.mem.read Config.num.zero a = s.scope.mem.read Config.num.zero a) ∧
      t.scope.cursor = (s.scope.cursor + c.operands.length) % Config.scopeCap ∧
      t.scope.rcur = s.scope.rcur ∧ t.writing = none ∧ t.producer = { s.producer with pending := rest } ∧
      t.consumer = s.consumer ∧ t.snapping = s.snapping ∧ t.schedule = later ∧
      t.osc = s.osc ∧ t.env = s.env ∧ t.svf = s.svf ∧ t.draws = s.draws ∧ t.hanging = s.hanging

/-- R185, R64: once a `SCOPE_WRITE` of at least `n ≤ SCOPE_CAP` samples has run, the `n` slots that end just before
the cursor hold the last `n` of them, in order, however often the write wrapped. The schedule is the model's own (log
entry 6); the producer hangs in no `OSC_NEXT` (log entry 21). -/
def Obligations.WindowHoldsTheLastSamplesWritten : Prop :=
  ∀ (s : State) (c : Command NumVal) (rest : List (Command NumVal)) (later : List Agent) (n k : Nat),
    c.operands.length < 2 ^ 24 → c.word = encode (.scopeWrite (BitVec.ofNat 24 c.operands.length)) →
    s.hanging ≠ some .producer → s.writing = none → s.producer.pending = c :: rest → s.scope.cursor < Config.scopeCap →
    s.schedule = List.replicate (c.operands.length + 2) .producer ++ later →
    n ≤ Config.scopeCap → n ≤ c.operands.length → k < n →
    ∃ t, stepN (c.operands.length + 2) s = .next t ∧
      some (t.scope.mem.read Config.num.zero ((t.scope.cursor + Config.scopeCap - n + k) % Config.scopeCap)) =
        c.operands[c.operands.length - n + k]?

/-- R67, R181, R182: the first event of `SCOPE_SNAP` is an acquire load of the cursor. The next free choice says which
publication it reads from: any there is, or where the command in execution has a bound the latest or one before it, past no
more publications than that. It sets out at `(c + SCOPE_CAP − n) mod SCOPE_CAP` for `n` reads, `c` the cursor loaded; the
memory, the cursors and every register are unchanged. The record of the observed publication and the choice of it are the
model's own (log entries 4, 5, 6), and so is the bound (log entries 7, 20). -/
def Obligations.ScopeSnapBeginsBeforeTheCursor : Prop :=
  ∀ (s : State) (count : Arg), s.command.operands = [] → s.command.agent = .consumer →
    count.toNat ≤ Config.scopeCap →
    ∃ t, exec (.scopeSnap count) s = .next t ∧
      t.scope = s.scope.loadAcquire Config.num.zero
        (publications s.scope.trail.later -
          Config.draw s.draws %
            ((s.command.missable.map (min (publications s.scope.trail.later))).getD (publications s.scope.trail.later) + 1)) ∧
      t.draws = s.draws + 1 ∧
      (count = 0 → t.snapping = none) ∧
      (∀ n, count.toNat = n + 1 → t.snapping =
        some { slot := (t.scope.trail.baseCursor + Config.scopeCap - (n + 1)) % Config.scopeCap, after := n }) ∧
      t.scope.mem = s.scope.mem ∧ t.scope.cursor = s.scope.cursor ∧ t.scope.rcur = s.scope.rcur ∧
      t.writing = s.writing ∧ t.hanging = s.hanging ∧ t.osc = s.osc ∧ t.env = s.env ∧ t.svf = s.svf ∧
      t.producer = s.producer ∧ t.consumer = s.consumer ∧ t.command = s.command ∧ t.schedule = s.schedule

/-- R67, R70, R73, R181, R182, R184, R185, R188, R227, at any parameters; `n` is a snapshot's count. (1) Run by the
consumer alone with no write in progress, a snapshot completes in `n + 1` steps and returns exactly the `n` slots of the
memory before the cursor, oldest first; it has then observed all there is, and the block is as before. (2) Two in a row
return the same. (3) With any steps of the producer's in between: if the producer is quiescent until the snapshot ends, it
misses nothing at its load and returns the window of the memory and the cursor as they stood then. Else it may miss the
events after any publication (R67), but no more publications than its bound, and where that is 0 and no write is in
progress nothing; if what it misses and what is performed from the load on are at most `SCOPE_CAP − n` writes, it returns
exactly the window of the publication it loaded. (4) Whatever the producer does in between, a snapshot completes with the
consumer's `n + 1` steps, with `n` results, unless an operation of the producer's is refused first; an `OSC_NEXT` of the
producer's that never ends is no such exception (log entry 21). The record of observed events, the choice and the schedule
are the model's own (log entries 4, 5, 6), that a quiescent load reads from the latest publication is its reading and that a
command may have a bound its choice (log entries 7, 20), and a refused operation ends the run, of both agents, as the model
reads R198 (log entry 16). -/
def Obligations.QuiescentSnapshotIsExact : Prop :=
  (∀ (α : Type) [DecidableEq α] (P : Params α) (s : Block.State α P.svfNch) (c : Command α) (rest : List (Command α))
    (later : List Agent) (count : Arg),
    c.word = encode (.scopeSnap count) → c.operands = [] → count.toNat ≤ P.scopeCap → Inv P s → s.writing = none →
    s.snapping = none → s.hanging ≠ some .consumer → s.consumer.pending = c :: rest →
    s.schedule = List.replicate (count.toNat + 1) .consumer ++ later →
    ∃ t, repeated (Block.stepAt P) (count.toNat + 1) s = .next t ∧
      t.consumer.results = s.consumer.results ++ (List.range count.toNat).map (fun k =>
        .num (s.scope.mem.read P.num.zero ((s.scope.cursor + P.scopeCap - count.toNat + k) % P.scopeCap))) ∧
      t.consumer.pending = rest ∧ t.snapping = none ∧ t.scope.mem = s.scope.mem ∧ t.scope.cursor = s.scope.cursor ∧
      t.scope.rcur = s.scope.rcur ∧
      t.scope.trail = { base := s.scope.mem, baseCursor := s.scope.cursor, later := [] } ∧
      t.osc = s.osc ∧ t.env = s.env ∧ t.svf = s.svf ∧ t.producer = s.producer ∧ t.writing = s.writing ∧
      t.hanging = s.hanging ∧ t.schedule = later) ∧
  (∀ (α : Type) [DecidableEq α] (P : Params α) (s : Block.State α P.svfNch) (c c' : Command α)
    (rest : List (Command α)) (later : List Agent) (count : Arg),
    c.word = encode (.scopeSnap count) → c'.word = encode (.scopeSnap count) → c.operands = [] → c'.operands = [] →
    count.toNat ≤ P.scopeCap → Inv P s → s.writing = none →
    s.snapping = none → s.hanging ≠ some .consumer → s.consumer.pending = c :: c' :: rest →
    s.schedule = List.replicate (2 * (count.toNat + 1)) .consumer ++ later →
    ∃ (t : Block.State α P.svfNch) (values : List α), repeated (Block.stepAt P) (2 * (count.toNat + 1)) s = .next t ∧
      values.length = count.toNat ∧
      t.consumer.results = s.consumer.results ++ values.map .num ++ values.map .num ∧
      t.consumer.pending = rest ∧ t.scope.mem = s.scope.mem ∧ t.scope.cursor = s.scope.cursor ∧
      t.scope.rcur = s.scope.rcur) ∧
  (∀ (α : Type) [DecidableEq α] (P : Params α) (s t : Block.State α P.svfNch) (c : Command α)
    (rest : List (Command α)) (later : List Agent) (count : Arg) (k : Nat),
    c.word = encode (.scopeSnap count) → c.operands = [] → count.toNat ≤ P.scopeCap → Inv P s →
    s.snapping = none → s.hanging ≠ some .consumer → s.consumer.pending = c :: rest →
    s.schedule = .consumer :: later → (later.take k).count .consumer = count.toNat →
    repeated (Block.stepAt P) (k + 1) s = .next t →
    ∃ before missed performed : List (ScopeEvent α), s.scope.trail.later = before ++ missed ∧
      (∀ bound, c.missable = some bound → publications missed ≤ bound) ∧
      (c.missable = some 0 → s.writing = none → missed = []) ∧
      (missed = [] → t.scope.trail.base = s.scope.mem ∧ t.scope.trail.baseCursor = s.scope.cursor) ∧
      t.scope.trail.base = replay P.num.zero s.scope.trail.base before ∧
      t.scope.trail.baseCursor = lastCursor s.scope.trail.baseCursor before ∧
      t.scope.trail.later = missed ++ performed ∧ t.scope.mem = replay P.num.zero s.scope.mem performed ∧
      t.scope.cursor = lastCursor s.scope.cursor performed ∧
      (writesIn t.scope.trail.later ≤ P.scopeCap - count.toNat →
        t.consumer.results = s.consumer.results ++ (List.range count.toNat).map (fun k =>
          .num (t.scope.trail.base.read P.num.zero
            ((t.scope.trail.baseCursor + P.scopeCap - count.toNat + k) % P.scopeCap)))) ∧
      (Block.State.quiescentFor { s with schedule := later } count.toNat = true →
        missed = [] ∧ t.consumer.results = s.consumer.results ++ (List.range count.toNat).map (fun k =>
          .num (s.scope.mem.read P.num.zero ((s.scope.cursor + P.scopeCap - count.toNat + k) % P.scopeCap))))) ∧
  (∀ (α : Type) [DecidableEq α] (P : Params α) (s : Block.State α P.svfNch) (c : Command α) (rest : List (Command α))
    (count : Arg) (k : Nat),
    c.word = encode (.scopeSnap count) → c.operands = [] → count.toNat ≤ P.scopeCap → s.snapping = none →
    s.hanging ≠ some .consumer → s.consumer.pending = c :: rest →
    (s.schedule.take k).count .consumer = count.toNat + 1 →
    (∃ j u r, j < k ∧ repeated (Block.stepAt P) j s = .next u ∧ u.schedule.head? = some .producer ∧
      Block.stepAt P u = .refused r) ∨
    ∃ (t : Block.State α P.svfNch) (values : List α), repeated (Block.stepAt P) k s = .next t ∧
      t.consumer.results = s.consumer.results ++ values.map .num ∧ values.length = count.toNat ∧
      t.consumer.pending = rest ∧ t.snapping = none)

/-- R68, R184: a read of the consumer's returns the slot as it stood at the observed publication or a sample written to it
since, and every one of these is a possible answer. A step of the consumer inside a snapshot is one such read of its next
slot, with the next free choice: it always completes, returns that sample, moves on one slot, and changes no register. The
record of events, the choice and the operation in progress are the model's own (log entries 4, 5, 6), and that the consumer
hangs in no `OSC_NEXT` is a premise (log entry 21). -/
def Obligations.ReadReturnsAnyCandidate : Prop :=
  (∀ (α : Type) [DecidableEq α] (d : α) (sc : Scope α) (slot : Nat) (x : α),
    (∃ pick, sc.memRead d pick slot = x) ↔
      x = sc.trail.base.read d slot ∨ ScopeEvent.write slot x ∈ sc.trail.later) ∧
  (∀ (s : State) (later : List Agent) (p : Snapping), s.schedule = .consumer :: later → s.hanging ≠ some .consumer →
    s.snapping = some p →
    ∃ t v, step s = .next t ∧ t.consumer.results = s.consumer.results ++ [.num v] ∧
      v = s.scope.memRead Config.num.zero (Config.draw s.draws) p.slot ∧
      (v = s.scope.trail.base.read Config.num.zero p.slot ∨ ScopeEvent.write p.slot v ∈ s.scope.trail.later) ∧
      t.draws = s.draws + 1 ∧ (p.after = 0 → t.snapping = none) ∧
      (∀ n, p.after = n + 1 → t.snapping = some { slot := (p.slot + 1) % Config.scopeCap, after := n }) ∧
      t.scope = s.scope ∧ t.osc = s.osc ∧ t.env = s.env ∧ t.svf = s.svf ∧ t.writing = s.writing ∧
      t.hanging = s.hanging)

/-- R66, R67: an acquire load reads from the publication last observed or from any later one; it returns that
publication's cursor, and every event up to it is part of what the consumer surely sees from then on. The record of
events and the choice of a publication are the model's own (log entries 4, 5). -/
def Obligations.AcquireLoadSeesAllBeforeItsPublication : Prop :=
  ∀ (α : Type) [DecidableEq α] (d : α) (sc : Scope α) (pick : Nat),
    ∃ before : List (ScopeEvent α), sc.trail.later = before ++ (sc.loadAcquire d pick).trail.later ∧
      publications before = pick % (publications sc.trail.later + 1) ∧
      (before = [] ∨ ∃ (evs : List (ScopeEvent α)) (cursor : Nat), before = evs ++ [.publish cursor]) ∧
      (sc.loadAcquire d pick).trail.base = replay d sc.trail.base before ∧
      (sc.loadAcquire d pick).trail.baseCursor = lastCursor sc.trail.baseCursor before

/-- R67, R66 as a rule of every step: what the consumer has observed is only ever extended, by a prefix of the
producer's events since, in their order; it never goes back. The record of events is the model's own (log entry 5). -/
def Obligations.ObservationNeverGoesBack : Prop :=
  ∀ s t : State, step s = .next t →
    ∃ before performed : List (ScopeEvent NumVal), s.scope.trail.later ++ performed = before ++ t.scope.trail.later ∧
      t.scope.trail.base = replay Config.num.zero s.scope.trail.base before ∧
      t.scope.trail.baseCursor = lastCursor s.scope.trail.baseCursor before ∧
      t.scope.mem = replay Config.num.zero s.scope.mem performed ∧
      t.scope.cursor = lastCursor s.scope.cursor performed

/-- R70: while the samples written since the observed publication number at most `SCOPE_CAP − n`, every read of a
snapshot of `n` samples has one possible answer: what the slot held at that publication. The record of events is the
model's own (log entry 5). -/
def Obligations.SnapshotIsExactWhileWritesStayOut : Prop :=
  ∀ (α : Type) [DecidableEq α] (d : α) (cap : Nat) (sc : Scope α) (n k pick : Nat),
    sc.trail.baseCursor < cap → inOrder cap sc.trail.baseCursor sc.trail.later → n ≤ cap → k < n →
    writesIn sc.trail.later ≤ cap - n →
    sc.memRead d pick ((snapStart cap sc.trail.baseCursor n + k) % cap) =
      sc.trail.base.read d ((snapStart cap sc.trail.baseCursor n + k) % cap)

/-- Message passing (R66; spec/95_test_vectors.md V51) for any capacity, content and cursor: a snapshot of one sample
racing the write and publication of `x` returns either the last sample of before, or `x`; with the new cursor never
the stale slot. The record of events and the free choices are the model's own (log entries 4, 5). -/
def Obligations.PublicationMakesTheSampleVisible : Prop :=
  ∀ (α : Type) [DecidableEq α] (d x : α) (cap : Nat) (sc : Scope α) (pick pick' : Nat),
    1 < cap → sc.cursor < cap → sc.trail.later = [] → sc.trail.baseCursor = sc.cursor → sc.trail.base = sc.mem →
    let written := (sc.memWrite d sc.cursor x).storeRelease (nextSlot cap sc.cursor)
    let loaded := written.loadAcquire d pick
    loaded.memRead d pick' (snapStart cap loaded.trail.baseCursor 1) =
      if pick % 2 = 0 then sc.mem.read d (snapStart cap sc.cursor 1) else x

/-- R187, R181: no step of the consumer writes the memory, either cursor, or the producer's operation in progress.
Schedule and operations in progress are the model's own record (log entry 6). -/
def Obligations.OnlyTheProducerWritesTheMemory : Prop :=
  ∀ (s t : State) (later : List Agent), s.schedule = .consumer :: later → step s = .next t →
    t.scope.mem = s.scope.mem ∧ t.scope.cursor = s.scope.cursor ∧ t.scope.rcur = s.scope.rcur ∧
    t.writing = s.writing ∧ t.producer = s.producer

/-- R207, R11: a run that has ended stays ended, and no step of it changes the block. Ports and schedule are the
model's own (log entry 6). -/
def Obligations.EndedRunStaysEnded : Prop :=
  ∀ s t : State, s.Ended → step s = .next t →
    t.Ended ∧ t.osc = s.osc ∧ t.env = s.env ∧ t.svf = s.svf ∧ t.scope = s.scope

/-! ### The parameters (spec/00_scope.md R8, R9) -/

/-- The model's choice (log entry 1): `exec` and `step` are the operations and the step of the block over any parameters,
taken at `Config.params`. R9: the units assume nothing of a number format but that a result depends on its operands: a map
of values that keeps the format's constants, functions and comparisons carries each calculation of each unit over to the
other format. This second part pins no value of a calculation, only that it depends on the format in no other way. -/
def Obligations.UnitsFollowAnyFormatMap : Prop :=
  (∀ s : State, (∀ i, exec i s = s.perform Config.params i) ∧ step s = Block.stepAt Config.params s) ∧
  (∀ (α β : Type) (N : NumFormat α) (M : NumFormat β) (g : α → β), FormatMap N M g →
    (∀ o : Osc α, oscNext M (o.map g) = mapNext (Option.map fun r => (r.1.map g, g r.2)) (oscNext N o)) ∧
    (∀ e : Env α, envNext M (e.map g) = mapNext (fun e => e.map g) (envNext N e)) ∧
    (∀ (eps a d u r : α) (e : Env α),
      envSetParams M (g eps) (g a) (g d) (g u) (g r) (e.map g) = (envSetParams N eps a d u r e).map g) ∧
    (∀ (k : Stage) (e : Env α), envEnter M k (e.map g) = (envEnter N k e).map g) ∧
    (∀ (nch : Nat) (x : α) (v : Svf α nch),
      svfSetSr M (g x) (v.map g) = (svfSetSr N x v).map g ∧
      svfSetCutoff M (g x) (v.map g) = (svfSetCutoff N x v).map g ∧
      svfSetRes M (g x) (v.map g) = (svfSetRes N x v).map g) ∧
    (∀ (nch ch : Nat) (x : α) (v : Svf α nch),
      svfProc M ch (g x) (v.map g) = mapNext (fun r => (r.1.map g, g r.2)) (svfProc N ch x v)))
end

