-- ==== Sys2Proof/Laws/Config.lean ====
section
/-! SUPPORT. What is known of the parameters: of any, by R8, and of the host's machine (log entry 2). -/

namespace Sys2Proof

section

variable {α : Type} (P : Params α)

theorem Params.svfNch_pos : 0 < P.svfNch := Nat.succ_pos _

/-- `SVF_NCH` is 1 or 2 (R8). -/
theorem Params.svfNch_le_two : P.svfNch ≤ 2 := by
  have := P.svfExtraChannels.isLt
  unfold Params.svfNch
  omega

/-- `SCOPE_CAP` is positive (R8). -/
theorem Params.scopeCap_pos : 0 < P.scopeCap := Nat.succ_pos _

end

theorem Config.ordinary : Config.params.Ordinary := Config.chosen.property

theorem Config.zero_not_positive : Config.num.gt Config.num.zero Config.num.zero = false :=
  Config.ordinary.zero_not_positive

theorem Config.one_positive : Config.num.gt Config.num.one Config.num.zero = true := Config.ordinary.one_positive

theorem Config.two_positive : Config.num.gt Config.num.two Config.num.zero = true := Config.ordinary.two_positive

theorem Config.half_turn_below_turn :
    Config.num.ge (Config.num.add Config.num.zero
      (Config.num.div (Config.num.mul Config.num.twoPi Config.num.one) Config.num.two)) Config.num.twoPi = false :=
  Config.ordinary.half_turn_below_turn

theorem Config.svfNch_pos : 0 < Config.svfNch := Params.svfNch_pos _

theorem Config.svfNch_le_two : Config.svfNch ≤ 2 := Params.svfNch_le_two _

theorem Config.scopeCap_pos : 0 < Config.scopeCap := Params.scopeCap_pos _

end Sys2Proof
end

