-- ==== Sys2Proof/Laws/Decode.lean ====
section
/-! SUPPORT. The fields of a command word as numbers, and what a completed decoding says (spec/30_encoding.md R81, R87). -/

namespace Sys2Proof

theorem encode_toNat (i : Instr) : (encode i).toNat = i.opcode.toNat * 2 ^ 24 + i.arg.toNat := by
  have h := BitVec.toNat_append i.opcode i.arg
  show (i.opcode ++ i.arg).toNat = _
  rw [h, ← Nat.shiftLeft_add_eq_or_of_lt i.arg.isLt, Nat.shiftLeft_eq]

theorem unitField_toNat (cw : CommandWord) : (unitField cw).toNat = cw.toNat / 2 ^ 28 := by
  have := cw.isLt
  simp only [unitField, BitVec.extractLsb'_toNat, Nat.shiftRight_eq_div_pow]
  omega

theorem funcField_toNat (cw : CommandWord) : (funcField cw).toNat = cw.toNat / 2 ^ 24 % 16 := by
  simp only [funcField, BitVec.extractLsb'_toNat, Nat.shiftRight_eq_div_pow]

theorem argField_toNat (cw : CommandWord) : (argField cw).toNat = cw.toNat % 2 ^ 24 := by
  simp only [argField, BitVec.extractLsb'_toNat, Nat.shiftRight_eq_div_pow]
  omega

/-- The row that the fields select, and the immediate, are those of the decoded operation. -/
theorem decodeFields_eq_some {unit func : Nat} {arg : Arg} {i : Instr} (h : decodeFields unit func arg = some i) :
    i.opcode.toNat = 16 * unit + func ∧ i.arg = arg := by
  unfold decodeFields at h
  split at h <;> simp [argMustBeZero] at h <;>
    first
    | (obtain ⟨h0, h⟩ := h; subst h; subst h0; exact ⟨rfl, rfl⟩)
    | (subst h; exact ⟨rfl, rfl⟩)

end Sys2Proof
end

