-- ==== Sys2Proof/Laws/Ops.lean ====
section
/-! SUPPORT. What the checks before a meaning can do, said once. -/

namespace Sys2Proof.Machine

theorem mapNext_eq_next {σ τ : Type} {g : σ → τ} {r : Result σ} {t : τ} :
    mapNext g r = .next t ↔ ∃ s, r = .next s ∧ t = g s := by
  cases r <;> simp [mapNext, eq_comm]

@[simp] theorem mapNext_next {σ τ : Type} (g : σ → τ) (s : σ) : mapNext g (.next s) = .next (g s) := rfl

@[simp] theorem mapNext_refused {σ τ : Type} (g : σ → τ) (r : Refusal) : mapNext g (.refused r) = .refused r := rfl

@[simp] theorem mapNext_fault {σ τ : Type} (g : σ → τ) (r : Fault) : mapNext g (.fault r) = .fault r := rfl

namespace Block

variable {α : Type} {nch : Nat}

/-- A well-formed command that does not overlap goes on to its operation. -/
theorem State.onUnit_pass {s : State α nch} {n : Nat} {act : Result (State α nch)}
    (hn : s.command.operands.length = n) (ho : s.command.overlaps = false) : s.onUnit n act = act := by
  simp [State.onUnit, hn, ho]

theorem State.onUnit_eq_next {s t : State α nch} {n : Nat} {act : Result (State α nch)} :
    s.onUnit n act = .next t ↔
      s.command.operands.length = n ∧ s.command.overlaps = false ∧ act = .next t := by
  unfold State.onUnit
  split
  · simp_all
  · split <;> simp_all

/-- The same of an OSC command, with no `OSC_NEXT` hung. -/
theorem State.onOsc_pass {s : State α nch} {n : Nat} {act : Result (State α nch)} (hn : s.command.operands.length = n)
    (ho : s.command.overlaps = false) (hh : s.hanging = none) : s.onOsc n act = act := by
  simp [State.onOsc, State.onUnit_pass hn ho, hh]

theorem State.onOsc_eq_next {s t : State α nch} {n : Nat} {act : Result (State α nch)} :
    s.onOsc n act = .next t ↔
      s.command.operands.length = n ∧ s.command.overlaps = false ∧ s.hanging = none ∧ act = .next t := by
  rw [State.onOsc, State.onUnit_eq_next]
  cases s.hanging <;> simp

/-- A well-formed SCOPE command of the right agent goes on to its operation. -/
theorem State.onScope_pass {s : State α nch} {a : Agent} {n : Nat} {act : Result (State α nch)}
    (hn : s.command.operands.length = n) (ha : s.command.agent = a) : s.onScope a n act = act := by
  simp [State.onScope, hn, ha]

theorem State.onScope_eq_next {s t : State α nch} {a : Agent} {n : Nat} {act : Result (State α nch)} :
    s.onScope a n act = .next t ↔
      s.command.operands.length = n ∧ s.command.agent = a ∧ act = .next t := by
  unfold State.onScope
  split
  · simp_all
  · split <;> simp_all

end Block

end Sys2Proof.Machine
end

