-- ==== Sys2Proof/Laws/State.lean ====
section
/-! SUPPORT. One lemma for each field of the state and each named update of it. -/

namespace Sys2Proof.Machine

namespace Block

variable {α : Type} {nch : Nat} (s : State α nch)

@[simp] theorem State.withOsc_osc (o : Osc α) : (s.withOsc o).osc = o := rfl
@[simp] theorem State.withOsc_env (o : Osc α) : (s.withOsc o).env = s.env := rfl
@[simp] theorem State.withOsc_svf (o : Osc α) : (s.withOsc o).svf = s.svf := rfl
@[simp] theorem State.withOsc_scope (o : Osc α) : (s.withOsc o).scope = s.scope := rfl
@[simp] theorem State.withOsc_writing (o : Osc α) : (s.withOsc o).writing = s.writing := rfl
@[simp] theorem State.withOsc_snapping (o : Osc α) : (s.withOsc o).snapping = s.snapping := rfl
@[simp] theorem State.withOsc_hanging (o : Osc α) : (s.withOsc o).hanging = s.hanging := rfl
@[simp] theorem State.withOsc_producer (o : Osc α) : (s.withOsc o).producer = s.producer := rfl
@[simp] theorem State.withOsc_consumer (o : Osc α) : (s.withOsc o).consumer = s.consumer := rfl
@[simp] theorem State.withOsc_schedule (o : Osc α) : (s.withOsc o).schedule = s.schedule := rfl
@[simp] theorem State.withOsc_command (o : Osc α) : (s.withOsc o).command = s.command := rfl
@[simp] theorem State.withOsc_draws (o : Osc α) : (s.withOsc o).draws = s.draws := rfl

@[simp] theorem State.withEnv_osc (e : Env α) : (s.withEnv e).osc = s.osc := rfl
@[simp] theorem State.withEnv_env (e : Env α) : (s.withEnv e).env = e := rfl
@[simp] theorem State.withEnv_svf (e : Env α) : (s.withEnv e).svf = s.svf := rfl
@[simp] theorem State.withEnv_scope (e : Env α) : (s.withEnv e).scope = s.scope := rfl
@[simp] theorem State.withEnv_writing (e : Env α) : (s.withEnv e).writing = s.writing := rfl
@[simp] theorem State.withEnv_snapping (e : Env α) : (s.withEnv e).snapping = s.snapping := rfl
@[simp] theorem State.withEnv_hanging (e : Env α) : (s.withEnv e).hanging = s.hanging := rfl
@[simp] theorem State.withEnv_producer (e : Env α) : (s.withEnv e).producer = s.producer := rfl
@[simp] theorem State.withEnv_consumer (e : Env α) : (s.withEnv e).consumer = s.consumer := rfl
@[simp] theorem State.withEnv_schedule (e : Env α) : (s.withEnv e).schedule = s.schedule := rfl
@[simp] theorem State.withEnv_command (e : Env α) : (s.withEnv e).command = s.command := rfl
@[simp] theorem State.withEnv_draws (e : Env α) : (s.withEnv e).draws = s.draws := rfl

@[simp] theorem State.withSvf_osc (v : Svf α nch) : (s.withSvf v).osc = s.osc := rfl
@[simp] theorem State.withSvf_env (v : Svf α nch) : (s.withSvf v).env = s.env := rfl
@[simp] theorem State.withSvf_svf (v : Svf α nch) : (s.withSvf v).svf = v := rfl
@[simp] theorem State.withSvf_scope (v : Svf α nch) : (s.withSvf v).scope = s.scope := rfl
@[simp] theorem State.withSvf_writing (v : Svf α nch) : (s.withSvf v).writing = s.writing := rfl
@[simp] theorem State.withSvf_snapping (v : Svf α nch) : (s.withSvf v).snapping = s.snapping := rfl
@[simp] theorem State.withSvf_hanging (v : Svf α nch) : (s.withSvf v).hanging = s.hanging := rfl
@[simp] theorem State.withSvf_producer (v : Svf α nch) : (s.withSvf v).producer = s.producer := rfl
@[simp] theorem State.withSvf_consumer (v : Svf α nch) : (s.withSvf v).consumer = s.consumer := rfl
@[simp] theorem State.withSvf_schedule (v : Svf α nch) : (s.withSvf v).schedule = s.schedule := rfl
@[simp] theorem State.withSvf_command (v : Svf α nch) : (s.withSvf v).command = s.command := rfl
@[simp] theorem State.withSvf_draws (v : Svf α nch) : (s.withSvf v).draws = s.draws := rfl

@[simp] theorem State.withPort_osc (a : Agent) (p : Port α) : (s.withPort a p).osc = s.osc := by
  cases a <;> rfl
@[simp] theorem State.withPort_env (a : Agent) (p : Port α) : (s.withPort a p).env = s.env := by
  cases a <;> rfl
@[simp] theorem State.withPort_svf (a : Agent) (p : Port α) : (s.withPort a p).svf = s.svf := by
  cases a <;> rfl
@[simp] theorem State.withPort_scope (a : Agent) (p : Port α) : (s.withPort a p).scope = s.scope := by
  cases a <;> rfl
@[simp] theorem State.withPort_writing (a : Agent) (p : Port α) : (s.withPort a p).writing = s.writing := by
  cases a <;> rfl
@[simp] theorem State.withPort_snapping (a : Agent) (p : Port α) : (s.withPort a p).snapping = s.snapping := by
  cases a <;> rfl
@[simp] theorem State.withPort_hanging (a : Agent) (p : Port α) : (s.withPort a p).hanging = s.hanging := by
  cases a <;> rfl
@[simp] theorem State.withPort_schedule (a : Agent) (p : Port α) : (s.withPort a p).schedule = s.schedule := by
  cases a <;> rfl
@[simp] theorem State.withPort_command (a : Agent) (p : Port α) : (s.withPort a p).command = s.command := by
  cases a <;> rfl
@[simp] theorem State.withPort_draws (a : Agent) (p : Port α) : (s.withPort a p).draws = s.draws := by
  cases a <;> rfl

@[simp] theorem State.port_producer : s.port .producer = s.producer := rfl

@[simp] theorem State.port_consumer : s.port .consumer = s.consumer := rfl

@[simp] theorem State.withPort_port (a : Agent) (p : Port α) : (s.withPort a p).port a = p := by
  cases a <;> rfl

@[simp] theorem State.withPort_port_other {a b : Agent} (p : Port α) (h : b ≠ a) :
    (s.withPort a p).port b = s.port b := by
  cases a <;> cases b <;> first | rfl | exact absurd rfl h

@[simp] theorem State.withPort_producer_producer (p : Port α) : (s.withPort .producer p).producer = p := rfl

@[simp] theorem State.withPort_producer_consumer (p : Port α) :
    (s.withPort .producer p).consumer = s.consumer := rfl

@[simp] theorem State.withPort_consumer_producer (p : Port α) :
    (s.withPort .consumer p).producer = s.producer := rfl

@[simp] theorem State.withPort_consumer_consumer (p : Port α) : (s.withPort .consumer p).consumer = p := rfl

@[simp] theorem State.replyTo_osc (a : Agent) (v : Reply α) : (s.replyTo a v).osc = s.osc := by
  cases a <;> rfl
@[simp] theorem State.replyTo_env (a : Agent) (v : Reply α) : (s.replyTo a v).env = s.env := by
  cases a <;> rfl
@[simp] theorem State.replyTo_svf (a : Agent) (v : Reply α) : (s.replyTo a v).svf = s.svf := by
  cases a <;> rfl
@[simp] theorem State.replyTo_scope (a : Agent) (v : Reply α) : (s.replyTo a v).scope = s.scope := by
  cases a <;> rfl
@[simp] theorem State.replyTo_writing (a : Agent) (v : Reply α) : (s.replyTo a v).writing = s.writing := by
  cases a <;> rfl
@[simp] theorem State.replyTo_snapping (a : Agent) (v : Reply α) : (s.replyTo a v).snapping = s.snapping := by
  cases a <;> rfl
@[simp] theorem State.replyTo_hanging (a : Agent) (v : Reply α) : (s.replyTo a v).hanging = s.hanging := by
  cases a <;> rfl
@[simp] theorem State.replyTo_schedule (a : Agent) (v : Reply α) : (s.replyTo a v).schedule = s.schedule := by
  cases a <;> rfl
@[simp] theorem State.replyTo_command (a : Agent) (v : Reply α) : (s.replyTo a v).command = s.command := by
  cases a <;> rfl
@[simp] theorem State.replyTo_draws (a : Agent) (v : Reply α) : (s.replyTo a v).draws = s.draws := by
  cases a <;> rfl

@[simp] theorem State.replyTo_results (a : Agent) (v : Reply α) :
    ((s.replyTo a v).port a).results = (s.port a).results ++ [v] := by
  cases a <;> rfl

@[simp] theorem State.replyTo_pending (a b : Agent) (v : Reply α) :
    ((s.replyTo a v).port b).pending = (s.port b).pending := by
  cases a <;> cases b <;> rfl

/-- A result goes to one agent and to no one else (R89). -/
theorem State.replyTo_port_other {a b : Agent} (v : Reply α) (h : b ≠ a) :
    (s.replyTo a v).port b = s.port b := by
  simp [State.replyTo, h]

@[simp] theorem State.reply_osc (v : Reply α) : (s.reply v).osc = s.osc := by
  simp [State.reply]
@[simp] theorem State.reply_env (v : Reply α) : (s.reply v).env = s.env := by
  simp [State.reply]
@[simp] theorem State.reply_svf (v : Reply α) : (s.reply v).svf = s.svf := by
  simp [State.reply]
@[simp] theorem State.reply_scope (v : Reply α) : (s.reply v).scope = s.scope := by
  simp [State.reply]
@[simp] theorem State.reply_writing (v : Reply α) : (s.reply v).writing = s.writing := by
  simp [State.reply]
@[simp] theorem State.reply_snapping (v : Reply α) : (s.reply v).snapping = s.snapping := by
  simp [State.reply]
@[simp] theorem State.reply_hanging (v : Reply α) : (s.reply v).hanging = s.hanging := by
  simp [State.reply]
@[simp] theorem State.reply_schedule (v : Reply α) : (s.reply v).schedule = s.schedule := by
  simp [State.reply]
@[simp] theorem State.reply_command (v : Reply α) : (s.reply v).command = s.command := by
  simp [State.reply]
@[simp] theorem State.reply_draws (v : Reply α) : (s.reply v).draws = s.draws := by
  simp [State.reply]

@[simp] theorem State.present_osc (a : Agent) (c : Command α) (rest : List (Command α)) :
    (s.present a c rest).osc = s.osc := by
  cases a <;> rfl
@[simp] theorem State.present_env (a : Agent) (c : Command α) (rest : List (Command α)) :
    (s.present a c rest).env = s.env := by
  cases a <;> rfl
@[simp] theorem State.present_svf (a : Agent) (c : Command α) (rest : List (Command α)) :
    (s.present a c rest).svf = s.svf := by
  cases a <;> rfl
@[simp] theorem State.present_scope (a : Agent) (c : Command α) (rest : List (Command α)) :
    (s.present a c rest).scope = s.scope := by
  cases a <;> rfl
@[simp] theorem State.present_writing (a : Agent) (c : Command α) (rest : List (Command α)) :
    (s.present a c rest).writing = s.writing := by
  cases a <;> rfl
@[simp] theorem State.present_snapping (a : Agent) (c : Command α) (rest : List (Command α)) :
    (s.present a c rest).snapping = s.snapping := by
  cases a <;> rfl
@[simp] theorem State.present_hanging (a : Agent) (c : Command α) (rest : List (Command α)) :
    (s.present a c rest).hanging = s.hanging := by
  cases a <;> rfl
@[simp] theorem State.present_schedule (a : Agent) (c : Command α) (rest : List (Command α)) :
    (s.present a c rest).schedule = s.schedule := by
  cases a <;> rfl
@[simp] theorem State.present_draws (a : Agent) (c : Command α) (rest : List (Command α)) :
    (s.present a c rest).draws = s.draws := by
  cases a <;> rfl
@[simp] theorem State.present_command (a : Agent) (c : Command α) (rest : List (Command α)) :
    (s.present a c rest).command = { agent := a, operands := c.operands, overlaps := c.overlaps, missable := c.missable } := rfl

variable (P : Params α)

@[simp] theorem State.advanceSnap_osc (p : Snapping) : (s.advanceSnap P p).osc = s.osc := rfl
@[simp] theorem State.advanceSnap_env (p : Snapping) : (s.advanceSnap P p).env = s.env := rfl
@[simp] theorem State.advanceSnap_svf (p : Snapping) : (s.advanceSnap P p).svf = s.svf := rfl
@[simp] theorem State.advanceSnap_scope (p : Snapping) : (s.advanceSnap P p).scope = s.scope := rfl
@[simp] theorem State.advanceSnap_writing (p : Snapping) : (s.advanceSnap P p).writing = s.writing := rfl
@[simp] theorem State.advanceSnap_producer (p : Snapping) : (s.advanceSnap P p).producer = s.producer := rfl
@[simp] theorem State.advanceSnap_schedule (p : Snapping) : (s.advanceSnap P p).schedule = s.schedule := rfl
@[simp] theorem State.advanceSnap_command (p : Snapping) : (s.advanceSnap P p).command = s.command := rfl
@[simp] theorem State.advanceSnap_hanging (p : Snapping) : (s.advanceSnap P p).hanging = s.hanging := rfl
@[simp] theorem State.advanceSnap_snapping (p : Snapping) :
    (s.advanceSnap P p).snapping = moreReads (nextSlot P.scopeCap p.slot) p.after := rfl
@[simp] theorem State.advanceSnap_draws (p : Snapping) : (s.advanceSnap P p).draws = s.draws + 1 := rfl

variable [DecidableEq α]

@[simp] theorem State.advanceWrite_osc (w : Writing α) : (s.advanceWrite P w).osc = s.osc := by
  unfold State.advanceWrite; split <;> rfl
@[simp] theorem State.advanceWrite_env (w : Writing α) : (s.advanceWrite P w).env = s.env := by
  unfold State.advanceWrite; split <;> rfl
@[simp] theorem State.advanceWrite_svf (w : Writing α) : (s.advanceWrite P w).svf = s.svf := by
  unfold State.advanceWrite; split <;> rfl
@[simp] theorem State.advanceWrite_snapping (w : Writing α) : (s.advanceWrite P w).snapping = s.snapping := by
  unfold State.advanceWrite; split <;> rfl
@[simp] theorem State.advanceWrite_hanging (w : Writing α) : (s.advanceWrite P w).hanging = s.hanging := by
  unfold State.advanceWrite; split <;> rfl
@[simp] theorem State.advanceWrite_producer (w : Writing α) : (s.advanceWrite P w).producer = s.producer := by
  unfold State.advanceWrite; split <;> rfl
@[simp] theorem State.advanceWrite_consumer (w : Writing α) : (s.advanceWrite P w).consumer = s.consumer := by
  unfold State.advanceWrite; split <;> rfl
@[simp] theorem State.advanceWrite_schedule (w : Writing α) : (s.advanceWrite P w).schedule = s.schedule := by
  unfold State.advanceWrite; split <;> rfl
@[simp] theorem State.advanceWrite_command (w : Writing α) : (s.advanceWrite P w).command = s.command := by
  unfold State.advanceWrite; split <;> rfl
@[simp] theorem State.advanceWrite_draws (w : Writing α) : (s.advanceWrite P w).draws = s.draws := by
  unfold State.advanceWrite; split <;> rfl

end Block

end Sys2Proof.Machine
end

