-- ==== Sys2Proof/Laws/Units.lean ====
section
/-! SUPPORT. What one call of each unit can do, said once. -/

namespace Sys2Proof.Machine

section

variable {α : Type} (N : NumFormat α)

theorem wrapPhase_below {p : α} (h : N.ge p N.twoPi = false) : wrapPhase N p = some p := by
  rw [wrapPhase]; simp [h]

theorem wrapPhase_above {p : α} (h : N.ge p N.twoPi = true) :
    wrapPhase N p = wrapPhase N (N.sub p N.twoPi) := by
  rw [wrapPhase]; simp [h]

/-- A phase the loop leaves is below `TWO_PI` (R122). -/
theorem wrapPhase_result {p q : α} (h : wrapPhase N p = some q) : N.ge q N.twoPi = false := by
  refine wrapPhase.partial_correctness N (fun _ q => N.ge q N.twoPi = false) ?_ p q h
  intro f ih p r hr
  split at hr
  · exact ih _ _ hr
  · simp_all

/-- The loop with a bound on its subtractions, for running it. -/
def wrapWithin (N : NumFormat α) : Nat → α → Option α
  | 0, _ => none
  | k + 1, p => if N.ge p N.twoPi then wrapWithin N k (N.sub p N.twoPi) else some p

theorem wrapPhase_of_wrapWithin {k : Nat} {p q : α} (h : wrapWithin N k p = some q) : wrapPhase N p = some q := by
  induction k generalizing p with
  | zero => simp [wrapWithin] at h
  | succ k ih =>
    simp only [wrapWithin] at h
    rw [wrapPhase]
    split at h
    · rename_i hp; simpa [hp] using ih h
    · rename_i hp; simpa [hp] using h

/-- `OSC_NEXT` with its registers set and positive (R114): it wraps, or its loop never ends. -/
theorem oscNext_eq_next {o : Osc α} {r : Option (Osc α × α)} :
    oscNext N o = .next r ↔
      ∃ freq sr, o.freq = .val freq ∧ o.sr = .val sr ∧ N.gt sr N.zero = true ∧ N.gt freq N.zero = true ∧
        r = (wrapPhase N (N.add o.phase (oscIncrement N freq sr))).map fun p =>
          ({ o with phase := p }, N.mul N.headroom (waveValue N o.wave o.phase (oscIncrement N freq sr))) := by
  constructor
  · intro h
    unfold oscNext at h
    split at h
    · rename_i freq sr hf hs
      split at h
      · simp at h
      · split at h
        · simp at h
        · rename_i h1 h2
          simp only [Host.Outcome.next.injEq] at h
          exact ⟨freq, sr, hf, hs, by simpa using h1, by simpa using h2, h.symm⟩
    · simp at h
  · rintro ⟨freq, sr, hf, hs, h1, h2, rfl⟩
    simp [oscNext, hf, hs, h1, h2]

/-- Everything a completed `OSC_NEXT` does to the oscillator (R114). -/
theorem oscNext_eq_some {o o' : Osc α} {out : α} :
    oscNext N o = .next (some (o', out)) ↔
      ∃ freq sr p, o.freq = .val freq ∧ o.sr = .val sr ∧ N.gt sr N.zero = true ∧ N.gt freq N.zero = true ∧
        wrapPhase N (N.add o.phase (oscIncrement N freq sr)) = some p ∧
        o' = { o with phase := p } ∧
        out = N.mul N.headroom (waveValue N o.wave o.phase (oscIncrement N freq sr)) := by
  rw [oscNext_eq_next]
  constructor
  · rintro ⟨freq, sr, hf, hs, h1, h2, h⟩
    cases hw : wrapPhase N (N.add o.phase (oscIncrement N freq sr)) with
    | none => simp [hw] at h
    | some p =>
      simp only [hw, Option.map_some, Option.some.injEq, Prod.mk.injEq] at h
      exact ⟨freq, sr, p, hf, hs, h1, h2, hw, h.1, h.2⟩
  · rintro ⟨freq, sr, p, hf, hs, h1, h2, hw, rfl, rfl⟩
    exact ⟨freq, sr, hf, hs, h1, h2, by simp [hw]⟩

/-- Everything a completed `ENV_NEXT` does to the envelope (R138). -/
theorem envNext_eq_next {e e' : Env α} (h : envNext N e = .next e') :
    (e.stage = .off ∧ e' = { e with level := N.zero }) ∨
    (∃ attack sr, e.stage = .attack ∧ e.attack = .val attack ∧ e.sr = .val sr ∧ N.gt sr N.zero = true ∧
      e' = attackStep N attack sr e) ∨
    (∃ decay sustain sr, e.stage = .decay ∧ e.decay = .val decay ∧ e.sustain = .val sustain ∧ e.sr = .val sr ∧
      N.gt sr N.zero = true ∧ e' = decayStep N decay sustain sr e) ∨
    (∃ sustain, e.stage = .sustain ∧ e.sustain = .val sustain ∧ e' = { e with level := sustain }) ∨
    (∃ release sustain sr, e.stage = .release ∧ e.release = .val release ∧ e.sustain = .val sustain ∧
      e.sr = .val sr ∧ N.gt sr N.zero = true ∧ e' = releaseStep N release sustain sr e) := by
  obtain ⟨stage, level, attack, decay, sustain, release, sr⟩ := e
  cases stage
  case off => left; simpa [envNext, eq_comm] using h
  case attack =>
    right; left
    cases attack <;> cases sr <;> simp only [envNext, reduceCtorEq] at h
    split at h <;> simp_all
  case decay =>
    right; right; left
    cases decay <;> cases sustain <;> cases sr <;> simp only [envNext, reduceCtorEq] at h
    split at h <;> simp_all
  case sustain =>
    right; right; right; left
    cases sustain <;> simp_all [envNext]
  case release =>
    right; right; right; right
    cases release <;> cases sustain <;> cases sr <;> simp only [envNext, reduceCtorEq] at h
    split at h <;> simp_all

/-- `ENV_NEXT` writes no register but the stage and the level (R22, R138). -/
theorem envNext_keeps_params {e e' : Env α} (h : envNext N e = .next e') :
    e'.attack = e.attack ∧ e'.decay = e.decay ∧ e'.sustain = e.sustain ∧ e'.release = e.release ∧ e'.sr = e.sr := by
  rcases envNext_eq_next N h with ⟨_, rfl⟩ | ⟨_, _, _, _, _, _, rfl⟩ | ⟨_, _, _, _, _, _, _, _, rfl⟩ |
    ⟨_, _, _, rfl⟩ | ⟨_, _, _, _, _, _, _, _, rfl⟩
  · exact ⟨rfl, rfl, rfl, rfl, rfl⟩
  · simp only [attackStep]; split <;> exact ⟨rfl, rfl, rfl, rfl, rfl⟩
  · simp only [decayStep]; split <;> exact ⟨rfl, rfl, rfl, rfl, rfl⟩
  · exact ⟨rfl, rfl, rfl, rfl, rfl⟩
  · simp only [releaseStep]; split <;> exact ⟨rfl, rfl, rfl, rfl, rfl⟩

/-- Everything a completed `SVF_PROC` does to the filter (R164). -/
theorem svfProc_eq_next {nch : Nat} {v v' : Svf α nch} {ch : Nat} {x y : α} :
    svfProc N ch x v = .next (v', y) ↔
      ∃ (h : ch < nch) (f q sr cutoff : α), v.f = .val f ∧ v.q = .val q ∧ v.sr = .val sr ∧ v.cutoff = .val cutoff ∧
        N.gt sr N.zero = true ∧ N.gt cutoff N.zero = true ∧
        v' = { v with
          band := v.band.set ch (svfTaps N f q x v.low[ch] v.band[ch]).band
          low := v.low.set ch (svfTaps N f q x v.low[ch] v.band[ch]).low } ∧
        y = selectTap v.kind (svfTaps N f q x v.low[ch] v.band[ch]) := by
  constructor
  · intro h
    unfold svfProc at h
    split at h
    · rename_i hch
      split at h
      · rename_i f q sr cutoff hf hq hs hc
        split at h
        · simp at h
        · split at h
          · simp at h
          · rename_i h1 h2
            simp only [Host.Outcome.next.injEq, Prod.mk.injEq] at h
            exact ⟨hch, f, q, sr, cutoff, hf, hq, hs, hc, by simpa using h1, by simpa using h2,
              h.1.symm, h.2.symm⟩
      · simp at h
    · simp at h
  · rintro ⟨hch, f, q, sr, cutoff, hf, hq, hs, hc, h1, h2, rfl, rfl⟩
    simp [svfProc, hch, hf, hq, hs, hc, h1, h2]

end

end Sys2Proof.Machine
end

