-- ==== Sys2Proof/Laws/Exec.lean ====
section
/-! SUPPORT. Everything an operation can do, said once for all sixteen: if an operation answers a next state,
then one of these cases holds. Provers cite this instead of unfolding the meanings. -/

namespace Sys2Proof.Machine

/-- The host's `exec` is the block's operation at the host's parameters. -/
theorem exec_eq_perform (i : Instr) (s : State) : exec i s = s.perform Config.params i := by cases i <;> rfl

namespace Block

variable {α : Type} {nch : Nat} [DecidableEq α] (P : Params α)

/-- What a completed operation says of the state `t` it leaves, operation by operation. -/
def Effect (s t : State α nch) : Instr → Prop
  | .oscSetSr => s.hanging = none ∧ t = s.withOsc { s.osc with sr := .val (s.operand P 0) }
  | .oscSetFreq => s.hanging = none ∧ t = s.withOsc { s.osc with freq := .val (s.operand P 0) }
  | .oscSetWave wave => s.hanging = none ∧ ∃ w, Wave.ofArg wave = some w ∧ t = s.withOsc { s.osc with wave := w }
  | .oscNext => s.hanging = none ∧
      ((∃ o out, oscNext P.num s.osc = .next (some (o, out)) ∧ t = (s.withOsc o).reply (.num out)) ∨
       (oscNext P.num s.osc = .next none ∧ t = { s with hanging := some s.command.agent }))
  | .envSetSr => t = s.withEnv { s.env with sr := .val (s.operand P 0) }
  | .envSetParams => t = s.withEnv
      (envSetParams P.num P.envEps (s.operand P 0) (s.operand P 1) (s.operand P 2) (s.operand P 3) s.env)
  | .envEnter stage => ∃ k, Stage.ofArg stage = some k ∧ t = s.withEnv (envEnter P.num k s.env)
  | .envNext => ∃ e, envNext P.num s.env = .next e ∧ t = (s.withEnv e).reply (.num e.level)
  | .envActive => t = s.reply (.bit s.env.active)
  | .svfSetSr => t = s.withSvf (svfSetSr P.num (s.operand P 0) s.svf)
  | .svfSetCutoff => t = s.withSvf (svfSetCutoff P.num (s.operand P 0) s.svf)
  | .svfSetRes => t = s.withSvf (svfSetRes P.num (s.operand P 0) s.svf)
  | .svfSetType kind => t = s.withSvf { s.svf with kind := kind }
  | .svfProc ch => ∃ v y, svfProc P.num ch.toNat (s.operand P 0) s.svf = .next (v, y) ∧
      t = (s.withSvf v).reply (.num y)
  | .scopeWrite _ => s.command.agent = .producer ∧
      t = { s with writing := some { slot := s.scope.cursor, rest := s.command.operands } }
  | .scopeSnap count => s.command.agent = .consumer ∧ count.toNat ≤ P.scopeCap ∧
      t = { s with
        scope := s.scope.loadAcquire P.num.zero (s.loadChoice P)
        snapping := moreReads (snapStart P.scopeCap
          (s.scope.loadAcquire P.num.zero (s.loadChoice P)).trail.baseCursor count.toNat) count.toNat
        draws := s.draws + 1 }

/-- Everything a completed operation does, and that its command had the operands it takes. -/
theorem perform_next {i : Instr} {s t : State α nch} (h : s.perform P i = .next t) :
    s.command.operands.length = i.operandCount ∧ Effect P s t i := by
  cases i
  case oscSetSr =>
    obtain ⟨hn, _, hh, h⟩ := State.onOsc_eq_next.1 h
    exact ⟨hn, hh, by simpa [eq_comm] using h⟩
  case oscSetFreq =>
    obtain ⟨hn, _, hh, h⟩ := State.onOsc_eq_next.1 h
    exact ⟨hn, hh, by simpa [eq_comm] using h⟩
  case oscSetWave wave =>
    obtain ⟨hn, _, hh, h⟩ := State.onOsc_eq_next.1 h
    refine ⟨hn, hh, ?_⟩
    split at h
    · rename_i w hw; exact ⟨w, hw, by simpa [eq_comm] using h⟩
    · simp at h
  case oscNext =>
    obtain ⟨hn, _, hh, h⟩ := State.onOsc_eq_next.1 h
    obtain ⟨r, ho, rfl⟩ := mapNext_eq_next.1 h
    refine ⟨hn, hh, ?_⟩
    match r, ho with
    | some (o, out), ho => exact .inl ⟨o, out, ho, rfl⟩
    | none, ho => exact .inr ⟨ho, rfl⟩
  case envSetSr =>
    obtain ⟨hn, _, h⟩ := State.onUnit_eq_next.1 h
    exact ⟨hn, by simpa [Effect, eq_comm] using h⟩
  case envSetParams =>
    obtain ⟨hn, _, h⟩ := State.onUnit_eq_next.1 h
    exact ⟨hn, by simpa [Effect, eq_comm] using h⟩
  case envEnter stage =>
    obtain ⟨hn, _, h⟩ := State.onUnit_eq_next.1 h
    refine ⟨hn, ?_⟩
    split at h
    · rename_i k hk; exact ⟨k, hk, by simpa [eq_comm] using h⟩
    · simp at h
  case envNext =>
    obtain ⟨hn, _, h⟩ := State.onUnit_eq_next.1 h
    obtain ⟨e, he, rfl⟩ := mapNext_eq_next.1 h
    exact ⟨hn, e, he, rfl⟩
  case envActive =>
    obtain ⟨hn, _, h⟩ := State.onUnit_eq_next.1 h
    exact ⟨hn, by simpa [Effect, eq_comm] using h⟩
  case svfSetSr =>
    obtain ⟨hn, _, h⟩ := State.onUnit_eq_next.1 h
    exact ⟨hn, by simpa [Effect, eq_comm] using h⟩
  case svfSetCutoff =>
    obtain ⟨hn, _, h⟩ := State.onUnit_eq_next.1 h
    exact ⟨hn, by simpa [Effect, eq_comm] using h⟩
  case svfSetRes =>
    obtain ⟨hn, _, h⟩ := State.onUnit_eq_next.1 h
    exact ⟨hn, by simpa [Effect, eq_comm] using h⟩
  case svfSetType kind =>
    obtain ⟨hn, _, h⟩ := State.onUnit_eq_next.1 h
    exact ⟨hn, by simpa [Effect, eq_comm] using h⟩
  case svfProc ch =>
    obtain ⟨hn, _, h⟩ := State.onUnit_eq_next.1 h
    obtain ⟨⟨v, y⟩, hv, rfl⟩ := mapNext_eq_next.1 h
    exact ⟨hn, v, y, hv, rfl⟩
  case scopeWrite count =>
    obtain ⟨hn, ha, h⟩ := State.onScope_eq_next.1 h
    exact ⟨hn, ha, by simpa [eq_comm] using h⟩
  case scopeSnap count =>
    obtain ⟨hn, ha, h⟩ := State.onScope_eq_next.1 h
    refine ⟨hn, ha, ?_⟩
    split at h
    · simp at h
    · rename_i hc
      exact ⟨Nat.le_of_not_lt hc, by simpa [eq_comm] using h⟩

end Block

theorem exec_next {i : Instr} {s t : State} (h : exec i s = .next t) :
    s.command.operands.length = i.operandCount ∧ Block.Effect Config.params s t i :=
  Block.perform_next Config.params (exec_eq_perform i s ▸ h)

end Sys2Proof.Machine
end

