-- ==== Sys2Proof/Laws/Memory.lean ====
section
/-! SUPPORT. The sample memory: a read after a write, and the canonical form (spec/20_memory.md R62, R69). -/

namespace Sys2Proof.Machine

section

variable {α : Type} (d : α)

theorem lookupCell_insertCell (cells : List (Nat × α)) (a b : Nat) (x : α) :
    lookupCell d (insertCell a x cells) b = if b = a then x else lookupCell d cells b := by
  induction cells with
  | nil => simp [insertCell, lookupCell]
  | cons c rest ih =>
    obtain ⟨k, y⟩ := c
    simp only [insertCell]
    split
    · simp [lookupCell]
    · split
      · subst_vars; by_cases h : b = k <;> simp [lookupCell, h]
      · rename_i h1 h2
        simp only [lookupCell, ih]
        by_cases hk : b = k
        · have : ¬ k = a := fun h => h2 h.symm
          simp [hk, this]
        · simp [hk]

theorem lookupCell_eraseCell (cells : List (Nat × α)) (a b : Nat) :
    lookupCell d (eraseCell a cells) b = if b = a then d else lookupCell d cells b := by
  induction cells with
  | nil => simp [eraseCell, lookupCell]
  | cons c rest ih =>
    obtain ⟨k, y⟩ := c
    simp only [eraseCell]
    split
    · subst_vars; rw [ih]; by_cases h : b = k <;> simp [lookupCell, h]
    · rename_i h2
      simp only [lookupCell, ih]
      by_cases hk : b = k
      · have : ¬ k = a := fun h => h2 h.symm
        simp [hk, this]
      · simp [hk]

theorem mem_insertCell {cells : List (Nat × α)} {a : Nat} {x : α} {c : Nat × α} (h : c ∈ insertCell a x cells) :
    c = (a, x) ∨ c ∈ cells := by
  induction cells with
  | nil => simpa [insertCell] using h
  | cons e rest ih =>
    obtain ⟨k, y⟩ := e
    simp only [insertCell] at h
    split at h
    · simpa using h
    · split at h
      · rcases List.mem_cons.1 h with h | h
        · exact .inl h
        · exact .inr (List.mem_cons_of_mem _ h)
      · rcases List.mem_cons.1 h with h | h
        · exact .inr (h ▸ List.mem_cons_self)
        · exact (ih h).imp id (List.mem_cons_of_mem _)

theorem mem_eraseCell {cells : List (Nat × α)} {a : Nat} {c : Nat × α} (h : c ∈ eraseCell a cells) : c ∈ cells := by
  induction cells with
  | nil => simp [eraseCell] at h
  | cons e rest ih =>
    obtain ⟨k, y⟩ := e
    simp only [eraseCell] at h
    split at h
    · exact List.mem_cons_of_mem _ (ih h)
    · rcases List.mem_cons.1 h with h | h
      · exact h ▸ List.mem_cons_self
      · exact List.mem_cons_of_mem _ (ih h)

theorem insertCell_sorted {cells : List (Nat × α)} (a : Nat) (x : α)
    (h : cells.Pairwise (fun c e => c.1 < e.1)) : (insertCell a x cells).Pairwise (fun c e => c.1 < e.1) := by
  induction cells with
  | nil => simp [insertCell]
  | cons e rest ih =>
    obtain ⟨k, y⟩ := e
    obtain ⟨hk, hr⟩ := List.pairwise_cons.1 h
    simp only [insertCell]
    split
    · rename_i hlt
      refine List.pairwise_cons.2 ⟨fun c hc => ?_, h⟩
      rcases List.mem_cons.1 hc with rfl | hc
      · exact hlt
      · exact hlt.trans (hk c hc)
    · split
      · rename_i heq
        exact List.pairwise_cons.2 ⟨fun c hc => heq ▸ hk c hc, hr⟩
      · rename_i h1 h2
        refine List.pairwise_cons.2 ⟨fun c hc => ?_, ih hr⟩
        rcases mem_insertCell hc with rfl | hc
        · exact Nat.lt_of_le_of_ne (Nat.le_of_not_lt h1) (fun h => h2 h.symm)
        · exact hk c hc

theorem eraseCell_sorted {cells : List (Nat × α)} (a : Nat)
    (h : cells.Pairwise (fun c e => c.1 < e.1)) : (eraseCell a cells).Pairwise (fun c e => c.1 < e.1) := by
  induction cells with
  | nil => simp [eraseCell]
  | cons e rest ih =>
    obtain ⟨k, y⟩ := e
    obtain ⟨hk, hr⟩ := List.pairwise_cons.1 h
    simp only [eraseCell]
    split
    · exact ih hr
    · exact List.pairwise_cons.2 ⟨fun c hc => hk c (mem_eraseCell hc), ih hr⟩

theorem lookupCell_eq_default {cells : List (Nat × α)} {a : Nat} (h : ∀ c ∈ cells, c.1 ≠ a) :
    lookupCell d cells a = d := by
  induction cells with
  | nil => rfl
  | cons c rest ih =>
    obtain ⟨k, y⟩ := c
    have hk : ¬ a = k := fun e => h (k, y) List.mem_cons_self e.symm
    simp only [lookupCell, if_neg hk]
    exact ih fun c hc => h c (List.mem_cons_of_mem _ hc)

/-- Two memories in canonical form that read alike are the same data. -/
theorem Memory.ext_read {m m' : Memory α} (h : m.wf d) (h' : m'.wf d)
    (hr : ∀ a, m.read d a = m'.read d a) : m = m' := by
  suffices ∀ l l' : List (Nat × α), (l.Pairwise (fun x y => x.1 < y.1) ∧ ∀ c ∈ l, c.2 ≠ d) →
      (l'.Pairwise (fun x y => x.1 < y.1) ∧ ∀ c ∈ l', c.2 ≠ d) →
      (∀ a, lookupCell d l a = lookupCell d l' a) → l = l' by
    obtain ⟨l⟩ := m; obtain ⟨l'⟩ := m'
    exact congrArg _ (this l l' h h' hr)
  intro l
  induction l with
  | nil =>
    intro l' _ h' hr
    cases l' with
    | nil => rfl
    | cons c rest =>
      obtain ⟨k, y⟩ := c
      have := hr k
      simp [lookupCell] at this
      exact absurd this.symm (h'.2 (k, y) List.mem_cons_self)
  | cons c rest ih =>
    intro l' h h' hr
    obtain ⟨k, y⟩ := c
    have hy : y ≠ d := h.2 (k, y) List.mem_cons_self
    obtain ⟨hk, hrest⟩ := List.pairwise_cons.1 h.1
    cases l' with
    | nil =>
      have := hr k
      simp [lookupCell] at this
      exact absurd this hy
    | cons c' rest' =>
      obtain ⟨k', y'⟩ := c'
      have hy' : y' ≠ d := h'.2 (k', y') List.mem_cons_self
      obtain ⟨hk', hrest'⟩ := List.pairwise_cons.1 h'.1
      have none_before : ∀ (r : List (Nat × α)) (a b : Nat), (∀ c ∈ r, b < c.1) → a ≤ b →
          lookupCell d r a = d := fun r a b hb hab =>
        lookupCell_eq_default d fun c hc e => by have := hb c hc; omega
      have hkk : k = k' := by
        rcases Nat.lt_trichotomy k k' with hlt | heq | hgt
        · have h1 := hr k
          simp only [lookupCell, if_true, if_neg (Nat.ne_of_lt hlt)] at h1
          exact absurd (h1.trans (none_before rest' k k' hk' hlt.le)) hy
        · exact heq
        · have h1 := hr k'
          simp only [lookupCell, if_true, if_neg (Nat.ne_of_lt hgt)] at h1
          exact absurd (h1.symm.trans (none_before rest k' k hk hgt.le)) hy'
      subst hkk
      have hyy : y = y' := by simpa [lookupCell] using hr k
      subst hyy
      congr 1
      refine ih rest' ⟨hrest, fun c hc => h.2 c (List.mem_cons_of_mem _ hc)⟩
        ⟨hrest', fun c hc => h'.2 c (List.mem_cons_of_mem _ hc)⟩ fun a => ?_
      by_cases hak : a = k
      · subst hak
        rw [none_before rest a a hk le_rfl, none_before rest' a a hk' le_rfl]
      · simpa [lookupCell, hak] using hr a

variable [DecidableEq α]

/-- Every read after a write: the sample written at its slot, the old content at every other slot. -/
theorem Memory.read_write (m : Memory α) (a b : Nat) (x : α) :
    (m.write d a x).read d b = if b = a then x else m.read d b := by
  unfold Memory.write Memory.read
  split
  · subst_vars; exact lookupCell_eraseCell _ _ _ _
  · exact lookupCell_insertCell _ _ _ _ _

@[simp] theorem Memory.read_write_same (m : Memory α) (a : Nat) (x : α) : (m.write d a x).read d a = x := by
  simp [Memory.read_write]

theorem Memory.read_write_other (m : Memory α) {a b : Nat} (x : α) (h : b ≠ a) :
    (m.write d a x).read d b = m.read d b := by
  simp [Memory.read_write, h]

/-- A write keeps the canonical form. -/
theorem Memory.write_wf {m : Memory α} (h : m.wf d) (a : Nat) (x : α) : (m.write d a x).wf d := by
  unfold Memory.write
  split
  · exact ⟨eraseCell_sorted a h.1, fun c hc => h.2 c (mem_eraseCell hc)⟩
  · rename_i hx
    refine ⟨insertCell_sorted a x h.1, fun c hc => ?_⟩
    rcases mem_insertCell hc with rfl | hc
    · exact hx
    · exact h.2 c hc

/-- A write inside the memory lists no slot outside it (R62). -/
theorem Memory.write_within {cap : Nat} {m : Memory α} (h : m.within cap) {a : Nat} (ha : a < cap) (x : α) :
    (m.write d a x).within cap := by
  unfold Memory.write
  split
  · exact fun c hc => h c (mem_eraseCell hc)
  · intro c hc
    rcases mem_insertCell hc with rfl | hc
    · exact ha
    · exact h c hc

end

/-- The memory right after reset is in canonical form and lists nothing. -/
theorem reset_mem_wf : State.reset.scope.mem.wf Config.num.zero := ⟨List.Pairwise.nil, fun _ h => nomatch h⟩

end Sys2Proof.Machine
end

