-- ==== Sys2Proof/Laws/PerInstr.lean ====
section
/-! SUPPORT. One fact for each operation as syntax: its encoded word agrees with its row of the opcode map
(spec/30_encoding.md R92). -/

namespace Sys2Proof.Laws.Encoding

/-- The word of the operation, masked as its row says, is the row's match. -/
def Statement (i : Instr) : Prop := encode i &&& i.maskBits = i.matchBits

/-- A word whose row masks the first byte alone. -/
theorem mask_first_byte (op : BitVec 8) (arg : Arg) :
    (op ++ arg : CommandWord) &&& 0xFF000000 = (op ++ (0 : Arg) : CommandWord) := by
  have h := BitVec.and_append (x₁ := op) (x₂ := 0xFF#8) (y₁ := arg) (y₂ := 0#24)
  have h8 : op &&& 0xFF#8 = op := BitVec.and_allOnes
  have h24 : arg &&& 0#24 = 0#24 := BitVec.and_zero
  rw [h8, h24] at h
  exact h

theorem oscSetSr : Statement .oscSetSr := by unfold Statement; decide
theorem oscSetFreq : Statement .oscSetFreq := by unfold Statement; decide
theorem oscSetWave (wave : Arg) : Statement (.oscSetWave wave) := mask_first_byte 0x12 wave
theorem oscNext : Statement .oscNext := by unfold Statement; decide
theorem envSetSr : Statement .envSetSr := by unfold Statement; decide
theorem envSetParams : Statement .envSetParams := by unfold Statement; decide
theorem envEnter (stage : Arg) : Statement (.envEnter stage) := mask_first_byte 0x22 stage
theorem envNext : Statement .envNext := by unfold Statement; decide
theorem envActive : Statement .envActive := by unfold Statement; decide
theorem svfSetSr : Statement .svfSetSr := by unfold Statement; decide
theorem svfSetCutoff : Statement .svfSetCutoff := by unfold Statement; decide
theorem svfSetRes : Statement .svfSetRes := by unfold Statement; decide
theorem svfSetType (kind : Arg) : Statement (.svfSetType kind) := mask_first_byte 0x33 kind
theorem svfProc (ch : Arg) : Statement (.svfProc ch) := mask_first_byte 0x34 ch
theorem scopeWrite (count : Arg) : Statement (.scopeWrite count) := mask_first_byte 0x40 count
theorem scopeSnap (count : Arg) : Statement (.scopeSnap count) := mask_first_byte 0x41 count

end Sys2Proof.Laws.Encoding
end

