-- ==== Sys2Proof/Laws/ScopeBuffer.lean ====
section
/-! SUPPORT. The small lemmas of the producer's events and of the slot arithmetic. -/

namespace Sys2Proof.Machine

theorem nextSlot_lt {cap : Nat} (h : 0 < cap) (a : Nat) : nextSlot cap a < cap := Nat.mod_lt _ h

theorem snapStart_lt {cap : Nat} (h : 0 < cap) (c n : Nat) : snapStart cap c n < cap := Nat.mod_lt _ h

section

variable {α : Type}

@[simp] theorem publications_append (l r : List (ScopeEvent α)) :
    publications (l ++ r) = publications l + publications r := by
  induction l with
  | nil => simp [publications]
  | cons ev l ih => cases ev <;> simp [publications, ih]; omega

@[simp] theorem writesTo_append (a : Nat) (l r : List (ScopeEvent α)) :
    writesTo a (l ++ r) = writesTo a l ++ writesTo a r := by
  induction l with
  | nil => rfl
  | cons ev l ih =>
    cases ev with
    | write b x => simp only [List.cons_append, writesTo, ih]; split <;> rfl
    | publish c => simpa [writesTo] using ih

@[simp] theorem writesIn_append (l r : List (ScopeEvent α)) : writesIn (l ++ r) = writesIn l + writesIn r := by
  induction l with
  | nil => simp [writesIn]
  | cons ev l ih => cases ev <;> simp [writesIn, ih]; omega

@[simp] theorem lastCursor_append (c : Nat) (l r : List (ScopeEvent α)) :
    lastCursor c (l ++ r) = lastCursor (lastCursor c l) r := by
  induction l generalizing c with
  | nil => rfl
  | cons ev l ih => cases ev <;> simp [lastCursor, ih]

@[simp] theorem endIndex_append (cap i : Nat) (l r : List (ScopeEvent α)) :
    endIndex cap i (l ++ r) = endIndex cap (endIndex cap i l) r := by
  induction l generalizing i with
  | nil => rfl
  | cons ev l ih => cases ev <;> simp [endIndex, ih]

theorem inOrder_append (cap i : Nat) (l r : List (ScopeEvent α)) :
    inOrder cap i (l ++ r) ↔ inOrder cap i l ∧ inOrder cap (endIndex cap i l) r := by
  induction l generalizing i with
  | nil => simp [inOrder, endIndex]
  | cons ev l ih => cases ev <;> simp [inOrder, endIndex, ih, and_assoc]

@[simp] theorem unpublished_append (n : Nat) (l r : List (ScopeEvent α)) :
    unpublished n (l ++ r) = unpublished (unpublished n l) r := by
  induction l generalizing n with
  | nil => rfl
  | cons ev l ih => cases ev <;> simp [unpublished, ih]

/-- Between two writes the private index is the published cursor. -/
theorem endIndex_of_published {cap : Nat} {l : List (ScopeEvent α)} :
    ∀ {i c n : Nat}, (n = 0 → c = i) → inOrder cap i l → unpublished n l = 0 →
      endIndex cap i l = lastCursor c l := by
  induction l with
  | nil => intro i c n h _ hu; exact (h hu).symm
  | cons ev l ih =>
    intro i c n h ho hu
    cases ev with
    | write a x => exact ih (n := n + 1) (by omega) ho.2 hu
    | publish c' => exact ih (n := 0) (fun _ => ho.1) ho.2 hu

theorem endIndex_lt {cap : Nat} (hc : 0 < cap) {l : List (ScopeEvent α)} :
    ∀ {i : Nat}, i < cap → endIndex cap i l < cap := by
  induction l with
  | nil => exact id
  | cons ev l ih =>
    intro i h
    cases ev with
    | write a x => exact ih (nextSlot_lt hc i)
    | publish c' => exact ih h

/-- The index after events in order: one slot on for each sample written (R177). -/
theorem endIndex_eq {cap : Nat} {l : List (ScopeEvent α)} :
    ∀ {i : Nat}, i < cap → endIndex cap i l = (i + writesIn l) % cap := by
  induction l with
  | nil => intro i h; simp [endIndex, writesIn, Nat.mod_eq_of_lt h]
  | cons ev l ih =>
    intro i h
    cases ev with
    | write a x =>
      have hc : 0 < cap := Nat.lt_of_le_of_lt (Nat.zero_le _) h
      simp only [endIndex, writesIn]
      rw [ih (nextSlot_lt hc i), nextSlot, Nat.mod_add_mod]
      congr 1; omega
    | publish c' => exact ih h

@[simp] theorem Scope.storeRelease_mem (sc : Scope α) (c : Nat) : (sc.storeRelease c).mem = sc.mem := rfl
@[simp] theorem Scope.storeRelease_cursor (sc : Scope α) (c : Nat) : (sc.storeRelease c).cursor = c := rfl
@[simp] theorem Scope.storeRelease_rcur (sc : Scope α) (c : Nat) : (sc.storeRelease c).rcur = sc.rcur := rfl
@[simp] theorem Scope.storeRelease_trail (sc : Scope α) (c : Nat) :
    (sc.storeRelease c).trail = sc.trail.record (.publish c) := rfl
@[simp] theorem Trail.record_base (t : Trail α) (ev : ScopeEvent α) : (t.record ev).base = t.base := rfl
@[simp] theorem Trail.record_baseCursor (t : Trail α) (ev : ScopeEvent α) : (t.record ev).baseCursor = t.baseCursor := rfl
@[simp] theorem Trail.record_later (t : Trail α) (ev : ScopeEvent α) : (t.record ev).later = t.later ++ [ev] := rfl

variable [DecidableEq α] (d : α)

@[simp] theorem replay_append (m : Memory α) (l r : List (ScopeEvent α)) :
    replay d m (l ++ r) = replay d (replay d m l) r := by
  induction l generalizing m with
  | nil => rfl
  | cons ev l ih => cases ev <;> simp [replay, ih]

theorem replay_wf {l : List (ScopeEvent α)} : ∀ {m : Memory α}, m.wf d → (replay d m l).wf d := by
  induction l with
  | nil => exact id
  | cons ev l ih =>
    intro m h
    cases ev with
    | write a x => exact ih (Memory.write_wf d h a x)
    | publish c => exact ih h

theorem replay_within {cap : Nat} (hc : 0 < cap) {l : List (ScopeEvent α)} :
    ∀ {m : Memory α} {i : Nat}, i < cap → inOrder cap i l → m.within cap → (replay d m l).within cap := by
  induction l with
  | nil => intro m i _ _ h; exact h
  | cons ev l ih =>
    intro m i hi ho h
    cases ev with
    | write a x =>
      obtain ⟨rfl, ho⟩ := ho
      exact ih (nextSlot_lt hc a) ho (Memory.write_within d h hi x)
    | publish c => exact ih hi ho.2 h

/-- A slot with no write among the events reads as before them. -/
theorem replay_read_of_writesTo_nil {a : Nat} {l : List (ScopeEvent α)} :
    ∀ {m : Memory α}, writesTo a l = [] → (replay d m l).read d a = m.read d a := by
  induction l with
  | nil => intro m _; rfl
  | cons ev l ih =>
    intro m h
    cases ev with
    | write b x =>
      simp only [writesTo] at h
      split at h
      · simp at h
      · rename_i hab
        rw [replay, ih h, Memory.read_write_other d m x hab]
    | publish c => exact ih h

@[simp] theorem Scope.memWrite_mem (sc : Scope α) (a : Nat) (x : α) :
    (sc.memWrite d a x).mem = sc.mem.write d a x := rfl
@[simp] theorem Scope.memWrite_cursor (sc : Scope α) (a : Nat) (x : α) : (sc.memWrite d a x).cursor = sc.cursor := rfl
@[simp] theorem Scope.memWrite_rcur (sc : Scope α) (a : Nat) (x : α) : (sc.memWrite d a x).rcur = sc.rcur := rfl
@[simp] theorem Scope.memWrite_trail (sc : Scope α) (a : Nat) (x : α) :
    (sc.memWrite d a x).trail = sc.trail.record (.write a x) := rfl
@[simp] theorem Scope.loadAcquire_mem (sc : Scope α) (k : Nat) : (sc.loadAcquire d k).mem = sc.mem := rfl
@[simp] theorem Scope.loadAcquire_cursor (sc : Scope α) (k : Nat) : (sc.loadAcquire d k).cursor = sc.cursor := rfl
@[simp] theorem Scope.loadAcquire_rcur (sc : Scope α) (k : Nat) : (sc.loadAcquire d k).rcur = sc.rcur := rfl

end

section

variable {α : Type} {nch : Nat} (P : Params α) {s : Block.State α nch}

/-- A load reads from a publication there is, and where its command has a bound it passes over no more than that. -/
theorem Block.State.loadChoice_bounds :
    s.loadChoice P ≤ publications s.scope.trail.later ∧
      ∀ k, s.command.missable = some k → publications s.scope.trail.later ≤ s.loadChoice P + k := by
  refine ⟨Nat.sub_le _ _, fun k hk => ?_⟩
  have := Nat.mod_lt (P.draw s.draws) (Nat.add_pos_right (min (publications s.scope.trail.later) k) Nat.one_pos)
  simp only [Block.State.loadChoice, hk, Option.map_some, Option.getD_some]
  omega

/-- With no bound every publication there is can be read from, by some free choice (R67). -/
theorem Block.State.loadChoice_any (hm : s.command.missable = none) {j : Nat} (hj : j ≤ publications s.scope.trail.later)
    (hd : P.draw s.draws = publications s.scope.trail.later - j) : s.loadChoice P = j := by
  simp only [Block.State.loadChoice, hm, hd, Option.map_none, Option.getD_none]
  rw [Nat.mod_eq_of_lt (by omega)]
  omega

/-- A load that may pass over none reads from the latest publication. -/
theorem Block.State.loadChoice_latest (hm : s.command.missable = some 0) :
    s.loadChoice P = publications s.scope.trail.later := by simp [Block.State.loadChoice, hm, Nat.mod_one]

end

end Sys2Proof.Machine
end

