-- ==== Sys2Proof/Laws/Step.lean ====
section
/-! SUPPORT. Everything one step can do, said once. -/

namespace Sys2Proof.Machine

/-- The host's `step` is the block's step at the host's parameters. -/
theorem step_eq_stepAt (s : State) : step s = Block.stepAt Config.params s := by
  have h : exec = Block.State.perform Config.params := funext fun i => funext fun s => exec_eq_perform i s
  rw [step, h, Block.stepAt]

namespace Block

variable {α : Type} {nch : Nat} {run : Instr → State α nch → Result (State α nch)}

theorem issueNext_next {a : Agent} {s t : State α nch} (h : issueNext run a s = .next t) :
    ((s.port a).pending = [] ∧ t = s) ∨
    ∃ c rest i, (s.port a).pending = c :: rest ∧ decode c.word = some i ∧ run i (s.present a { c with missable := s.mayMiss i c } rest) = .next t := by
  unfold issueNext at h
  split at h
  · rename_i hp; exact .inl ⟨hp, by simpa [eq_comm] using h⟩
  · rename_i c rest hp
    split at h
    · simp at h
    · rename_i i hi; exact .inr ⟨c, rest, i, hp, hi, h⟩

variable [DecidableEq α] (P : Params α)

/-- A step that answers a next state is one of these: nothing is scheduled; the next event of a SCOPE operation
in progress; an agent that hangs or has nothing to present; or an operation. -/
theorem stepWith_next {s t : State α nch} (h : stepWith P run s = .next t) :
    (s.schedule = [] ∧ t = s) ∨
    ∃ a sched, s.schedule = a :: sched ∧
      ((∃ w, a = .producer ∧ s.hanging ≠ some a ∧ s.writing = some w ∧ t = ({ s with schedule := sched } : State α nch).advanceWrite P w) ∨
       (∃ p, a = .consumer ∧ s.hanging ≠ some a ∧ s.snapping = some p ∧ t = ({ s with schedule := sched } : State α nch).advanceSnap P p) ∨
       ((s.hanging = some a ∨ (s.port a).pending = []) ∧ t = { s with schedule := sched }) ∨
       (∃ c rest i, (s.port a).pending = c :: rest ∧ decode c.word = some i ∧ s.hanging ≠ some a ∧
          (a = .producer → s.writing = none) ∧ (a = .consumer → s.snapping = none) ∧
          run i (({ s with schedule := sched } : State α nch).present a
            { c with missable := ({ s with schedule := sched } : State α nch).mayMiss i c } rest) = .next t)) := by
  unfold stepWith at h
  split at h
  · rename_i hs; exact .inl ⟨hs, by simpa [eq_comm] using h⟩
  · rename_i a sched hs
    refine .inr ⟨a, sched, hs, ?_⟩
    unfold agentStep at h
    split at h
    · rename_i hh; exact .inr (.inr (.inl ⟨.inl hh, by simpa [eq_comm] using h⟩))
    rename_i hh
    cases a with
    | producer =>
      simp only at h
      split at h
      · rename_i w hw; exact .inl ⟨w, rfl, hh, hw, by simpa [eq_comm] using h⟩
      · rename_i hw
        rcases issueNext_next h with ⟨hp, rfl⟩ | ⟨c, rest, i, hp, hi, he⟩
        · exact .inr (.inr (.inl ⟨.inr hp, rfl⟩))
        · exact .inr (.inr (.inr ⟨c, rest, i, hp, hi, hh, fun _ => hw, fun h => by simp at h, he⟩))
    | consumer =>
      simp only at h
      split at h
      · rename_i p hp; exact .inr (.inl ⟨p, rfl, hh, hp, by simpa [eq_comm] using h⟩)
      · rename_i hw
        rcases issueNext_next h with ⟨hp, rfl⟩ | ⟨c, rest, i, hp, hi, he⟩
        · exact .inr (.inr (.inl ⟨.inr hp, rfl⟩))
        · exact .inr (.inr (.inr ⟨c, rest, i, hp, hi, hh, fun h => by simp at h, fun _ => hw, he⟩))

end Block

/-- The same of the host's machine. -/
theorem step_next {s t : State} (h : step s = .next t) :
    (s.schedule = [] ∧ t = s) ∨
    ∃ a sched, s.schedule = a :: sched ∧
      ((∃ w, a = .producer ∧ s.hanging ≠ some a ∧ s.writing = some w ∧
          t = ({ s with schedule := sched } : State).advanceWrite Config.params w) ∨
       (∃ p, a = .consumer ∧ s.hanging ≠ some a ∧ s.snapping = some p ∧
          t = ({ s with schedule := sched } : State).advanceSnap Config.params p) ∨
       ((s.hanging = some a ∨ (s.port a).pending = []) ∧ t = { s with schedule := sched }) ∨
       (∃ c rest i, (s.port a).pending = c :: rest ∧ decode c.word = some i ∧ s.hanging ≠ some a ∧
          (a = .producer → s.writing = none) ∧ (a = .consumer → s.snapping = none) ∧
          exec i (({ s with schedule := sched } : State).present a
            { c with missable := Block.State.mayMiss { s with schedule := sched } i c } rest) = .next t)) :=
  Block.stepWith_next Config.params h

theorem repeated_succ {σ : Type} {next : σ → Result σ} {s t : σ} (k : Nat) (h : next s = .next t) :
    repeated next (k + 1) s = repeated next k t := by
  rw [repeated, h]

/-- One more step at the end of a run. -/
theorem repeated_succ_end {σ : Type} {next : σ → Result σ} {k : Nat} {s t : σ} (h : repeated next k s = .next t) :
    repeated next (k + 1) s = next t := by
  induction k generalizing s with
  | zero =>
    obtain rfl : s = t := by simpa [repeated] using h
    simp only [repeated]
    cases next s <;> rfl
  | succ k ih =>
    rw [repeated] at h ⊢
    cases hs : next s with
    | next u => rw [hs] at h; exact ih h
    | fault r => rw [hs] at h; cases h
    | refused r => rw [hs] at h; cases h

end Sys2Proof.Machine
end

