-- ==== Sys2Proof/Tests/Slice0.lean ====
section
/-! SUPPORT. The model's own tests: words written out from the encodings, ill-formed terms, vectors of
spec/95_test_vectors.md, and for every statement with hypotheses a witness that meets them all. -/

namespace Sys2Proof.Tests

open Sys2Proof.Machine

/-! ### Words (spec/95_test_vectors.md V1, V2), bit by bit: `UNIT`, `FUNC`, `ARG` -/

theorem test_word_osc_set_sr : decode 0b0001_0000_000000000000000000000000 = some .oscSetSr := by decide
theorem test_word_osc_set_freq : decode 0b0001_0001_000000000000000000000000 = some .oscSetFreq := by decide
theorem test_word_osc_set_wave_square : decode 0b0001_0010_000000000000000000000011 = some (.oscSetWave 3) := by decide
theorem test_word_osc_next : decode 0b0001_0011_000000000000000000000000 = some .oscNext := by decide
theorem test_word_env_set_sr : decode 0b0010_0000_000000000000000000000000 = some .envSetSr := by decide
theorem test_word_env_set_params : decode 0b0010_0001_000000000000000000000000 = some .envSetParams := by decide
theorem test_word_env_enter_release : decode 0b0010_0010_000000000000000000000100 = some (.envEnter 4) := by decide
theorem test_word_env_next : decode 0b0010_0011_000000000000000000000000 = some .envNext := by decide
theorem test_word_env_active : decode 0b0010_0100_000000000000000000000000 = some .envActive := by decide
theorem test_word_svf_set_sr : decode 0b0011_0000_000000000000000000000000 = some .svfSetSr := by decide
theorem test_word_svf_set_cutoff : decode 0b0011_0001_000000000000000000000000 = some .svfSetCutoff := by decide
theorem test_word_svf_set_res : decode 0b0011_0010_000000000000000000000000 = some .svfSetRes := by decide
theorem test_word_svf_set_type_bandpass : decode 0b0011_0011_000000000000000000000010 = some (.svfSetType 2) := by decide
theorem test_word_svf_proc_1 : decode 0b0011_0100_000000000000000000000001 = some (.svfProc 1) := by decide
theorem test_word_scope_write_512 : decode 0b0100_0000_000000000000001000000000 = some (.scopeWrite 512) := by decide
theorem test_word_scope_snap_4096 : decode 0b0100_0001_000000000001000000000000 = some (.scopeSnap 4096) := by decide
theorem test_words_reserved :
    [0x00000000, 0x50000000, 0xFFFFFFFF, 0x14000000, 0x25000000, 0x35000000, 0x42000000, 0x10000001, 0x13000001,
      0x24800000].map decode = List.replicate 10 none := by decide
theorem test_table_word_is_the_word : decodeTableWord 32 0x12000003 = some (.oscSetWave 3) := by decide

/-- The examples of spec/30_encoding.md R93. -/
theorem test_lines_assemble :
    assemble (α := Nat) { issuer := none, name := "OSC_SET_WAVE", immediate := some (.symbol .SAW), operands := [] } =
      some { word := 0x12000002, operands := [], overlaps := false } ∧
    assemble { issuer := none, name := "SVF_PROC", immediate := some (.number 0), operands := [25] } =
      some { word := 0x34000000, operands := [25], overlaps := false } ∧
    assemble { issuer := some .producer, name := "SCOPE_WRITE", immediate := some (.number 3), operands := [1, 2, 3] } =
      some { word := 0x40000003, operands := [1, 2, 3], overlaps := false } ∧
    assemble { issuer := none, name := "OSC_NEXT", immediate := some (.number 0), operands := ([] : List Nat) } = none := by
  decide

/-! ### Ill-formed terms -/

theorem test_wave_4_is_ill_formed : (Instr.oscSetWave 4).wellFormed = false := by decide
theorem test_wave_3_is_well_formed : (Instr.oscSetWave 3).wellFormed = true := by decide
theorem test_stage_5_is_ill_formed : (Instr.envEnter 5).wellFormed = false := by decide
theorem test_stage_4_is_well_formed : (Instr.envEnter 4).wellFormed = true := by decide
theorem test_channel_2_is_ill_formed : (Instr.svfProc 2).wellFormed = false :=
  decide_eq_false (Nat.not_lt.2 Config.svfNch_le_two)
theorem test_channel_0_is_well_formed : (Instr.svfProc 0).wellFormed = true := decide_eq_true Config.svfNch_pos
theorem test_count_above_capacity_is_ill_formed (n : Arg) (h : Config.scopeCap < n.toNat) :
    (Instr.scopeSnap n).wellFormed = false := decide_eq_false (Nat.not_le.2 h)

/-! ### Vectors over the rationals

A format in which a whole turn is 6, so that a twelfth of a turn is 1/2; `sin` is exact at the angles used. -/

/-- Exact rational arithmetic; `sin` at 0, a twelfth and a quarter of a turn. -/
def ratNum : NumFormat ℚ where
  zero := 0
  one := 1
  two := 2
  half := 1 / 2
  headroom := 1 / 5
  resMax := 99 / 100
  pi := 3
  twoPi := 6
  add x y := x + y
  sub x y := x - y
  mul x y := x * y
  div x y := x / y
  neg x := -x
  abs x := if x < 0 then -x else x
  sin x := if x = 1 / 2 then 1 / 2 else if x = 3 / 2 then 1 else 0
  frac x := x - x.floor
  lt x y := decide (x < y)
  le x y := decide (x ≤ y)
  gt x y := decide (x > y)
  ge x y := decide (x ≥ y)
  eq x y := decide (x = y)

/-- The block over the rationals, with two channels, four slots, every acquire load of the latest publication, and every
read of the observed sample. -/
def ratParams : Params ℚ :=
  { num := ratNum, envEps := 1 / 1000000, envEps_positive := by decide +kernel, svfExtraChannels := 1
    scopeCapLessOne := 3, draw := fun _ => 0 }

/-- The value of a waveform at normalized phase `t`, for a normalized increment `dt`. -/
def waveAt (w : Wave) (t dt : ℚ) : ℚ := waveValue ratNum w (6 * t) (6 * dt)

/-- An envelope with the parameters of V17 but for `sustain`. -/
def envAt (stage : Stage) (level sustain : ℚ) : Env ℚ :=
  { stage, level, attack := .val (1 / 2), decay := .val (1 / 4), sustain := .val sustain, release := .val (1 / 2),
    sr := .val 8 }

/-- The level returned and the stage after one call. -/
def envCall (e : Env ℚ) : Option (ℚ × Stage) :=
  match envNext ratNum e with
  | .next e => some (e.level, e.stage)
  | .fault _ => none
  | .refused _ => none

/-- A two-channel filter with `f = 1` and a given `q`, at rest but for channel 0. -/
def svfAt (kind : Arg) (q band low : ℚ) : Svf ℚ 2 :=
  { cutoff := .val 1, res := .val (1 - q), sr := .val 6, f := .val 1, q := .val q, kind,
    band := #v[band, 0], low := #v[low, 0] }

/-- The result of one call on a channel, and the channel's integrators after it. -/
def svfCall (ch : Fin 2) (x : ℚ) (v : Svf ℚ 2) : Option (ℚ × ℚ × ℚ) :=
  match svfProc ratNum ch x v with
  | .next (v, y) => some (y, v.band[ch], v.low[ch])
  | .fault _ => none
  | .refused _ => none

/-- V3 at a quarter turn, V9, V7, V8, and V13, where both intervals hold and the first wins. -/
theorem test_osc_next_waveforms :
    waveAt .sine (1 / 4) (1 / 8) = 1 ∧
    [0, 3 / 20, 3 / 10, 9 / 20, 3 / 5, 3 / 4].map (waveAt .triangle · (3 / 20)) =
      [1, 2 / 5, -1 / 5, -4 / 5, -3 / 5, 0] ∧
    [0, 3 / 20, 9 / 10, 1 / 20].map (waveAt .saw · (3 / 20)) = [0, -7 / 10, 31 / 45, -41 / 90] ∧
    [0, 3 / 10, 9 / 20, 3 / 5, 9 / 10, 1 / 20].map (waveAt .square · (3 / 20)) = [0, 1, 5 / 9, -8 / 9, -8 / 9, 5 / 9] ∧
    waveAt .saw (9 / 10) 10 = 16281 / 10000 := by decide +kernel

/-- V5, the call at 7/8 of a turn, which wraps to 0. -/
theorem test_osc_next_wraps :
    oscNext ratNum { phase := 21 / 4, freq := .val 1, sr := .val 8, wave := .saw } =
      .next (some ({ phase := 0, freq := .val 1, sr := .val 8, wave := .saw }, 3 / 20)) :=
  (oscNext_eq_some ratNum).2 ⟨1, 8, 0, rfl, rfl, by decide +kernel, by decide +kernel,
    wrapPhase_of_wrapWithin ratNum (k := 2) (by decide +kernel), rfl, by decide +kernel⟩

/-- V17: the calls that stay in a stage and those that leave it. -/
theorem test_env_next_full_cycle :
    [envAt .off 0 (1 / 2), envAt .attack (1 / 2) (1 / 2), envAt .attack (3 / 4) (1 / 2), envAt .decay 1 (1 / 2),
      envAt .decay (3 / 4) (1 / 2), envAt .sustain (1 / 2) (1 / 2), envAt .release (1 / 2) (1 / 2),
      envAt .release (1 / 8) (1 / 2)].map envCall =
    [some (0, .off), some (3 / 4, .attack), some (1, .decay), some (3 / 4, .decay), some (1 / 2, .sustain),
      some (1 / 2, .sustain), some (3 / 8, .release), some (0, .off)] := by decide +kernel

/-- V20, V26: a release that never falls, and a sustain level outside its range. -/
theorem test_env_next_odd_sustain :
    [envAt .release (1 / 4) 0, envAt .decay 1 2, envAt .release 2 2, envAt .release (-1 / 2) (-1 / 2)].map envCall =
    [some (1 / 4, .release), some (2, .sustain), some (3 / 2, .release), some (0, .off)] := by decide +kernel

/-- V22, the time guard, with `ENV_EPS` a millionth. -/
theorem test_env_set_params_guards :
    envSetParams ratNum (1 / 1000000) 0 (-3) (1 / 2) (1 / 4) (envAt .attack (3 / 4) 1) =
      { stage := .attack, level := 3 / 4, attack := .val (1 / 1000000), decay := .val (1 / 1000000),
        sustain := .val (1 / 2), release := .val (1 / 4), sr := .val 8 } := by decide +kernel

/-- V18, V24 (d): a stage entered from outside keeps the level, and Off forces it to 0. -/
theorem test_env_enter_level :
    (envEnter ratNum .release (envAt .attack (1 / 2) (1 / 2))).level = 1 / 2 ∧
    (envEnter ratNum .off (envAt .attack (1 / 2) (1 / 2))).level = 0 := by decide +kernel

/-- V31: the second and third call of the impulse response at `q = 1/2`, on the three taps; V38: the other channel
starts from its own state. -/
theorem test_svf_proc_taps :
    svfCall 0 0 (svfAt 0 (1 / 2) 1 0) = some (1, -1 / 2, 1) ∧
    svfCall 0 0 (svfAt 1 (1 / 2) 1 0) = some (-3 / 2, -1 / 2, 1) ∧
    svfCall 0 0 (svfAt 2 (1 / 2) 1 0) = some (-1 / 2, -1 / 2, 1) ∧
    svfCall 0 0 (svfAt 7 (1 / 2) (-1 / 2) 1) = some (1 / 2, -3 / 4, 1 / 2) ∧
    svfCall 1 (1 / 2) (svfAt 0 (1 / 2) 1 0) = some (0, 1 / 2, 0) := by decide +kernel

/-- V36. -/
theorem test_svf_set_res_clamps :
    [1 / 2, 99 / 100, 3 / 2, -2].map (fun r => (svfSetRes ratNum r (svfAt 0 1 0 0)).q) =
      [.val (1 / 2), .val (1 / 100), .val (1 / 100), .val 1] := by decide +kernel

/-- V35: the coefficient, whichever setter comes last, and unset while one is missing. -/
theorem test_svf_coefficient :
    (svfSetCutoff ratNum 1 (svfSetSr ratNum 6 (Svf.reset 0 2))).f = .val 1 ∧
    (svfSetSr ratNum 6 (svfSetCutoff ratNum 1 (Svf.reset 0 2))).f = .val 1 ∧
    (svfSetSr ratNum 2 (svfSetCutoff ratNum 1 (Svf.reset 0 2))).f = .val 2 ∧
    (svfSetSr ratNum 6 (Svf.reset 0 2)).f = .unset := by decide +kernel

/-! ### Refusals (V14, V23, V40, V50) -/

/-- The machine with one command in execution. -/
def running (a : Agent) (operands : List NumVal) : State :=
  { State.reset with command := { agent := a, operands := operands, overlaps := false } }

theorem test_refused_after_reset :
    exec .oscNext (running .producer []) = .refused .unset ∧
    exec (.oscSetWave 4) (running .producer []) = .refused .reserved ∧
    exec (.envEnter 5) (running .consumer []) = .refused .reserved ∧
    exec (.svfProc 0) (running .producer [Config.num.one]) = .refused .unset ∧
    exec (.scopeWrite 1) (running .consumer [Config.num.one]) = .refused .wrongAgent ∧
    exec (.scopeSnap 1) (running .producer []) = .refused .wrongAgent ∧
    exec .envSetParams (running .consumer [Config.num.one]) = .refused .operandCount := by
  refine ⟨rfl, rfl, rfl, ?_, rfl, rfl, rfl⟩
  simp [exec, execSvfProc, Block.State.svfProc, Block.State.onUnit, running, svfProc, Params.svfNch_pos, State.reset,
    Block.State.reset, Svf.reset]
/-- V14, V23, V40: what is refused with `unset`, right after reset and with some of the registers written, and what is
not: Off needs nothing, Sustain no sample rate. -/
theorem test_unset_is_refused :
    oscNext ratNum (Osc.reset 0) = .refused .unset ∧
    oscNext ratNum { Osc.reset (0 : ℚ) with sr := .val 8 } = .refused .unset ∧
    envNext ratNum (Env.reset 0) = .next (Env.reset 0) ∧
    envNext ratNum { Env.reset (0 : ℚ) with stage := .attack } = .refused .unset ∧
    envNext ratNum { envAt .attack 0 (1 / 2) with sr := .unset } = .refused .unset ∧
    envNext ratNum { envAt .sustain 0 (1 / 2) with sr := .unset } =
      .next { envAt .sustain (1 / 2) (1 / 2) with sr := .unset } ∧
    svfProc ratNum 0 1 (Svf.reset 0 2) = .refused .unset ∧
    svfProc ratNum 0 1 (svfSetCutoff ratNum 1 (svfSetSr ratNum 6 (Svf.reset 0 2))) = .refused .unset :=
  ⟨rfl, rfl, rfl, rfl, rfl, rfl, rfl, rfl⟩
theorem test_not_refused_after_reset :
    exec .envNext (running .producer []) = .next ((running .producer []).reply (.num Config.num.zero)) ∧
    exec .envActive (running .consumer []) = .next ((running .consumer []).reply (.bit false)) := ⟨rfl, rfl⟩

/-! ### The ring buffer, with four slots (V45 to V54) -/

/-- The common start of the concurrent vectors: `mem = [1, 2, 3, 0]`, cursor 3, all of it observed. -/
def litmus : Scope Nat :=
  let m : Memory Nat := ⟨[(0, 1), (1, 2), (2, 3)]⟩
  { mem := m, cursor := 3, rcur := 0, trail := { base := m, baseCursor := 3, later := [] } }

/-- A window of `n` samples read with the choices given, after an acquire load with the choice `load`. -/
def window (sc : Scope Nat) (load : Nat) (picks : List Nat) : List Nat :=
  let sc := sc.loadAcquire 0 load
  (picks.zipIdx).map fun p => sc.memRead 0 p.1 ((snapStart 4 sc.trail.baseCursor picks.length + p.2) % 4)

/-- A write of the reset content lists nothing; V46: writing on from slot 3 wraps, and the whole memory is read
from the cursor on. -/
theorem test_write_wraps :
    let sc := (((litmus.memWrite 0 3 4).memWrite 0 (nextSlot 4 3) 5).memWrite 0 (nextSlot 4 0) 6).storeRelease (nextSlot 4 1)
    (litmus.memWrite 0 1 0).mem = ⟨[(0, 1), (2, 3)]⟩ ∧ sc.cursor = 2 ∧
    sc.mem = ⟨[(0, 5), (1, 6), (2, 3), (3, 4)]⟩ ∧ window sc 1 [0, 0, 0, 0] = [3, 4, 5, 6] := by decide

/-- V52: the torn window and the exact one. -/
theorem test_snapshot_torn_or_new :
    let sc := ((litmus.memWrite 0 3 8).memWrite 0 0 9).storeRelease 1
    window sc 0 [0, 0, 0, 0] = [0, 1, 2, 3] ∧ window sc 0 [0, 1, 0, 0] = [0, 9, 2, 3] ∧
    window sc 0 [1, 1, 0, 0] = [8, 9, 2, 3] ∧ window sc 1 [1, 1, 1, 1] = [2, 3, 8, 9] := by decide

/-- V53: a later load never goes back. -/
theorem test_loads_in_order :
    let sc := (((litmus.memWrite 0 3 7).storeRelease 0).memWrite 0 0 8).storeRelease 1
    (sc.loadAcquire 0 1).trail.baseCursor = 0 ∧ window sc 1 [0] = [7] ∧
    ((sc.loadAcquire 0 1).loadAcquire 0 0).trail.baseCursor = 0 ∧
    ((sc.loadAcquire 0 1).loadAcquire 0 1).trail.baseCursor = 1 ∧ window sc 2 [0] = [8] := by decide

/-! ### The first step after reset -/

theorem test_first_command_runs :
    step (State.reset.withFetchWord 32 0x10000000) =
      .next { State.reset with
        osc := { State.reset.osc with sr := .val Config.num.zero }
        command := { agent := .producer, operands := [Config.num.zero], overlaps := false } } := rfl
theorem test_reserved_word_is_refused :
    step (State.reset.withFetchWord 32 0x13000001) = .refused .reserved := rfl

/-! ### Witnesses

For each statement with hypotheses, concrete values that meet all of them together. -/

/-- Every register set: frequency 1 and sample rates 2, so that an oscillator call wraps nothing. -/
def ready (a : Agent) (operands : List NumVal) : State :=
  { State.reset with
    osc := { State.reset.osc with freq := .val Config.num.one, sr := .val Config.num.two }
    env := { State.reset.env with
      stage := .attack, attack := .val Config.envEps, decay := .val Config.envEps, sustain := .val Config.num.one,
      release := .val Config.envEps, sr := .val Config.num.two }
    svf := { State.reset.svf with
      cutoff := .val Config.num.one, res := .val Config.num.zero, sr := .val Config.num.two,
      f := .val Config.num.one, q := .val Config.num.one }
    command := { agent := a, operands := operands, overlaps := false } }

/-- The same with the envelope in another stage. -/
def readyIn (stage : Stage) : State := { ready .producer [] with env := { (ready .producer []).env with stage := stage } }

/-- One command waiting at an agent's port, that agent to move next. -/
def waiting (a : Agent) (i : Instr) (operands : List NumVal) : State :=
  State.reset.place a { word := encode i, operands := operands, overlaps := false }

theorem witness_DecodedWordEncodesBack : decode 0x340000FF = some (.svfProc 0xFF) := by decide
theorem witness_WordSelectsItsOneRow :
    (0x33FFFFFF : CommandWord) &&& (Instr.svfSetType 0).maskBits = (Instr.svfSetType 0).matchBits ∧
    (0x33FFFFFF : CommandWord) &&& (Instr.svfSetType 7).maskBits = (Instr.svfSetType 7).matchBits := by decide

theorem witness_ReservedEncodings_step :
    let s := State.reset.place .consumer { word := 0x10000001, operands := [], overlaps := false }
    s.Issues .consumer [] ∧ (s.port .consumer).pending = [{ word := 0x10000001, operands := [], overlaps := false }] ∧
      decode 0x10000001 = none :=
  ⟨⟨rfl, by decide, fun h => (Agent.noConfusion h : False).elim, fun _ => rfl⟩, rfl, by decide⟩
theorem witness_ReservedEncodings_operation :
    (running .producer []).command.operands = [] ∧ (running .producer []).command.overlaps = false ∧
    (running .producer []).hanging = none ∧
    (running .producer [Config.num.one]).command.operands = [Config.num.one] ∧
    (running .producer [Config.num.one]).command.overlaps = false ∧
    (running .consumer []).command.operands = [] ∧ (running .consumer []).command.agent = .consumer :=
  ⟨rfl, rfl, rfl, rfl, rfl, rfl, rfl⟩

theorem witness_StepExecutes_producer :
    let s := waiting .producer (.scopeWrite 1) [Config.num.one]
    let c : Command NumVal := { word := encode (.scopeWrite 1), operands := [Config.num.one], overlaps := false }
    s.Issues .producer [] ∧ (s.port .producer).pending = [c] ∧ decode c.word = some (.scopeWrite 1) :=
  ⟨⟨rfl, by decide, fun _ => rfl, fun h => (Agent.noConfusion h : False).elim⟩, rfl, by decide⟩
theorem witness_StepExecutes_consumer :
    let s := waiting .consumer (.scopeSnap 1) []
    let c : Command NumVal := { word := encode (.scopeSnap 1), operands := [], overlaps := false }
    s.Issues .consumer [] ∧ (s.port .consumer).pending = [c] ∧ decode c.word = some (.scopeSnap 1) :=
  ⟨⟨rfl, by decide, fun h => (Agent.noConfusion h : False).elim, fun _ => rfl⟩, rfl, by decide⟩
theorem witness_BlockTakesNoStep :
    State.reset.schedule = [] ∧
    (let s : State := { State.reset with schedule := [.producer] };
      s.Issues .producer [] ∧ (s.port .producer).pending = []) :=
  ⟨rfl, ⟨rfl, by decide, fun _ => rfl, fun h => (Agent.noConfusion h : False).elim⟩, rfl⟩
theorem witness_BusyAgent :
    (let s : State := { State.reset with schedule := [.producer], writing := some { slot := 0, rest := [] } };
      s.schedule = [.producer] ∧ s.hanging ≠ some .producer ∧ s.writing = some { slot := 0, rest := [] }) ∧
    (let s : State := { State.reset with
        schedule := [.consumer], snapping := some { slot := 0, after := 0 }, hanging := some .producer };
      s.schedule = [.consumer] ∧ s.hanging ≠ some .consumer ∧ s.snapping = some { slot := 0, after := 0 }) ∧
    (let s : State := { State.reset with schedule := [.consumer], hanging := some .consumer };
      s.schedule = [.consumer] ∧ s.hanging = some .consumer) :=
  ⟨⟨rfl, by decide, rfl⟩, ⟨rfl, by decide, rfl⟩, rfl, rfl⟩
theorem witness_RefusalsComeInOrder :
    (let s : State := { running .producer [] with command := { agent := .producer, operands := [], overlaps := true } };
      s.command.operands.length = Instr.oscNext.operandCount ∧ unitOf .oscNext ≠ 4 ∧ s.command.overlaps = true) ∧
    (let s : State := { running .consumer [] with hanging := some .producer };
      s.command.operands.length = Instr.oscNext.operandCount ∧ unitOf .oscNext = 1 ∧ s.hanging ≠ none) ∧
    ((running .consumer [Config.num.one]).command.operands.length = (1 : Arg).toNat ∧
      (running .consumer [Config.num.one]).command.agent = .consumer) ∧
    ((running .producer []).command.operands = [] ∧ (running .producer []).command.agent = .producer) :=
  ⟨⟨rfl, by decide, by decide⟩, ⟨rfl, by decide, nofun⟩, ⟨rfl, rfl⟩, rfl, rfl⟩

/-- A completed call of each unit and of each kind of result: the statements about every completed operation. -/
theorem witness_exec_osc_next : ∃ t, exec .oscNext (ready .producer []) = .next t := by
  have hw := wrapPhase_below Config.num Config.half_turn_below_turn
  have h := (oscNext_eq_some Config.num (o := (ready .producer []).osc)).2
    ⟨_, _, _, rfl, rfl, Config.two_positive, Config.one_positive, hw, rfl, rfl⟩
  exact ⟨_, (Block.State.onOsc_pass (s := ready .producer []) rfl rfl rfl).trans (mapNext_eq_next.2 ⟨_, h, rfl⟩)⟩
theorem witness_exec_env_next :
    ∃ t, exec .envNext (readyIn .sustain) = .next t ∧ t.env.stage = .sustain := ⟨_, rfl, rfl⟩
theorem witness_exec_env_enter :
    ∃ t, exec (.envEnter 4) (ready .consumer []) = .next t ∧ t.env.stage ≠ (ready .consumer []).env.stage :=
  ⟨_, rfl, by decide⟩
theorem witness_exec_env_active : ∃ t, exec .envActive (ready .consumer []) = .next t := ⟨_, rfl⟩
theorem witness_exec_svf_proc : ∃ t, exec (.svfProc 0) (ready .producer [Config.num.one]) = .next t := by
  have h1 : Config.num.gt Config.num.two Config.num.zero = true := Config.two_positive
  have h2 : Config.num.gt Config.num.one Config.num.zero = true := Config.one_positive
  simp [exec, execSvfProc, Block.State.svfProc, Block.State.onUnit, ready, svfProc, Params.svfNch_pos, h1, h2]
theorem witness_exec_scope_write :
    ∃ t, exec (.scopeWrite 2) (ready .producer [Config.num.one, Config.num.two]) = .next t :=
  ⟨_, rfl⟩
theorem witness_UnitsReadNoOtherUnit :
    let s := ready .consumer [Config.num.two]
    let s' := { ready .consumer [Config.num.two] with env := State.reset.env, svf := State.reset.svf }
    (∃ t, exec .oscSetSr s = .next t) ∧ s'.command = s.command ∧ s'.osc = s.osc ∧ s'.hanging = s.hanging ∧
    unitOf .oscSetSr = 1 :=
  ⟨⟨_, rfl⟩, rfl, rfl, rfl, by decide⟩
theorem witness_UnitsReadNoOtherUnit_scope :
    let s := ready .consumer []
    let s' := { ready .consumer [] with osc := State.reset.osc, hanging := some .producer }
    (∃ t, exec (.scopeSnap 0) s = .next t) ∧ s'.command = s.command ∧ s'.scope = s.scope ∧
    s'.draws = s.draws ∧ unitOf (.scopeSnap 0) = 4 := ⟨⟨_, rfl⟩, rfl, rfl, rfl, by decide⟩

/-- A filter with cutoff and sample rate set, and a `SCOPE_WRITE` with one sample still to store. -/
def midway : State :=
  { State.reset.withSvf (svfSetCutoff Config.num Config.num.one (svfSetSr Config.num Config.num.two State.reset.svf)) with
    schedule := [.producer], writing := some { slot := 0, rest := [Config.num.one] } }
theorem witness_InvariantKept : Inv Config.params midway ∧ ∃ t, step midway = .next t := by
  have := Config.scopeCap_pos
  refine ⟨⟨?_, ?_, ?_⟩, _, rfl⟩
  · constructor <;> simp [midway, svfSetCutoff, svfSetSr, recomputeF, State.reset, Block.State.reset, Env.reset, Svf.reset]
  · constructor <;>
      simp [midway, State.reset, Block.State.reset, Scope.reset, replay, lastCursor, inOrder, endIndex, Memory.wf, this]
  · constructor <;> simp [midway, State.reset, Block.State.reset]
theorem witness_SetRegistersStaySet :
    (∃ t, step (ready .producer []) = .next t) ∧ (ready .producer []).osc.freq.isSet = true ∧
    (ready .producer []).svf.q.isSet = true ∧ midway.svf.f.isSet = true := ⟨⟨_, rfl⟩, rfl, rfl, rfl⟩

/-- The hypotheses of the setters, of `OSC_SET_WAVE`, `ENV_ENTER`, `ENV_ACTIVE` and of the refusals: the command
alone, with one, four or no operands, and immediates just out of range. -/
theorem witness_operands :
    (ready .consumer [Config.num.one]).command.operands = [Config.num.one] ∧
    (ready .consumer [Config.num.one]).command.overlaps = false ∧
    (ready .consumer [Config.num.one, Config.num.two, Config.num.one, Config.num.two]).command.operands =
      [Config.num.one, Config.num.two, Config.num.one, Config.num.two] ∧
    (ready .consumer []).command.operands = [] ∧ (ready .consumer []).command.overlaps = false ∧
    (ready .consumer []).hanging = none ∧
    3 < (4 : Arg).toNat ∧ 4 < (5 : Arg).toNat ∧ Config.svfNch ≤ (2 : Arg).toNat :=
  ⟨rfl, rfl, rfl, rfl, rfl, rfl, by decide, by decide, Config.svfNch_le_two⟩

theorem witness_OscNextSamples :
    let s := ready .producer []
    s.command.operands = [] ∧ s.command.overlaps = false ∧ s.hanging = none ∧ s.osc.freq = .val Config.num.one ∧
    s.osc.sr = .val Config.num.two ∧ Config.num.gt Config.num.two Config.num.zero = true ∧
    Config.num.gt Config.num.one Config.num.zero = true ∧
    ∃ p, wrapPhase Config.num (Config.num.add s.osc.phase
      (Config.num.div (Config.num.mul Config.num.twoPi Config.num.one) Config.num.two)) = some p :=
  ⟨rfl, rfl, rfl, rfl, rfl, Config.two_positive, Config.one_positive, _,
    wrapPhase_below Config.num Config.half_turn_below_turn⟩
theorem witness_OscNextRefuses :
    (running .producer []).osc.freq = .unset ∧ (running .producer []).hanging = none ∧ (ready .producer []).hanging = none ∧
    (let s : State := { ready .producer [] with
        osc := { State.reset.osc with freq := .val Config.num.zero, sr := .val Config.num.zero } };
      s.osc.freq = .val Config.num.zero ∧ s.osc.sr = .val Config.num.zero ∧
      Config.num.gt Config.num.zero Config.num.zero = false) ∧
    (let s : State := { ready .producer [] with
        osc := { State.reset.osc with freq := .val Config.num.zero, sr := .val Config.num.one } };
      s.osc.freq = .val Config.num.zero ∧ s.osc.sr = .val Config.num.one ∧
      Config.num.gt Config.num.one Config.num.zero = true ∧ Config.num.gt Config.num.zero Config.num.zero = false) :=
  ⟨rfl, rfl, rfl, ⟨rfl, rfl, Config.zero_not_positive⟩, rfl, rfl, Config.one_positive, Config.zero_not_positive⟩
theorem witness_RealOsc :
    let o : Osc ℝ := { phase := 0, freq := .val 1, sr := .val 4, wave := .square }
    o.freq = .val 1 ∧ o.sr = .val 4 ∧ (0 : ℝ) < 4 ∧ (0 : ℝ) < 1 ∧ (1 : ℝ) < 4 / 2 ∧ 0 ≤ o.phase ∧
    o.phase < 2 * Real.pi ∧ ∃ o' out, oscNext realNum o = .next (some (o', out)) := by
  have hpi := Real.pi_pos
  refine ⟨rfl, rfl, by norm_num, by norm_num, by norm_num, le_refl _, by simpa using hpi, _, _,
    (oscNext_eq_some realNum).2 ⟨1, 4, _, rfl, rfl, by simp [realNum], by simp [realNum],
      wrapPhase_below realNum ?_, rfl, rfl⟩⟩
  simp [realNum, oscIncrement]
  linarith

theorem witness_EnvNext_off_sustain :
    (readyIn .off).env.stage = .off ∧ (readyIn .sustain).env.stage = .sustain ∧
    (readyIn .sustain).env.sustain = .val Config.num.one := ⟨rfl, rfl, rfl⟩
theorem witness_EnvNext_attack :
    let s := readyIn .attack
    s.command.operands = [] ∧ s.command.overlaps = false ∧ s.env.stage = .attack ∧
    s.env.attack = .val Config.envEps ∧ s.env.sr = .val Config.num.two ∧
    Config.num.gt Config.num.two Config.num.zero = true := ⟨rfl, rfl, rfl, rfl, rfl, Config.two_positive⟩
theorem witness_EnvNext_decay :
    let s := readyIn .decay
    s.command.operands = [] ∧ s.command.overlaps = false ∧ s.env.stage = .decay ∧
    s.env.decay = .val Config.envEps ∧ s.env.sustain = .val Config.num.one ∧ s.env.sr = .val Config.num.two ∧
    Config.num.gt Config.num.two Config.num.zero = true := ⟨rfl, rfl, rfl, rfl, rfl, rfl, Config.two_positive⟩
theorem witness_EnvNext_release :
    let s := readyIn .release
    s.command.operands = [] ∧ s.command.overlaps = false ∧ s.env.stage = .release ∧
    s.env.release = .val Config.envEps ∧ s.env.sustain = .val Config.num.one ∧ s.env.sr = .val Config.num.two ∧
    Config.num.gt Config.num.two Config.num.zero = true := ⟨rfl, rfl, rfl, rfl, rfl, rfl, Config.two_positive⟩
/-- Each stage that needs a register, with that register unset; and a sample rate of 0. -/
theorem witness_EnvNextRefuses :
    (∀ k : Stage, (let s : State := { running .producer [] with env := { State.reset.env with stage := k } };
      s.env.stage = k ∧ s.env.attack = .unset ∧ s.env.decay = .unset ∧ s.env.sustain = .unset ∧
      s.env.release = .unset ∧ s.env.sr = .unset)) ∧
    (let s : State := { readyIn .release with env := { (readyIn .release).env with sr := .val Config.num.zero } };
      s.env.stage ≠ .off ∧ s.env.stage ≠ .sustain ∧ s.env.attack = .val Config.envEps ∧
      s.env.decay = .val Config.envEps ∧ s.env.sustain = .val Config.num.one ∧ s.env.release = .val Config.envEps ∧
      s.env.sr = .val Config.num.zero ∧ Config.num.gt Config.num.zero Config.num.zero = false) :=
  ⟨fun _ => ⟨rfl, rfl, rfl, rfl, rfl, rfl⟩, by decide, by decide, rfl, rfl, rfl, rfl, rfl, Config.zero_not_positive⟩
/-- An envelope of real numbers with times and sample rate 1 and sustain level 1/2. -/
noncomputable def realEnv (stage : Stage) (level : ℝ) : Env ℝ :=
  { stage, level, attack := .val 1, decay := .val 1, sustain := .val (1 / 2), release := .val 1, sr := .val 1 }
theorem witness_RealLevel :
    (∃ e', envNext realNum (realEnv .attack 0) = .next e') ∧
    (∃ e', envNext realNum (realEnv .decay 1) = .next e') ∧ (1 / 2 : ℝ) ≤ (realEnv .decay 1).level ∧
    (∃ e', envNext realNum (realEnv .release 1) = .next e') ∧
    (0 : ℝ) < 1 ∧ (0 : ℝ) ≤ 1 / 2 ∧ (1 / 2 : ℝ) ≤ 1 := by
  refine ⟨⟨attackStep realNum 1 1 (realEnv .attack 0), ?_⟩, ⟨decayStep realNum 1 (1 / 2) 1 (realEnv .decay 1), ?_⟩, ?_,
    ⟨releaseStep realNum 1 (1 / 2) 1 (realEnv .release 1), ?_⟩, ?_⟩
  · simp [envNext, realEnv, realNum]
  · simp [envNext, realEnv, realNum]
  · norm_num [realEnv]
  · simp [envNext, realEnv, realNum]
  · norm_num
/-- An attack, a decay with sustain 1/2 and with sustain 1, a release from 1/2 and one from 0. -/
theorem witness_RealStagesLast :
    ((realEnv .attack 0).stage = .attack ∧ (realEnv .attack 0).level = 0 ∧ (realEnv .attack 0).attack = .val 1 ∧
      (realEnv .attack 0).sr = .val 1 ∧ (0 : ℝ) < 1 ∧ 0 < ⌈(1 : ℝ) * 1⌉₊) ∧
    ((realEnv .decay 1).stage = .decay ∧ (realEnv .decay 1).level = 1 ∧ (realEnv .decay 1).decay = .val 1 ∧
      (realEnv .decay 1).sustain = .val (1 / 2) ∧ (realEnv .decay 1).sr = .val 1 ∧ (0 : ℝ) ≤ 1 / 2 ∧ (1 / 2 : ℝ) < 1) ∧
    (let e : Env ℝ := { realEnv .decay 1 with sustain := .val 1 }; e.stage = .decay ∧ e.level = 1 ∧ e.sustain = .val 1) ∧
    ((realEnv .release (1 / 2)).stage = .release ∧ (realEnv .release (1 / 2)).level = 1 / 2 ∧
      (realEnv .release (1 / 2)).release = .val 1 ∧ (realEnv .release (1 / 2)).sustain = .val (1 / 2) ∧
      (realEnv .release (1 / 2)).sr = .val 1 ∧ (0 : ℝ) < 1 / 2) ∧
    (let e : Env ℝ := { realEnv .release 0 with sustain := .val 0 }; e.stage = .release ∧ e.level = 0 ∧ e.sustain = .val 0) := by
  refine ⟨⟨rfl, rfl, rfl, rfl, by norm_num, by norm_num⟩, ⟨rfl, rfl, rfl, rfl, rfl, by norm_num, by norm_num⟩,
    ⟨rfl, rfl, rfl⟩, ⟨rfl, rfl, rfl, rfl, rfl, by norm_num⟩, rfl, rfl, rfl⟩

theorem witness_SvfProc :
    let s := ready .producer [Config.num.one]
    (0 : Arg).toNat < Config.svfNch ∧ s.command.operands = [Config.num.one] ∧ s.command.overlaps = false ∧
    s.svf.f = .val Config.num.one ∧ s.svf.q = .val Config.num.one ∧ s.svf.sr = .val Config.num.two ∧
    s.svf.cutoff = .val Config.num.one ∧ Config.num.gt Config.num.two Config.num.zero = true ∧
    Config.num.gt Config.num.one Config.num.zero = true :=
  ⟨Config.svfNch_pos, rfl, rfl, rfl, rfl, rfl, rfl, Config.two_positive, Config.one_positive⟩
theorem witness_SvfProcRefuses :
    (running .producer [Config.num.one]).svf.f = .unset ∧
    (let s : State := { ready .producer [Config.num.one] with
        svf := { (ready .producer []).svf with sr := .val Config.num.zero } };
      s.svf.f = .val Config.num.one ∧ s.svf.q = .val Config.num.one ∧ s.svf.sr = .val Config.num.zero ∧
      s.svf.cutoff = .val Config.num.one ∧ Config.num.gt Config.num.zero Config.num.zero = false) ∧
    (let s : State := { ready .producer [Config.num.one] with
        svf := { (ready .producer []).svf with cutoff := .val Config.num.zero } };
      s.svf.f = .val Config.num.one ∧ s.svf.q = .val Config.num.one ∧ s.svf.sr = .val Config.num.two ∧
      s.svf.cutoff = .val Config.num.zero ∧ Config.num.gt Config.num.two Config.num.zero = true ∧
      Config.num.gt Config.num.zero Config.num.zero = false) :=
  ⟨rfl, ⟨rfl, rfl, rfl, rfl, Config.zero_not_positive⟩, rfl, rfl, rfl, rfl, Config.two_positive, Config.zero_not_positive⟩
/-- A filter of real numbers with `f = q = 1`. -/
noncomputable def realSvf (band : ℝ) : Svf ℝ 1 :=
  { cutoff := .val 1, res := .val 0, sr := .val 6, f := .val 1, q := .val 1, kind := 0, band := #v[band], low := #v[0] }
theorem witness_RealFilter (band x : ℝ) :
    (realSvf 0).band[0] = 0 ∧ (realSvf 0).low[0] = 0 ∧ (realSvf band).f = .val 1 ∧ (realSvf band).q = .val 1 ∧
    ∃ v' y, svfProc realNum 0 x (realSvf band) = .next (v', y) :=
  ⟨rfl, rfl, rfl, rfl, _, _, (svfProc_eq_next realNum).2
    ⟨Nat.one_pos, 1, 1, 6, 1, rfl, rfl, rfl, rfl, by simp [realNum], by simp [realNum], rfl, rfl⟩⟩

theorem witness_ScopeWriteBegins :
    (running .producer [Config.num.one]).command.operands.length = (1 : Arg).toNat ∧
    (running .producer [Config.num.one]).command.agent = .producer ∧
    (running .producer []).command.operands.length = (0 : Arg).toNat := ⟨rfl, rfl, rfl⟩
theorem witness_WriteEvents (rest : List NumVal) :
    let s : State := { State.reset with schedule := [.producer], writing := some { slot := 0, rest := rest } }
    s.schedule = [.producer] ∧ s.hanging ≠ some .producer ∧ s.writing = some { slot := 0, rest := rest } :=
  ⟨rfl, nofun, rfl⟩
/-- Two samples, the producer's for four steps; a window of the last one of them. -/
theorem witness_ScopeWriteCompletes :
    let c : Command NumVal :=
      { word := encode (.scopeWrite (BitVec.ofNat 24 2)), operands := [Config.num.one, Config.num.two], overlaps := false }
    let s : State := { State.reset with
      producer := { pending := [c], results := [] }, schedule := List.replicate (2 + 2) .producer ++ [] }
    c.operands.length < 2 ^ 24 ∧ c.word = encode (.scopeWrite (BitVec.ofNat 24 c.operands.length)) ∧
    s.hanging ≠ some .producer ∧ s.writing = none ∧ s.producer.pending = [c] ∧ s.scope.cursor < Config.scopeCap ∧
    s.schedule = List.replicate (c.operands.length + 2) .producer ++ [] ∧
    1 ≤ Config.scopeCap ∧ 1 ≤ c.operands.length ∧ 0 < 1 :=
  ⟨by decide, rfl, nofun, rfl, rfl, Config.scopeCap_pos, rfl, Config.scopeCap_pos, by decide, by decide⟩
theorem witness_ScopeSnapBegins :
    (running .consumer []).command.operands = [] ∧ (running .consumer []).command.agent = .consumer ∧
    (1 : Arg).toNat ≤ Config.scopeCap ∧ (0 : Arg).toNat ≤ Config.scopeCap :=
  ⟨rfl, rfl, Config.scopeCap_pos, Nat.zero_le _⟩

/-- A snapshot of one sample, as the consumer presents it. -/
def snapOne (missable : Option Nat) : Command ℚ :=
  { word := encode (.scopeSnap 1), operands := [], overlaps := false, missable := missable }
/-- The block over the rationals with one sample written and published that the consumer has not observed, and snapshots
waiting at the consumer's port. -/
def unobserved (snaps : List (Command ℚ)) (schedule : List Agent) : Block.State ℚ ratParams.svfNch :=
  { Block.State.reset ratParams with
    scope := (Scope.reset.memWrite 0 0 7).storeRelease 1
    consumer := { pending := snaps, results := [] }
    schedule := schedule }
theorem unobserved_Inv (snaps : List (Command ℚ)) (schedule : List Agent) : Inv ratParams (unobserved snaps schedule) := by
  refine ⟨?_, ?_, ?_⟩
  · constructor <;> simp [unobserved, Block.State.reset, Env.reset, Svf.reset, derivedF]
  · have h : (0 : ℚ) = ratParams.num.zero := rfl
    constructor <;>
      simp [unobserved, Block.State.reset, Scope.reset, replay, lastCursor, inOrder, unpublished, nextSlot, ← h, -Prod.forall] <;> decide
  · constructor <;> simp [unobserved, Block.State.reset]
/-- The load, then a step of the producer in which it presents nothing, then the read. -/
theorem witness_QuiescentSnapshot :
    let s := unobserved [snapOne none] [.consumer, .producer, .consumer]
    (1 : Arg).toNat ≤ ratParams.scopeCap ∧ Inv ratParams s ∧ s.writing = none ∧ s.snapping = none ∧
    s.hanging ≠ some .consumer ∧ s.consumer.pending = [snapOne none] ∧ publications s.scope.trail.later = 1 ∧
    s.schedule = .consumer :: [.producer, .consumer] ∧
    Block.State.quiescentFor { s with schedule := [.producer, .consumer] } (1 : Arg).toNat = true ∧
    List.count Agent.consumer (List.take 2 [.producer, .consumer]) = (1 : Arg).toNat :=
  ⟨by decide, unobserved_Inv _ _, rfl, rfl, nofun, rfl, by decide, rfl, rfl, rfl⟩
theorem witness_TwoSnapshotsInARow :
    let s := unobserved [snapOne none, snapOne none] (List.replicate 4 .consumer)
    Inv ratParams s ∧ s.writing = none ∧ s.snapping = none ∧ s.hanging ≠ some .consumer ∧
    s.consumer.pending = snapOne none :: snapOne none :: [] ∧
    s.schedule = List.replicate (2 * ((1 : Arg).toNat + 1)) .consumer ++ [] :=
  ⟨unobserved_Inv _ _, rfl, rfl, nofun, rfl, rfl⟩
/-- The producer stores and publishes a sample between the load and the read. -/
def written (missable : Option Nat) : Block.State ℚ ratParams.svfNch :=
  { unobserved [snapOne missable] [.consumer, .producer, .producer, .producer, .consumer] with
    producer := { pending := [{ word := encode (.scopeWrite 1), operands := [8], overlaps := false }], results := [] } }
theorem written_Inv (missable : Option Nat) : Inv ratParams (written missable) := by
  obtain ⟨⟨a1, a2, a3, a4, a5, a6, a7, a8⟩, ⟨b1, b2, b3, b4, b5, b6, b7, b8, b9, b10, b11, b12, b13⟩, c1, c2⟩ :=
    unobserved_Inv [snapOne missable] [.consumer, .producer, .producer, .producer, .consumer]
  exact ⟨⟨a1, a2, a3, a4, a5, a6, a7, a8⟩, ⟨b1, b2, b3, b4, b5, b6, b7, b8, b9, b10, b11, b12, b13⟩, c1, c2⟩
/-- The result of the snapshot, the number of samples written while it ran, and the cursor. -/
def outcome (r : Result (Block.State ℚ ratParams.svfNch)) : Option (List (Reply ℚ) × Nat × Nat) :=
  match r with
  | .next t => some (t.consumer.results, writesIn t.scope.trail.later, t.scope.cursor)
  | .fault _ => none
  | .refused _ => none
theorem witness_ExactWhileWritesStayOut :
    Inv ratParams (written none) ∧ (written none).writing = none ∧ (written none).snapping = none ∧
    (written none).hanging ≠ some .consumer ∧ (written none).consumer.pending = [snapOne none] ∧
    (List.take 4 [.producer, .producer, .producer, .consumer]).count Agent.consumer = (1 : Arg).toNat ∧
    outcome (repeated (Block.stepAt ratParams) (4 + 1) (written none)) = some ([.num 7], 1, 2) ∧
    Inv ratParams (written (some 0)) ∧ (written (some 0)).writing = none ∧ (snapOne (some 0)).missable = some 0 :=
  ⟨written_Inv _, rfl, rfl, nofun, rfl, rfl, by decide +kernel, written_Inv _, rfl, rfl⟩
/-- The producer's step in between executes nothing, and then stores a sample; and the producer hangs. -/
theorem witness_SnapshotCompletesWhateverTheProducerDoes :
    let s := unobserved [snapOne none] [.consumer, .producer, .consumer]
    let s' := { s with writing := some { slot := 1, rest := [8] } }
    let s'' := { s with hanging := some .producer }
    (1 : Arg).toNat ≤ ratParams.scopeCap ∧ s.snapping = none ∧ s.hanging ≠ some .consumer ∧
    s''.hanging ≠ some .consumer ∧ s'.schedule = s.schedule ∧ s''.schedule = s.schedule ∧
    (s.schedule.take 3).count .consumer = (1 : Arg).toNat + 1 := by decide
/-- V51, as whole steps of the block: the load and the read of the newest publication; R188: a second snapshot with no
write between returns the same. -/
theorem test_steps_of_the_block_over_the_rationals :
    outcome (repeated (Block.stepAt ratParams) 2 (unobserved [snapOne none] [.consumer, .consumer])) =
      some ([.num 7], 0, 1) ∧
    outcome (repeated (Block.stepAt ratParams) 4
      (unobserved [snapOne none, snapOne none] (List.replicate 4 .consumer))) = some ([.num 7, .num 7], 0, 1) := by
  decide +kernel
/-- The same with every free choice `pick`. -/
def ratParamsAt (pick : Nat) : Params ℚ := { ratParams with draw := fun _ => pick }
/-- R67: a load may be of any publication from the last observed one on; with a bound of 0, of the latest only. -/
theorem test_loads (pick : Nat) :
    let s : Block.State ℚ (ratParamsAt pick).svfNch := unobserved [] []
    s.loadChoice (ratParamsAt pick) = 1 - pick % 2 ∧
    Block.State.loadChoice (ratParamsAt pick) { s with command := { s.command with missable := some 0 } } = 1 :=
  ⟨rfl, Block.State.loadChoice_latest _ rfl⟩
/-- R70: a snapshot during which the producer starts no write loads the latest publication, whatever the free choice; one
during which it starts one is not quiescent. -/
theorem test_quiescent_load :
    outcome (repeated (Block.stepAt (ratParamsAt 1)) 2 (unobserved [snapOne none] [.consumer, .consumer])) =
      some ([.num 7], 0, 1) ∧
    (written none).quiescentFor 2 = false ∧ (unobserved [snapOne none] [.consumer, .producer, .consumer]).quiescentFor 2 = true := by
  decide +kernel
/-- R67, R227: a snapshot that a write overlaps may load the reset cursor; two samples are then written while it runs, and
it returns that cursor's window. One of which the host says that it misses no publication returns the sample published
before. -/
theorem test_stale_load_counts_what_it_overlaps :
    outcome (repeated (Block.stepAt (ratParamsAt 1)) 5 (written none)) = some ([.num 0], 2, 2) ∧
    outcome (repeated (Block.stepAt (ratParamsAt 1)) 5 (written (some 0))) = some ([.num 7], 1, 2) := by decide +kernel
/-- The block can be taken in `REAL` (R8, R10). -/
theorem test_real_machine :
    let P := realParams (1 / 1000000) (by norm_num) 1 4095 (fun _ => 0)
    P.svfNch = 2 ∧ P.scopeCap = 4096 ∧
    (Block.State.reset P).perform P .envNext = .next ((Block.State.reset P).reply (.num 0)) :=
  ⟨rfl, rfl, rfl⟩
/-- The last read of a snapshot and one before it, of a slot written since the observed publication. -/
theorem witness_ReadReturns_step (k : Fin 2) :
    let s : State := { State.reset with
      scope := State.reset.scope.memWrite Config.num.zero 0 Config.num.one
      schedule := [.consumer], snapping := some { slot := 0, after := k } };
    s.schedule = .consumer :: [] ∧ s.hanging ≠ some .consumer ∧ s.snapping = some { slot := 0, after := k } ∧
    s.scope.trail.later = [.write 0 Config.num.one] := ⟨rfl, nofun, rfl, rfl⟩
theorem witness_ObservationNeverGoesBack :
    ∃ t, step { State.reset with schedule := [.producer], writing := some { slot := 0, rest := [Config.num.one] } } = .next t :=
  ⟨_, rfl⟩
/-- V52: two samples written since the publication, two slots read. -/
theorem witness_SnapshotIsExact :
    let sc := ((litmus.memWrite 0 3 8).memWrite 0 0 9).storeRelease 1
    sc.trail.baseCursor < 4 ∧ inOrder 4 sc.trail.baseCursor sc.trail.later ∧ 2 ≤ 4 ∧ 1 < 2 ∧
    writesIn sc.trail.later ≤ 4 - 2 := by
  refine ⟨by decide, ⟨rfl, rfl, rfl, trivial⟩, by decide, by decide, by decide⟩
theorem witness_PublicationMakesTheSampleVisible :
    1 < 4 ∧ litmus.cursor < 4 ∧ litmus.trail.later = [] ∧ litmus.trail.baseCursor = litmus.cursor ∧
    litmus.trail.base = litmus.mem := by decide
theorem witness_OnlyTheProducer :
    (waiting .consumer (.scopeSnap 0) []).schedule = [.consumer] ∧
    ∃ t, step (waiting .consumer (.scopeSnap 0) []) = .next t := ⟨rfl, _, rfl⟩
theorem witness_EndedRun :
    (let s : State := { State.reset with schedule := [.producer] };
      s.Ended ∧ ∃ t, step s = .next t) := ⟨⟨rfl, rfl, rfl, rfl, rfl⟩, _, rfl⟩

/-- A format of one value, `x`, in which no comparison holds. -/
def pointNum {α : Type} (x : α) : NumFormat α :=
  { zero := x, one := x, two := x, half := x, headroom := x, resMax := x, pi := x, twoPi := x,
    add := fun _ _ => x, sub := fun _ _ => x, mul := fun _ _ => x, div := fun _ _ => x,
    neg := fun _ => x, abs := fun _ => x, sin := fun _ => x, frac := fun _ => x,
    lt := fun _ _ => false, le := fun _ _ => false, gt := fun _ _ => false, ge := fun _ _ => false, eq := fun _ _ => false }

/-- A format of one value in which every comparison holds, so that the wrap never ends. -/
def hangNum : NumFormat Unit := { pointNum () with gt := fun _ _ => true, ge := fun _ _ => true }
/-- The block over it, with the oscillator's parameters set, an `OSC_NEXT` waiting at the producer's port, and an
`OSC_NEXT` or a snapshot of one sample at the consumer's. -/
def hangParams : Params Unit :=
  { num := hangNum, envEps := (), envEps_positive := rfl, svfExtraChannels := 0, scopeCapLessOne := 3, draw := fun _ => 0 }
def aboutToHang (i : Instr) : Block.State Unit hangParams.svfNch :=
  { Block.State.reset hangParams with
    osc := { phase := (), freq := .val (), sr := .val (), wave := .saw }
    producer := { pending := [{ word := encode .oscNext, operands := [], overlaps := false }], results := [] }
    consumer := { pending := [{ word := encode i, operands := [], overlaps := false }], results := [] }
    schedule := [.producer, .consumer, .producer, .consumer] }
theorem hangNum_wrap : wrapPhase hangNum () = none := by
  cases h : wrapPhase hangNum () with
  | none => rfl
  | some q =>
    refine (wrapPhase.partial_correctness hangNum (fun _ _ => False) ?_ () q h).elim
    intro f ih p r hr
    exact ih _ r hr
theorem witness_OscNextIsStuck (i : Instr) :
    (aboutToHang i).command.operands = [] ∧ (aboutToHang i).command.overlaps = false ∧ (aboutToHang i).hanging = none ∧
    oscNext hangParams.num (aboutToHang i).osc = .next none :=
  ⟨rfl, rfl, rfl, (oscNext_eq_next hangNum).2
    ⟨(), (), rfl, rfl, rfl, rfl, (congrArg (Option.map _) hangNum_wrap).symm⟩⟩
/-- The producer hangs; the consumer's snapshot completes all the same (R73), and its `OSC_NEXT` is refused (R226). -/
theorem test_a_hung_producer_holds_nothing_up :
    (∃ t, repeated (Block.stepAt hangParams) 4 (aboutToHang (.scopeSnap 1)) = .next t ∧ t.hanging = some .producer ∧
      t.consumer.results = [.num ()] ∧ t.snapping = none ∧ t.producer.results = [] ∧
      t.osc = (aboutToHang (.scopeSnap 1)).osc) ∧
    repeated (Block.stepAt hangParams) 2 (aboutToHang .oscNext) = .refused .overlap := by
  have h (i : Instr) : Block.stepAt hangParams (aboutToHang i) = .next { aboutToHang i with
      schedule := [.consumer, .producer, .consumer], hanging := some .producer
      producer := { pending := [], results := [] } } :=
    congrArg (fun r => mapNext _ r) (witness_OscNextIsStuck i).2.2.2
  rw [repeated_succ 3 (h _), repeated_succ 1 (h _)]
  exact ⟨⟨_, rfl, rfl, rfl, rfl, rfl, rfl⟩, rfl⟩

theorem witness_UnitsFollowAnyFormatMap : FormatMap (pointNum true) (pointNum ()) (fun _ => ()) := by
  constructor <;> intros <;> rfl

end Sys2Proof.Tests
end

/-! Proofs of the statements of spec/00_scope.md: a step of the agent that moves, what each unit writes and reads, number
formats, and the units in `REAL`. -/

namespace Sys2Proof.Machine

/-! ### One step of the agent that moves (R11, R12) -/

namespace Block

section

variable {α : Type} {nch : Nat} (P : Params α) {run : Instr → State α nch → Result (State α nch)} {s : State α nch}

@[simp] theorem State.advanceSnap_consumer_pending (p : Snapping) :
    (s.advanceSnap P p).consumer.pending = s.consumer.pending := rfl

theorem issueNext_of_pending {a : Agent} {c : Command α} {rest : List (Command α)} {i : Instr}
    (hp : (s.port a).pending = c :: rest) (hi : decode c.word = some i) :
    issueNext run a s = run i (s.present a { c with missable := s.mayMiss i c } rest) := by
  simp [issueNext, hp, hi]

theorem issueNext_of_nothing_pending {a : Agent} (hp : (s.port a).pending = []) : issueNext run a s = .next s := by
  simp [issueNext, hp]

@[simp] theorem State.port_schedule (a : Agent) (later : List Agent) :
    ({ s with schedule := later } : State α nch).port a = s.port a := by
  cases a <;> rfl

variable [DecidableEq α]

theorem stepWith_of_no_schedule (h : s.schedule = []) : stepWith P run s = .next s := by
  simp [stepWith, h]

theorem stepWith_of_schedule {a : Agent} {later : List Agent} (h : s.schedule = a :: later) :
    stepWith P run s = agentStep P run a { s with schedule := later } := by
  simp [stepWith, h]

/-- An agent inside no operation goes on to its next command. -/
theorem stepWith_of_issues {a : Agent} {later : List Agent} (h : s.Issues a later) :
    stepWith P run s = issueNext run a { s with schedule := later } := by
  obtain ⟨hs, hh, hw, hp⟩ := h
  rw [stepWith_of_schedule P hs]
  cases a with
  | producer => simp [agentStep, hh, hw rfl]
  | consumer => simp [agentStep, hh, hp rfl]

theorem stepWith_of_writing {later : List Agent} {w : Writing α} (hs : s.schedule = .producer :: later)
    (hh : s.hanging ≠ some .producer) (hw : s.writing = some w) :
    stepWith P run s = .next (({ s with schedule := later } : State α nch).advanceWrite P w) := by
  simp [stepWith_of_schedule P hs, agentStep, hh, hw]

theorem stepWith_of_snapping {later : List Agent} {p : Snapping} (hs : s.schedule = .consumer :: later)
    (hh : s.hanging ≠ some .consumer) (hp : s.snapping = some p) :
    stepWith P run s = .next (({ s with schedule := later } : State α nch).advanceSnap P p) := by
  simp [stepWith_of_schedule P hs, agentStep, hh, hp]

theorem stepWith_of_hanging {a : Agent} {later : List Agent} (hs : s.schedule = a :: later)
    (hh : s.hanging = some a) : stepWith P run s = .next { s with schedule := later } := by
  simp [stepWith_of_schedule P hs, agentStep, hh]

end

end Block

/-- Settles O7: an agent inside no operation issues, and presenting a command is the update that the statement names. -/
theorem stepExecutesTheDecodedCommand : Obligations.StepExecutesTheDecodedCommand := by
  intro s a later c rest i hs hp hi
  rw [step, Block.stepWith_of_issues _ hs, Block.issueNext_of_pending (by simpa using hp) hi]
  cases a <;> rfl

/-- Settles O8: the step of an empty schedule, and that of an agent whose port is empty. -/
theorem blockTakesNoStepOfItsOwn : Obligations.BlockTakesNoStepOfItsOwn := by
  refine ⟨fun s hs => Block.stepWith_of_no_schedule _ hs, fun s a later hs hp => ?_⟩
  rw [step, Block.stepWith_of_issues _ hs, Block.issueNext_of_nothing_pending (by simpa using hp)]

/-- Settles O9: the step is the next event of the operation in progress, or that of an agent that hangs. -/
theorem busyAgentPresentsNoCommand : Obligations.BusyAgentPresentsNoCommand := by
  refine ⟨fun s later w hs hh hw => ?_, fun s later p hs hh hp => ?_, fun s a later hs hh => ?_⟩
  · exact ⟨_, Block.stepWith_of_writing _ hs hh hw, by simp⟩
  · exact ⟨_, Block.stepWith_of_snapping _ hs hh hp, by simp⟩
  · exact Block.stepWith_of_hanging _ hs hh

/-- Settles O59: of the cases of a completed step only those that change at most the schedule are left. -/
theorem endedRunStaysEnded : Obligations.EndedRunStaysEnded := by
  rintro s t ⟨hprod, hcons, hw, hsnap, hh⟩ hstep
  obtain ⟨-, rfl⟩ | ⟨a, later, -, hcase⟩ := step_next hstep
  · exact ⟨⟨hprod, hcons, hw, hsnap, hh⟩, rfl, rfl, rfl, rfl⟩
  have hp : (s.port a).pending = [] := by cases a <;> assumption
  obtain ⟨w, -, -, hw', -⟩ | ⟨p, -, -, hp', -⟩ | ⟨-, rfl⟩ | ⟨c, rest, i, hc, -⟩ := hcase
  · simp [hw] at hw'
  · simp [hsnap] at hp'
  · exact ⟨⟨hprod, hcons, hw, hsnap, hh⟩, rfl, rfl, rfl, rfl⟩
  · simp [hp] at hc

/-! ### The unit of each operation (R82) -/

@[simp] theorem unitOf_oscSetSr : unitOf .oscSetSr = 1 := rfl
@[simp] theorem unitOf_oscSetFreq : unitOf .oscSetFreq = 1 := rfl
@[simp] theorem unitOf_oscSetWave (wave : Arg) : unitOf (.oscSetWave wave) = 1 := by simp [unitOf, Instr.opcode]
@[simp] theorem unitOf_oscNext : unitOf .oscNext = 1 := rfl
@[simp] theorem unitOf_envSetSr : unitOf .envSetSr = 2 := rfl
@[simp] theorem unitOf_envSetParams : unitOf .envSetParams = 2 := rfl
@[simp] theorem unitOf_envEnter (stage : Arg) : unitOf (.envEnter stage) = 2 := by simp [unitOf, Instr.opcode]
@[simp] theorem unitOf_envNext : unitOf .envNext = 2 := rfl
@[simp] theorem unitOf_envActive : unitOf .envActive = 2 := rfl
@[simp] theorem unitOf_svfSetSr : unitOf .svfSetSr = 3 := rfl
@[simp] theorem unitOf_svfSetCutoff : unitOf .svfSetCutoff = 3 := rfl
@[simp] theorem unitOf_svfSetRes : unitOf .svfSetRes = 3 := rfl
@[simp] theorem unitOf_svfSetType (kind : Arg) : unitOf (.svfSetType kind) = 3 := by simp [unitOf, Instr.opcode]
@[simp] theorem unitOf_svfProc (ch : Arg) : unitOf (.svfProc ch) = 3 := by simp [unitOf, Instr.opcode]
@[simp] theorem unitOf_scopeWrite (count : Arg) : unitOf (.scopeWrite count) = 4 := by simp [unitOf, Instr.opcode]
@[simp] theorem unitOf_scopeSnap (count : Arg) : unitOf (.scopeSnap count) = 4 := by simp [unitOf, Instr.opcode]

/-! ### What an operation writes (R2) -/

namespace Block

section

variable {α : Type} {nch : Nat}

/-- `t` is `s` with nothing changed outside unit `u` (R82): the frame of R2, with which agent hangs as part of OSC (log
entry 21), and operations in progress and free choices as part of SCOPE (log entries 4, 6). -/
def OnlyUnit (u : Nat) (s t : State α nch) : Prop :=
  (u ≠ 1 → t.osc = s.osc ∧ t.hanging = s.hanging) ∧ (u ≠ 2 → t.env = s.env) ∧ (u ≠ 3 → t.svf = s.svf) ∧
  (u ≠ 4 → t.scope = s.scope ∧ t.writing = s.writing ∧ t.snapping = s.snapping ∧ t.draws = s.draws)

theorem OnlyUnit.refl (u : Nat) (s : State α nch) : OnlyUnit u s s := by simp [OnlyUnit]

theorem onlyUnit_withOsc (s : State α nch) (o : Osc α) : OnlyUnit 1 s (s.withOsc o) := by simp [OnlyUnit]

theorem onlyUnit_hanging (s : State α nch) (a : Option Agent) : OnlyUnit 1 s { s with hanging := a } := by
  simp [OnlyUnit]

theorem onlyUnit_withEnv (s : State α nch) (e : Env α) : OnlyUnit 2 s (s.withEnv e) := by simp [OnlyUnit]

theorem onlyUnit_withSvf (s : State α nch) (v : Svf α nch) : OnlyUnit 3 s (s.withSvf v) := by simp [OnlyUnit]

theorem onlyUnit_scope (s : State α nch) (sc : Scope α) (w : Option (Writing α)) (p : Option Snapping) (d : Nat) :
    OnlyUnit 4 s { s with scope := sc, writing := w, snapping := p, draws := d } := by simp [OnlyUnit]

/-- A result goes to a port, which is part of no unit. -/
theorem OnlyUnit.reply {u : Nat} {s t : State α nch} (h : OnlyUnit u s t) (v : Reply α) :
    OnlyUnit u s (t.reply v) := by simpa [OnlyUnit] using h

variable [DecidableEq α] (P : Params α)

theorem Effect.onlyUnit {i : Instr} {s t : State α nch} (h : Effect P s t i) : OnlyUnit (unitOf i) s t := by
  cases i
  case oscSetSr | oscSetFreq => obtain ⟨-, rfl⟩ := h; exact onlyUnit_withOsc s _
  case oscSetWave => rw [unitOf_oscSetWave]; obtain ⟨-, w, -, rfl⟩ := h; exact onlyUnit_withOsc s _
  case oscNext =>
    obtain ⟨-, ⟨o, out, -, rfl⟩ | ⟨-, rfl⟩⟩ := h
    · exact (onlyUnit_withOsc s o).reply _
    · exact onlyUnit_hanging s _
  case envSetSr | envSetParams => obtain rfl := h; exact onlyUnit_withEnv s _
  case envEnter => rw [unitOf_envEnter]; obtain ⟨k, -, rfl⟩ := h; exact onlyUnit_withEnv s _
  case envNext => obtain ⟨e, -, rfl⟩ := h; exact (onlyUnit_withEnv s e).reply _
  case envActive => obtain rfl := h; exact (OnlyUnit.refl 2 s).reply _
  case svfSetSr | svfSetCutoff | svfSetRes => obtain rfl := h; exact onlyUnit_withSvf s _
  case svfSetType => rw [unitOf_svfSetType]; obtain rfl := h; exact onlyUnit_withSvf s _
  case svfProc => rw [unitOf_svfProc]; obtain ⟨v, y, -, rfl⟩ := h; exact (onlyUnit_withSvf s v).reply _
  case scopeWrite => rw [unitOf_scopeWrite]; obtain ⟨-, rfl⟩ := h; exact onlyUnit_scope s s.scope _ s.snapping s.draws
  case scopeSnap => rw [unitOf_scopeSnap]; obtain ⟨-, -, rfl⟩ := h; exact onlyUnit_scope s _ s.writing _ _

end

end Block

/-- Settles O18: the state an operation leaves is, case by case, an update of its own unit. -/
theorem unitsWriteNoOtherUnit : Obligations.UnitsWriteNoOtherUnit :=
  fun _ _ _ h => (exec_next h).2.onlyUnit

/-! ### When an operation completes (R88, R226) -/

namespace Block

section

variable {α : Type} {nch : Nat} [DecidableEq α] (P : Params α)

/-- An operation of OSC, ENV or SVF that completes overlaps no other on its unit (R226). -/
theorem perform_next_overlaps {i : Instr} {s t : State α nch} (h : s.perform P i = .next t) (hu : unitOf i ≠ 4) :
    s.command.overlaps = false := by
  cases i
  case oscSetSr | oscSetFreq | oscSetWave | oscNext => obtain ⟨-, hov, -⟩ := State.onOsc_eq_next.1 h; exact hov
  case scopeWrite | scopeSnap => simp at hu
  all_goals obtain ⟨-, hov, -⟩ := State.onUnit_eq_next.1 h; exact hov

/-- The converse of `perform_next`: a well-formed command that does not overlap does what its `Effect` says. -/
theorem perform_of_effect {i : Instr} {s t : State α nch} (hn : s.command.operands.length = i.operandCount)
    (hov : unitOf i ≠ 4 → s.command.overlaps = false) (h : Effect P s t i) : s.perform P i = .next t := by
  cases i
  case oscSetSr | oscSetFreq => obtain ⟨hh, rfl⟩ := h; exact State.onOsc_pass hn (hov (by simp)) hh
  case oscSetWave =>
    obtain ⟨hh, w, hw, rfl⟩ := h
    exact (State.onOsc_pass hn (hov (by simp)) hh).trans (by simp only [hw])
  case oscNext =>
    obtain ⟨hh, ⟨o, out, ho, rfl⟩ | ⟨ho, rfl⟩⟩ := h <;>
      exact (State.onOsc_pass hn (hov (by simp)) hh).trans (by rw [ho]; rfl)
  case envEnter =>
    obtain ⟨k, hk, rfl⟩ := h
    exact (State.onUnit_pass hn (hov (by simp))).trans (by simp only [hk])
  case envNext =>
    obtain ⟨e, he, rfl⟩ := h
    exact (State.onUnit_pass hn (hov (by simp))).trans (by rw [he]; rfl)
  case envSetSr | envSetParams | envActive | svfSetSr | svfSetCutoff | svfSetRes | svfSetType =>
    obtain rfl := h; exact State.onUnit_pass hn (hov (by simp))
  case svfProc =>
    obtain ⟨v, y, hv, rfl⟩ := h
    exact (State.onUnit_pass hn (hov (by simp))).trans (by rw [hv]; rfl)
  case scopeWrite => obtain ⟨ha, rfl⟩ := h; exact State.onScope_pass hn ha
  case scopeSnap =>
    obtain ⟨ha, hc, rfl⟩ := h
    exact (State.onScope_pass hn ha).trans (if_neg (Nat.not_lt.2 hc))

/-- When an operation completes, and with what state. -/
theorem perform_eq_next {i : Instr} {s t : State α nch} :
    s.perform P i = .next t ↔
      s.command.operands.length = i.operandCount ∧ (unitOf i ≠ 4 → s.command.overlaps = false) ∧ Effect P s t i :=
  ⟨fun h => ⟨(perform_next P h).1, perform_next_overlaps P h, (perform_next P h).2⟩,
    fun ⟨hn, hov, h⟩ => perform_of_effect P hn hov h⟩

end

end Block

/-! ### What an operation reads (R2) -/

namespace Block

section

variable {α : Type} {nch : Nat}

/-- The two states have the same in the unit of the operation `i`, with which agent hangs as part of OSC and the number
of free choices made as part of SCOPE (log entries 4, 21). -/
def SameUnit (i : Instr) (s s' : State α nch) : Prop :=
  (unitOf i = 1 → s'.osc = s.osc ∧ s'.hanging = s.hanging) ∧ (unitOf i = 2 → s'.env = s.env) ∧
  (unitOf i = 3 → s'.svf = s.svf) ∧ (unitOf i = 4 → s'.scope = s.scope ∧ s'.draws = s.draws)

/-- From `s'` to `t'` agent `a` is returned what it is returned from `s` to `t`. -/
def SameReplies (a : Agent) (s t s' t' : State α nch) : Prop :=
  ∃ out, (t.port a).results = (s.port a).results ++ out ∧ (t'.port a).results = (s'.port a).results ++ out

theorem SameReplies.returned {a : Agent} {s t s' t' : State α nch} (h : SameReplies a s t s' t')
    {returned : List (Reply α)} (hr : (t.port a).results = (s.port a).results ++ returned) :
    (t'.port a).results = (s'.port a).results ++ returned := by
  obtain ⟨out, ht, ht'⟩ := h
  obtain rfl : out = returned := List.append_cancel_left (ht.symm.trans hr)
  exact ht'

theorem sameReplies_of_ports {a : Agent} {s t s' t' : State α nch} (h : t.port a = s.port a)
    (h' : t'.port a = s'.port a) : SameReplies a s t s' t' := ⟨[], by simp [h, h']⟩

/-- The operation `i` does from `s'` to `t'` what it does from `s` to `t`: to its unit, to its own operation in progress,
and in what it returns. -/
structure SameDone (i : Instr) (s t s' t' : State α nch) : Prop where
  unit : SameUnit i t t'
  writing : ∀ count, i = .scopeWrite count → t'.writing = t.writing
  snapping : ∀ count, i = .scopeSnap count → t'.snapping = t.snapping
  replies : SameReplies s.command.agent s t s' t'

@[simp] theorem State.withOsc_port (s : State α nch) (o : Osc α) (a : Agent) : (s.withOsc o).port a = s.port a := by
  cases a <;> rfl

@[simp] theorem State.withEnv_port (s : State α nch) (e : Env α) (a : Agent) : (s.withEnv e).port a = s.port a := by
  cases a <;> rfl

@[simp] theorem State.withSvf_port (s : State α nch) (v : Svf α nch) (a : Agent) :
    (s.withSvf v).port a = s.port a := by cases a <;> rfl

/-- An operation of OSC, ENV or SVF has no steps of its own in progress. -/
theorem SameDone.of_unit {i : Instr} {s t s' t' : State α nch} (hi : unitOf i ≠ 4) (hu : SameUnit i t t')
    (hr : SameReplies s.command.agent s t s' t') : SameDone i s t s' t' :=
  ⟨hu, fun count h => absurd (unitOf_scopeWrite count) (h ▸ hi),
    fun count h => absurd (unitOf_scopeSnap count) (h ▸ hi), hr⟩

theorem sameDone_withOsc {i : Instr} {s s' : State α nch} (hi : unitOf i = 1) (hh : s'.hanging = s.hanging)
    (o : Osc α) : SameDone i s (s.withOsc o) s' (s'.withOsc o) :=
  .of_unit (by simp [hi]) (by simp [SameUnit, hi, hh]) (sameReplies_of_ports (by simp) (by simp))

theorem sameDone_withEnv {i : Instr} (hi : unitOf i = 2) (s s' : State α nch) (e : Env α) :
    SameDone i s (s.withEnv e) s' (s'.withEnv e) :=
  .of_unit (by simp [hi]) (by simp [SameUnit, hi]) (sameReplies_of_ports (by simp) (by simp))

theorem sameDone_withSvf {i : Instr} (hi : unitOf i = 3) (s s' : State α nch) (v : Svf α nch) :
    SameDone i s (s.withSvf v) s' (s'.withSvf v) :=
  .of_unit (by simp [hi]) (by simp [SameUnit, hi]) (sameReplies_of_ports (by simp) (by simp))

/-- One more result of the same value, to the issuer. -/
theorem SameDone.reply {i : Instr} {s t s' t' : State α nch} (h : SameDone i s t s' t')
    (ht : t.command = s.command) (ht' : t'.command = s.command) (v : Reply α) :
    SameDone i s (t.reply v) s' (t'.reply v) := by
  obtain ⟨hu, hw, hp, out, hr, hr'⟩ := h
  refine ⟨by simpa [SameUnit] using hu, by simpa using hw, by simpa using hp, out ++ [v], ?_, ?_⟩
  · simp [State.reply, ht, hr]
  · simp [State.reply, ht', hr']

end

section

variable {α : Type} {nch : Nat} [DecidableEq α] (P : Params α)

/-- What an operation does depends on the command and its own unit alone. -/
theorem Effect.sameDone {i : Instr} {s t s' : State α nch} (h : Effect P s t i) (hc : s'.command = s.command)
    (hu : SameUnit i s s') : ∃ t', Effect P s' t' i ∧ SameDone i s t s' t' := by
  have hop : s'.operand P = s.operand P := by funext k; rw [State.operand, State.operand, hc]
  obtain ⟨h1, h2, h3, h4⟩ := hu
  cases i
  case oscSetSr | oscSetFreq =>
    obtain ⟨ho, hh⟩ := h1 (by simp)
    obtain ⟨hn, rfl⟩ := h
    exact ⟨_, ⟨hh.trans hn, by rw [ho, hop]⟩, sameDone_withOsc (by simp) hh _⟩
  case oscSetWave =>
    obtain ⟨ho, hh⟩ := h1 (by simp)
    obtain ⟨hn, w, hw, rfl⟩ := h
    exact ⟨_, ⟨hh.trans hn, w, hw, by rw [ho]⟩, sameDone_withOsc (by simp) hh _⟩
  case oscNext =>
    obtain ⟨ho, hh⟩ := h1 (by simp)
    obtain ⟨hn, ⟨o, out, hnext, rfl⟩ | ⟨hnext, rfl⟩⟩ := h
    · exact ⟨_, ⟨hh.trans hn, .inl ⟨o, out, ho ▸ hnext, rfl⟩⟩,
        (sameDone_withOsc (by simp) hh o).reply (by simp) (by simp [hc]) _⟩
    · refine ⟨_, ⟨hh.trans hn, .inr ⟨ho ▸ hnext, rfl⟩⟩, .of_unit (by simp) (by simp [SameUnit, ho, hc]) ?_⟩
      cases ha : s.command.agent <;> exact sameReplies_of_ports rfl rfl
  case envSetSr | envSetParams =>
    obtain rfl := h
    exact ⟨_, by rw [Effect, h2 (by simp), hop], sameDone_withEnv (by simp) s s' _⟩
  case envEnter =>
    obtain ⟨k, hk, rfl⟩ := h
    exact ⟨_, ⟨k, hk, by rw [h2 (by simp)]⟩, sameDone_withEnv (by simp) s s' _⟩
  case envNext =>
    obtain ⟨e, he, rfl⟩ := h
    exact ⟨_, ⟨e, h2 (by simp) ▸ he, rfl⟩, (sameDone_withEnv (by simp) s s' e).reply (by simp) (by simp [hc]) _⟩
  case envActive =>
    obtain rfl := h
    have he := h2 (by simp)
    exact ⟨_, by rw [Effect, he],
      (SameDone.of_unit (by simp) (by simp [SameUnit, he]) (sameReplies_of_ports rfl rfl)).reply rfl hc _⟩
  case svfSetSr | svfSetCutoff | svfSetRes =>
    obtain rfl := h
    exact ⟨_, by rw [Effect, h3 (by simp), hop], sameDone_withSvf (by simp) s s' _⟩
  case svfSetType =>
    obtain rfl := h
    exact ⟨_, by rw [Effect, h3 (by simp)], sameDone_withSvf (by simp) s s' _⟩
  case svfProc =>
    obtain ⟨v, y, hv, rfl⟩ := h
    exact ⟨_, ⟨v, y, by rw [h3 (by simp), hop]; exact hv, rfl⟩,
      (sameDone_withSvf (by simp) s s' v).reply (by simp) (by simp [hc]) _⟩
  case scopeWrite =>
    obtain ⟨hs, hd⟩ := h4 (by simp)
    obtain ⟨ha, rfl⟩ := h
    exact ⟨_, ⟨hc ▸ ha, rfl⟩, by simp [SameUnit, hs, hd], by simp [hs, hc], by simp,
      by rw [ha]; exact sameReplies_of_ports rfl rfl⟩
  case scopeSnap =>
    obtain ⟨hs, hd⟩ := h4 (by simp)
    obtain ⟨ha, hcount, rfl⟩ := h
    have hload : s'.loadChoice P = s.loadChoice P := by simp [State.loadChoice, hs, hd, hc]
    exact ⟨_, ⟨hc ▸ ha, hcount, rfl⟩, by simp [SameUnit, hs, hd, hload], by simp, by simp [hs, hload],
      by rw [ha]; exact sameReplies_of_ports rfl rfl⟩

end

end Block

/-- Settles O19: the checks before a meaning look at the command alone, and the effect at the operation's own unit. -/
theorem unitsReadNoOtherUnit : Obligations.UnitsReadNoOtherUnit := by
  intro i s s' t h hc h1 h2 h3 h4
  obtain ⟨hn, hov, he⟩ := (Block.perform_eq_next Config.params).1 (exec_eq_perform i s ▸ h)
  obtain ⟨t', he', ⟨g1, g2, g3, g4⟩, hw, hp, hr⟩ := he.sameDone Config.params hc ⟨h1, h2, h3, h4⟩
  refine ⟨t', ?_, g1, g2, g3, fun hi => (g4 hi).1, hw, hp, fun returned => hr.returned⟩
  rw [exec_eq_perform]
  exact (Block.perform_eq_next Config.params).2 ⟨hc ▸ hn, hc ▸ hov, he'⟩

/-! ### A map of number formats (R9) -/

section

variable {α β : Type} (g : α → β)

@[simp] theorem Param.map_unset : (Param.unset : Param α).map g = .unset := rfl
@[simp] theorem Param.map_val (x : α) : (Param.val x).map g = .val (g x) := rfl

@[simp] theorem Osc.map_phase (o : Osc α) : (o.map g).phase = g o.phase := rfl
@[simp] theorem Osc.map_freq (o : Osc α) : (o.map g).freq = o.freq.map g := rfl
@[simp] theorem Osc.map_sr (o : Osc α) : (o.map g).sr = o.sr.map g := rfl
@[simp] theorem Osc.map_wave (o : Osc α) : (o.map g).wave = o.wave := rfl

@[simp] theorem Env.map_stage (e : Env α) : (e.map g).stage = e.stage := rfl
@[simp] theorem Env.map_level (e : Env α) : (e.map g).level = g e.level := rfl
@[simp] theorem Env.map_attack (e : Env α) : (e.map g).attack = e.attack.map g := rfl
@[simp] theorem Env.map_decay (e : Env α) : (e.map g).decay = e.decay.map g := rfl
@[simp] theorem Env.map_sustain (e : Env α) : (e.map g).sustain = e.sustain.map g := rfl
@[simp] theorem Env.map_release (e : Env α) : (e.map g).release = e.release.map g := rfl
@[simp] theorem Env.map_sr (e : Env α) : (e.map g).sr = e.sr.map g := rfl

variable {nch : Nat} (v : Svf α nch)

@[simp] theorem Svf.map_cutoff : (v.map g).cutoff = v.cutoff.map g := rfl
@[simp] theorem Svf.map_sr : (v.map g).sr = v.sr.map g := rfl
@[simp] theorem Svf.map_f : (v.map g).f = v.f.map g := rfl
@[simp] theorem Svf.map_q : (v.map g).q = v.q.map g := rfl
@[simp] theorem Svf.map_kind : (v.map g).kind = v.kind := rfl
@[simp] theorem Svf.map_band : (v.map g).band = v.band.map g := rfl
@[simp] theorem Svf.map_low : (v.map g).low = v.low.map g := rfl

/-- The four outputs with their values mapped. -/
def Taps.map (y : Taps α) : Taps β :=
  { low := g y.low, high := g y.high, band := g y.band, notch := g y.notch }

theorem selectTap_map (kind : Arg) (y : Taps α) : selectTap kind (y.map g) = g (selectTap kind y) := by
  simp only [selectTap, Taps.map, apply_ite g]

end

section

variable {α β : Type} {N : NumFormat α} {M : NumFormat β} {g : α → β} (hg : FormatMap N M g)
include hg

theorem oscIncrement_map (freq sr : α) : oscIncrement M (g freq) (g sr) = g (oscIncrement N freq sr) := by
  simp [oscIncrement, hg.div, hg.mul, hg.twoPi]

theorem triangleValue_map (t : α) : triangleValue M (g t) = g (triangleValue N t) := by
  simp [triangleValue, hg.sub, hg.mul, hg.abs, hg.one, hg.two]

theorem blep_map (t dt : α) : blep M (g t) (g dt) = g (blep N t dt) := by
  have hfirst : M.lt (g t) (g dt) = N.lt t dt := hg.lt t dt
  have hlast : M.gt (g t) (M.sub M.one (g dt)) = N.gt t (N.sub N.one dt) := by rw [← hg.one, ← hg.sub, hg.gt]
  unfold blep
  rw [hfirst, hlast]
  split
  · simp [hg.sub, hg.mul, hg.div, hg.one, hg.two]
  · split
    · simp [hg.add, hg.sub, hg.mul, hg.div, hg.one, hg.two]
    · exact hg.zero.symm

theorem sawValue_map (t dt : α) : sawValue M (g t) (g dt) = g (sawValue N t dt) := by
  simp [sawValue, blep_map hg, hg.sub, hg.mul, hg.one, hg.two]

theorem stepValue_map (t : α) : stepValue M (g t) = g (stepValue N t) := by
  unfold stepValue
  rw [← hg.half, hg.lt]
  split
  · exact hg.one.symm
  · rw [hg.neg, hg.one]

theorem halfTurnOn_map (t : α) : halfTurnOn M (g t) = g (halfTurnOn N t) := by
  simp only [halfTurnOn, ← hg.half, ← hg.one, ← hg.add, ← hg.sub, hg.lt]
  split <;> rfl

theorem squareValue_map (t dt : α) : squareValue M (g t) (g dt) = g (squareValue N t dt) := by
  simp [squareValue, stepValue_map hg, halfTurnOn_map hg, blep_map hg, hg.sub, hg.add]

theorem waveValue_map (wave : Wave) (phase inc : α) :
    waveValue M wave (g phase) (g inc) = g (waveValue N wave phase inc) := by
  unfold waveValue
  simp only [← hg.twoPi, ← hg.div]
  cases wave with
  | sine => exact (hg.sin phase).symm
  | triangle => exact triangleValue_map hg _
  | saw => exact sawValue_map hg _ _
  | square => exact squareValue_map hg _ _

/-- A wrap loop that ends in one format ends in the other, in the phase that goes with it. -/
theorem wrapPhase_map_of_some {p q : α} (h : wrapPhase N p = some q) : wrapPhase M (g p) = some (g q) := by
  refine wrapPhase.partial_correctness N (fun p q => wrapPhase M (g p) = some (g q)) ?_ p q h
  intro f ih p r hr
  have hge : M.ge (g p) M.twoPi = N.ge p N.twoPi := by rw [← hg.twoPi, hg.ge]
  split at hr
  · next hp =>
    rw [wrapPhase_above M (hge.trans hp), ← hg.twoPi, ← hg.sub]
    exact ih _ _ hr
  · next hp =>
    obtain rfl : p = r := by simpa using hr
    exact wrapPhase_below M (hge.trans (by simpa using hp))

theorem exists_of_wrapPhase_map {p : α} {r : β} (h : wrapPhase M (g p) = some r) :
    ∃ q, wrapPhase N p = some q := by
  refine wrapPhase.partial_correctness M (fun x _ => ∀ p, g p = x → ∃ q, wrapPhase N p = some q) ?_ (g p) r h p rfl
  rintro f ih _ r hr p rfl
  have hge : M.ge (g p) M.twoPi = N.ge p N.twoPi := by rw [← hg.twoPi, hg.ge]
  split at hr
  · next hp =>
    rw [wrapPhase_above N (hge.symm.trans hp)]
    exact ih _ _ hr _ (by rw [hg.sub, hg.twoPi])
  · next hp => exact ⟨p, wrapPhase_below N (hge.symm.trans (by simpa using hp))⟩

/-- The wrap loop carries over, and so does one that never ends. -/
theorem wrapPhase_map (p : α) : wrapPhase M (g p) = (wrapPhase N p).map g := by
  cases h : wrapPhase N p with
  | some q => exact wrapPhase_map_of_some hg h
  | none =>
    cases h' : wrapPhase M (g p) with
    | none => rfl
    | some r =>
      obtain ⟨q, hq⟩ := exists_of_wrapPhase_map hg h'
      simp [h] at hq

theorem positive_map (x : α) : M.gt (g x) M.zero = N.gt x N.zero := by rw [← hg.zero, hg.gt]

theorem oscNext_map (o : Osc α) :
    oscNext M (o.map g) = mapNext (Option.map fun r => (r.1.map g, g r.2)) (oscNext N o) := by
  unfold oscNext
  simp only [Osc.map_freq, Osc.map_sr, Osc.map_phase, Osc.map_wave]
  cases o.freq <;> cases o.sr <;> try rfl
  simp only [Param.map_val, positive_map hg, oscIncrement_map hg, waveValue_map hg, ← hg.add, ← hg.headroom, ← hg.mul,
    wrapPhase_map hg]
  split
  · rfl
  split
  · rfl
  simp only [mapNext_next, Option.map_map]
  rfl

theorem guardTime_map (eps x : α) : guardTime M (g eps) (g x) = g (guardTime N eps x) := by
  simp only [guardTime, hg.lt]
  split <;> rfl

theorem envSetParams_map (eps a d u r : α) (e : Env α) :
    envSetParams M (g eps) (g a) (g d) (g u) (g r) (e.map g) = (envSetParams N eps a d u r e).map g := by
  simp [envSetParams, Env.map, Param.map, guardTime_map hg]

theorem envEnter_map (k : Stage) (e : Env α) : envEnter M k (e.map g) = (envEnter N k e).map g := by
  cases k with
  | off => simp [envEnter, Env.map, hg.zero]
  | attack | decay | sustain | release => rfl

theorem attackStep_map (a sr : α) (e : Env α) :
    attackStep M (g a) (g sr) (e.map g) = (attackStep N a sr e).map g := by
  simp only [attackStep, Env.map, ← hg.one, ← hg.mul, ← hg.div, ← hg.add, hg.ge]
  split <;> rfl

theorem decayStep_map (d u sr : α) (e : Env α) :
    decayStep M (g d) (g u) (g sr) (e.map g) = (decayStep N d u sr e).map g := by
  simp only [decayStep, Env.map, ← hg.one, ← hg.mul, ← hg.div, ← hg.sub, hg.le]
  split <;> rfl

theorem releaseStep_map (r u sr : α) (e : Env α) :
    releaseStep M (g r) (g u) (g sr) (e.map g) = (releaseStep N r u sr e).map g := by
  simp only [releaseStep, Env.map, ← hg.zero, ← hg.mul, ← hg.div, ← hg.sub, hg.le]
  split <;> rfl

theorem envNext_map (e : Env α) : envNext M (e.map g) = mapNext (fun e => e.map g) (envNext N e) := by
  unfold envNext
  simp only [Env.map_stage, Env.map_attack, Env.map_decay, Env.map_sustain, Env.map_release, Env.map_sr]
  cases e.stage with
  | off => simp [Env.map, hg.zero]
  | attack =>
    cases e.attack <;> cases e.sr <;> try rfl
    simp only [Param.map_val, positive_map hg, attackStep_map hg]
    split <;> rfl
  | decay =>
    cases e.decay <;> cases e.sustain <;> cases e.sr <;> try rfl
    simp only [Param.map_val, positive_map hg, decayStep_map hg]
    split <;> rfl
  | sustain => cases e.sustain <;> rfl
  | release =>
    cases e.release <;> cases e.sustain <;> cases e.sr <;> try rfl
    simp only [Param.map_val, positive_map hg, releaseStep_map hg]
    split <;> rfl

theorem cutoffCoefficient_map (cutoff sr : α) :
    cutoffCoefficient M (g cutoff) (g sr) = g (cutoffCoefficient N cutoff sr) := by
  simp [cutoffCoefficient, hg.mul, hg.two, hg.sin, hg.div, hg.pi]

theorem derivedF_map (cutoff sr : Param α) : derivedF M (cutoff.map g) (sr.map g) = (derivedF N cutoff sr).map g := by
  cases cutoff <;> cases sr <;> try rfl
  exact congrArg Param.val (cutoffCoefficient_map hg _ _)

variable {nch : Nat}

theorem recomputeF_map (v : Svf α nch) : recomputeF M (v.map g) = (recomputeF N v).map g := by
  simp [recomputeF, Svf.map, derivedF_map hg]

theorem svfSetSr_map (x : α) (v : Svf α nch) : svfSetSr M (g x) (v.map g) = (svfSetSr N x v).map g :=
  recomputeF_map hg { v with sr := .val x }

theorem svfSetCutoff_map (x : α) (v : Svf α nch) : svfSetCutoff M (g x) (v.map g) = (svfSetCutoff N x v).map g :=
  recomputeF_map hg { v with cutoff := .val x }

theorem clampRes_map (r : α) : clampRes M (g r) = g (clampRes N r) := by
  simp only [clampRes, ← hg.resMax, ← hg.zero, ← apply_ite g, hg.lt, hg.gt]

theorem svfSetRes_map (x : α) (v : Svf α nch) : svfSetRes M (g x) (v.map g) = (svfSetRes N x v).map g := by
  simp [svfSetRes, Svf.map, Param.map, clampRes_map hg, hg.sub, hg.one]

theorem svfTaps_map (f q x low band : α) :
    svfTaps M (g f) (g q) (g x) (g low) (g band) = (svfTaps N f q x low band).map g := by
  simp [svfTaps, Taps.map, hg.add, hg.sub, hg.mul]

theorem svfProc_map (ch : Nat) (x : α) (v : Svf α nch) :
    svfProc M ch (g x) (v.map g) = mapNext (fun r => (r.1.map g, g r.2)) (svfProc N ch x v) := by
  unfold svfProc
  split
  · simp only [Svf.map_f, Svf.map_q, Svf.map_sr, Svf.map_cutoff, Svf.map_kind, Svf.map_low, Svf.map_band,
      Vector.getElem_map]
    cases v.f <;> cases v.q <;> cases v.sr <;> cases v.cutoff <;> try rfl
    simp only [Param.map_val, positive_map hg, svfTaps_map hg, selectTap_map]
    split
    · rfl
    split
    · rfl
    simp [Svf.map, Taps.map, Vector.map_set]
  · rfl

end

/-- Settles O60: every calculation of a unit is a composition of the format's own functions, so a map that keeps those
carries it over, one lemma a calculation. -/
theorem unitsFollowAnyFormatMap : Obligations.UnitsFollowAnyFormatMap := by
  refine ⟨fun s => ⟨fun i => exec_eq_perform i s, step_eq_stepAt s⟩, fun α β N M g hg => ?_⟩
  exact ⟨oscNext_map hg, envNext_map hg, envSetParams_map hg, envEnter_map hg,
    fun nch x v => ⟨svfSetSr_map hg x v, svfSetCutoff_map hg x v, svfSetRes_map hg x v⟩, fun nch => svfProc_map hg⟩

/-! ### The number format `REAL` (R10) -/

@[simp] theorem realNum_zero : realNum.zero = 0 := rfl
@[simp] theorem realNum_one : realNum.one = 1 := rfl
@[simp] theorem realNum_two : realNum.two = 2 := rfl
@[simp] theorem realNum_half : realNum.half = 1 / 2 := rfl
@[simp] theorem realNum_headroom : realNum.headroom = 1 / 5 := rfl
@[simp] theorem realNum_resMax : realNum.resMax = 99 / 100 := rfl
@[simp] theorem realNum_pi : realNum.pi = Real.pi := rfl
@[simp] theorem realNum_twoPi : realNum.twoPi = 2 * Real.pi := rfl
@[simp] theorem realNum_add (x y : ℝ) : realNum.add x y = x + y := rfl
@[simp] theorem realNum_sub (x y : ℝ) : realNum.sub x y = x - y := rfl
@[simp] theorem realNum_mul (x y : ℝ) : realNum.mul x y = x * y := rfl
@[simp] theorem realNum_div (x y : ℝ) : realNum.div x y = x / y := rfl
@[simp] theorem realNum_neg (x : ℝ) : realNum.neg x = -x := rfl
@[simp] theorem realNum_abs (x : ℝ) : realNum.abs x = |x| := rfl
@[simp] theorem realNum_sin (x : ℝ) : realNum.sin x = Real.sin x := rfl
@[simp] theorem realNum_frac (x : ℝ) : realNum.frac x = Int.fract x := rfl
@[simp] theorem realNum_lt (x y : ℝ) : realNum.lt x y = decide (x < y) := rfl
@[simp] theorem realNum_le (x y : ℝ) : realNum.le x y = decide (x ≤ y) := rfl
@[simp] theorem realNum_gt (x y : ℝ) : realNum.gt x y = decide (y < x) := rfl
@[simp] theorem realNum_ge (x y : ℝ) : realNum.ge x y = decide (y ≤ x) := rfl
@[simp] theorem realNum_eq (x y : ℝ) : realNum.eq x y = decide (x = y) := rfl

/-! ### The filter in `REAL` (R10) -/

theorem clampRes_real_bounds (x : ℝ) : 0 ≤ clampRes realNum x ∧ clampRes realNum x ≤ 99 / 100 := by
  simp only [clampRes, realNum_zero, realNum_resMax, realNum_lt, realNum_gt, decide_eq_true_eq]
  split_ifs <;> constructor <;> linarith

/-- Settles O44: the clamp of `SVF_SET_RES` has its two bounds in `REAL`. -/
theorem realResonanceIsBelowOne : Obligations.RealResonanceIsBelowOne := by
  intro nch v x
  obtain ⟨hlow, hhigh⟩ := clampRes_real_bounds x
  exact ⟨clampRes realNum x, rfl, hlow, hhigh, by linarith, by linarith⟩

/-- The recurrence of R165 in `REAL`, solved for the state it leaves (R168). -/
theorem svfTaps_real_linear (f q x low band : ℝ) :
    (svfTaps realNum f q x low band).low = low + f * band ∧
    (svfTaps realNum f q x low band).band = -f * low + (1 - f ^ 2 - f * q) * band + f * x := by
  simp only [svfTaps, realNum_add, realNum_sub, realNum_mul, true_and]
  ring

/-- A channel at rest with zero input has only zero outputs (R169). -/
theorem svfTaps_real_rest (f q : ℝ) :
    svfTaps realNum f q 0 0 0 = { low := 0, high := 0, band := 0, notch := 0 } := by
  simp [svfTaps]

/-- Settles O46: a completed call writes what the recurrence gives. -/
theorem realFilterCallIsLinear : Obligations.RealFilterCallIsLinear := by
  intro nch v v' ch h x y f q hf hq hnext
  obtain ⟨-, f', q', sr, cutoff, hf', hq', -, -, -, -, rfl, -⟩ := (svfProc_eq_next realNum).1 hnext
  obtain rfl : f = f' := by simpa [hf] using hf'
  obtain rfl : q = q' := by simpa [hq] using hq'
  simpa using svfTaps_real_linear f q x v.low[ch] v.band[ch]

/-- Settles O45: every tap is 0, and both integrators are written the 0 they hold. -/
theorem realFilterAtRestStaysAtRest : Obligations.RealFilterAtRestStaysAtRest := by
  intro nch v v' ch h y hband hlow hnext
  obtain ⟨-, f, q, sr, cutoff, -, -, -, -, -, -, rfl, rfl⟩ := (svfProc_eq_next realNum).1 hnext
  have hset : ∀ u : Vector ℝ nch, u[ch] = 0 → u.set ch 0 = u := fun u hu => hu ▸ Vector.set_getElem_self h
  rw [hband, hlow, svfTaps_real_rest]
  exact ⟨by simp [selectTap], by simp [hset _ hband, hset _ hlow]⟩

/-! ### The oscillator in `REAL` (R10) -/

/-- The correction of R118 in `REAL`, as two squares. -/
theorem blep_real (t dt : ℝ) :
    blep realNum t dt =
      if t < dt then -(1 - t / dt) ^ 2 else if t > 1 - dt then (1 + (t - 1) / dt) ^ 2 else 0 := by
  simp only [blep, realNum_zero, realNum_one, realNum_two, realNum_add, realNum_sub, realNum_mul, realNum_div, realNum_lt,
    realNum_gt, decide_eq_true_eq, gt_iff_lt]
  split_ifs
  · ring
  · ring
  · rfl

theorem halfTurnOn_real (t : ℝ) : halfTurnOn realNum t = if t + 1 / 2 < 1 then t + 1 / 2 else t + 1 / 2 - 1 := by
  simp only [halfTurnOn, realNum_one, realNum_half, realNum_add, realNum_sub, realNum_lt, decide_eq_true_eq]

theorem stepValue_real (t : ℝ) : stepValue realNum t = if t < 1 / 2 then 1 else -1 := by
  simp only [stepValue, realNum_one, realNum_half, realNum_neg, realNum_lt, decide_eq_true_eq]

/-- For `t` within one turn `frac(t + 1/2)` of R120 is the fractional part. -/
theorem halfTurnOn_real_eq_fract {t : ℝ} (h0 : 0 ≤ t) (h1 : t < 1) : halfTurnOn realNum t = Int.fract (t + 1 / 2) := by
  rw [halfTurnOn_real]
  split
  · exact (Int.fract_eq_self.2 ⟨by linarith, by assumption⟩).symm
  · rw [← Int.fract_sub_one]
    exact (Int.fract_eq_self.2 ⟨by linarith, by linarith⟩).symm

/-- Settles O26: the correction, `frac` and the step of the square, each in its real form. -/
theorem realWaveformFormulas : Obligations.RealWaveformFormulas := by
  intro phase inc t dt corr frac
  have hcorr : ∀ u, blep realNum u dt = corr u := fun u => blep_real u dt
  have hfrac : halfTurnOn realNum t = frac := halfTurnOn_real t
  refine ⟨rfl, rfl, ?_, ?_, fun h0 h1 => hfrac ▸ halfTurnOn_real_eq_fract h0 h1⟩
  · show (2 * t - 1) - blep realNum t dt = _
    rw [hcorr]
  · show stepValue realNum t + blep realNum t dt - blep realNum (halfTurnOn realNum t) dt = _
    rw [stepValue_real, hcorr, hfrac, hcorr]

/-- In `REAL` the wrap loop ends: it takes away the whole turns, so that the phase is in one turn (R122, R235). -/
theorem wrapPhase_real {p : ℝ} (turns : ℕ) (h0 : 0 ≤ p - turns * (2 * Real.pi))
    (h1 : p - turns * (2 * Real.pi) < 2 * Real.pi) :
    wrapPhase realNum p = some (p - turns * (2 * Real.pi)) := by
  induction turns generalizing p with
  | zero =>
    rw [wrapPhase_below realNum (by simpa using h1)]
    simp
  | succ k ih =>
    push_cast at h0 h1 ⊢
    have hk : 0 ≤ (k : ℝ) * (2 * Real.pi) := by positivity
    have hp : p - 2 * Real.pi - k * (2 * Real.pi) = p - (k + 1) * (2 * Real.pi) := by ring
    rw [wrapPhase_above realNum (by simp only [realNum_ge, realNum_twoPi, decide_eq_true_eq]; linarith), realNum_sub,
      realNum_twoPi, ih (by rwa [hp]) (by rwa [hp]), hp]

/-- The whole turns in a phase that is not negative. -/
theorem exists_turns {p : ℝ} (h : 0 ≤ p) :
    ∃ turns : ℕ, 0 ≤ p - turns * (2 * Real.pi) ∧ p - turns * (2 * Real.pi) < 2 * Real.pi := by
  have hpos : 0 < 2 * Real.pi := Real.two_pi_pos
  refine ⟨⌊p / (2 * Real.pi)⌋₊, ?_, ?_⟩
  · have := (le_div_iff₀ hpos).1 (Nat.floor_le (div_nonneg h hpos.le))
    linarith
  · have := (div_lt_iff₀ hpos).1 (Nat.lt_floor_add_one (p / (2 * Real.pi)))
    linarith

/-- Settles O27: the advanced phase is not negative, and the wrap loop takes away its whole turns. -/
theorem realPhaseStaysInOneTurn : Obligations.RealPhaseStaysInOneTurn := by
  intro o freq sr hf hs hfreq hsr h0 _
  have hadv : 0 ≤ o.phase + 2 * Real.pi * freq / sr := by positivity
  obtain ⟨turns, hlow, hhigh⟩ := exists_turns hadv
  exact ⟨_, _, turns, (oscNext_eq_some realNum).2 ⟨freq, sr, _, hf, hs, by simpa using hsr, by simpa using hfreq,
    wrapPhase_real turns hlow hhigh, rfl, rfl⟩, hlow, hhigh, rfl⟩

section headroom

variable {t dt : ℝ} (hdt : 0 < dt) (hhalf : dt < 1 / 2)
include hdt hhalf

/-- In the first half turn the correction only lowers, by at most 1. -/
theorem blep_real_of_first_half (h0 : 0 ≤ t) (h1 : t ≤ 1 / 2) : -1 ≤ blep realNum t dt ∧ blep realNum t dt ≤ 0 := by
  rw [blep_real]
  split
  · next h =>
    have hu0 : 0 ≤ t / dt := by positivity
    have hu1 : t / dt < 1 := (div_lt_one hdt).2 h
    constructor <;> nlinarith
  · rw [if_neg (by linarith)]
    norm_num

/-- In the second half turn the correction only raises, by at most 1. -/
theorem blep_real_of_second_half (h0 : 1 / 2 ≤ t) (h1 : t ≤ 1) : 0 ≤ blep realNum t dt ∧ blep realNum t dt ≤ 1 := by
  rw [blep_real, if_neg (by linarith)]
  split
  · next h =>
    have hu0 : -1 < (t - 1) / dt := (lt_div_iff₀ hdt).2 (by linarith)
    have hu1 : (t - 1) / dt ≤ 0 := div_nonpos_of_nonpos_of_nonneg (by linarith) hdt.le
    constructor <;> nlinarith
  · norm_num

theorem abs_sawValue_real_le_one (h0 : 0 ≤ t) (h1 : t < 1) : |sawValue realNum t dt| ≤ 1 := by
  have hsaw : sawValue realNum t dt = 2 * t - 1 - blep realNum t dt := rfl
  rw [hsaw, abs_le]
  by_cases h : t ≤ 1 / 2
  · have hcorr := blep_real_of_first_half hdt hhalf h0 h
    constructor <;> linarith
  · have hcorr := blep_real_of_second_half (t := t) hdt hhalf (by linarith) h1.le
    constructor <;> linarith

theorem abs_squareValue_real_le_one (h0 : 0 ≤ t) (h1 : t < 1) : |squareValue realNum t dt| ≤ 1 := by
  have hsquare : squareValue realNum t dt =
      stepValue realNum t + blep realNum t dt - blep realNum (halfTurnOn realNum t) dt := rfl
  rw [hsquare, stepValue_real, halfTurnOn_real, abs_le]
  by_cases h : t < 1 / 2
  · rw [if_pos h, if_pos (by linarith)]
    have hhere := blep_real_of_first_half hdt hhalf h0 h.le
    have hthere := blep_real_of_second_half (t := t + 1 / 2) hdt hhalf (by linarith) (by linarith)
    constructor <;> linarith
  · rw [if_neg h, if_neg (by linarith)]
    have hhere := blep_real_of_second_half (t := t) hdt hhalf (by linarith) h1.le
    have hthere := blep_real_of_first_half (t := t + 1 / 2 - 1) hdt hhalf (by linarith) (by linarith)
    constructor <;> linarith

omit hdt hhalf in
theorem abs_triangleValue_real_le_one (h0 : 0 ≤ t) (h1 : t < 1) : |triangleValue realNum t| ≤ 1 := by
  have htri : triangleValue realNum t = 2 * |2 * t - 1| - 1 := rfl
  have habs : |2 * t - 1| ≤ 1 := abs_le.2 ⟨by linarith, by linarith⟩
  rw [htri, abs_le]
  constructor <;> linarith [abs_nonneg (2 * t - 1)]

end headroom

/-- Every waveform is within `[-1, 1]` in one turn, for an increment below half a turn. -/
theorem abs_waveValue_real_le_one (wave : Wave) {phase inc : ℝ} (h0 : 0 ≤ phase) (h1 : phase < 2 * Real.pi)
    (hinc : 0 < inc) (hhalf : inc < Real.pi) : |waveValue realNum wave phase inc| ≤ 1 := by
  have hpos : 0 < 2 * Real.pi := Real.two_pi_pos
  have ht0 : 0 ≤ phase / (2 * Real.pi) := by positivity
  have ht1 : phase / (2 * Real.pi) < 1 := (div_lt_one hpos).2 h1
  have hdt : 0 < inc / (2 * Real.pi) := by positivity
  have hdt' : inc / (2 * Real.pi) < 1 / 2 := (div_lt_iff₀ hpos).2 (by linarith)
  cases wave with
  | sine => exact Real.abs_sin_le_one phase
  | triangle => exact abs_triangleValue_real_le_one ht0 ht1
  | saw => exact abs_sawValue_real_le_one hdt hdt' ht0 ht1
  | square => exact abs_squareValue_real_le_one hdt hdt' ht0 ht1

/-- Settles O28: below half the sample rate the increment is below half a turn. -/
theorem realSampleIsWithinHeadroom : Obligations.RealSampleIsWithinHeadroom := by
  intro o o' freq sr out hf hs hsr hfreq hhalf h0 h1 hnext
  obtain ⟨freq', sr', p, hf', hs', -, -, -, -, rfl⟩ := (oscNext_eq_some realNum).1 hnext
  obtain rfl : freq = freq' := by simpa [hf] using hf'
  obtain rfl : sr = sr' := by simpa [hs] using hs'
  have hinc : oscIncrement realNum freq sr = 2 * Real.pi * freq / sr := rfl
  have hpi := Real.pi_pos
  have hwave := abs_waveValue_real_le_one o.wave (inc := oscIncrement realNum freq sr) h0 h1
    (by rw [hinc]; positivity) (by rw [hinc, div_lt_iff₀ hsr]; nlinarith)
  rw [realNum_mul, realNum_headroom, abs_mul, abs_of_pos (by norm_num : (0 : ℝ) < 1 / 5)]
  linarith

/-! ### The envelope in `REAL` (R10) -/

theorem attackStep_real (a sr : ℝ) (e : Env ℝ) :
    attackStep realNum a sr e =
      if 1 ≤ e.level + 1 / (a * sr) then { e with level := 1, stage := .decay }
      else { e with level := e.level + 1 / (a * sr) } := by
  simp only [attackStep, realNum_one, realNum_add, realNum_mul, realNum_div, realNum_ge, decide_eq_true_eq]

theorem decayStep_real (d u sr : ℝ) (e : Env ℝ) :
    decayStep realNum d u sr e =
      if e.level - (1 - u) / (d * sr) ≤ u then { e with level := u, stage := .sustain }
      else { e with level := e.level - (1 - u) / (d * sr) } := by
  simp only [decayStep, realNum_one, realNum_sub, realNum_mul, realNum_div, realNum_le, decide_eq_true_eq]

theorem releaseStep_real (r u sr : ℝ) (e : Env ℝ) :
    releaseStep realNum r u sr e =
      if e.level - u / (r * sr) ≤ 0 then { e with level := 0, stage := .off }
      else { e with level := e.level - u / (r * sr) } := by
  simp only [releaseStep, realNum_zero, realNum_sub, realNum_mul, realNum_div, realNum_le, decide_eq_true_eq]

/-- Attack raises the level, and not past 1. -/
theorem attackStep_real_level {a sr : ℝ} {e : Env ℝ} (ha : 0 < a) (hsr : 0 < sr) (h1 : e.level ≤ 1) :
    e.level ≤ (attackStep realNum a sr e).level ∧ (attackStep realNum a sr e).level ≤ 1 := by
  have hstep : 0 ≤ 1 / (a * sr) := by positivity
  rw [attackStep_real]
  split_ifs
  · exact ⟨h1, le_refl _⟩
  · constructor <;> simp only <;> linarith

/-- Decay leaves the level at or above sustain, and raises it only up to sustain. -/
theorem decayStep_real_level {d u sr : ℝ} {e : Env ℝ} (hd : 0 < d) (hsr : 0 < sr) (hu : u ≤ 1) :
    u ≤ (decayStep realNum d u sr e).level ∧ (decayStep realNum d u sr e).level ≤ max u e.level := by
  have hstep : 0 ≤ (1 - u) / (d * sr) := div_nonneg (by linarith) (by positivity)
  rw [decayStep_real]
  split_ifs
  · exact ⟨le_refl _, le_max_left _ _⟩
  · exact ⟨by simp only; linarith, le_max_of_le_right (by simp only; linarith)⟩

/-- Release lowers the level, and not below 0. -/
theorem releaseStep_real_level {r u sr : ℝ} {e : Env ℝ} (hr : 0 < r) (hsr : 0 < sr) (hu : 0 ≤ u) (h0 : 0 ≤ e.level) :
    0 ≤ (releaseStep realNum r u sr e).level ∧ (releaseStep realNum r u sr e).level ≤ e.level := by
  have hstep : 0 ≤ u / (r * sr) := by positivity
  rw [releaseStep_real]
  split_ifs
  · exact ⟨le_refl _, h0⟩
  · constructor <;> simp only <;> linarith

/-- Settles O38, stage by stage: Off and Sustain set the level, the other three move it towards their bound. -/
theorem realLevelStaysInUnitInterval : Obligations.RealLevelStaysInUnitInterval := by
  intro e e' a d u r sr hA hD hU hR hS ha hd hr hu0 hu1 hsr h0 h1 hnext
  obtain ⟨hstage, rfl⟩ | ⟨a', sr', hstage, hA', hS', -, rfl⟩ | ⟨d', u', sr', hstage, hD', hU', hS', -, rfl⟩ |
    ⟨u', hstage, hU', rfl⟩ | ⟨r', u', sr', hstage, hR', hU', hS', -, rfl⟩ := envNext_eq_next realNum hnext
  · simp [hstage]
  · obtain ⟨rfl, rfl⟩ : a = a' ∧ sr = sr' := by simp_all
    obtain ⟨hrise, hmax⟩ := attackStep_real_level ha hsr h1
    simp [hstage, h0.trans hrise, hmax, hrise]
  · obtain ⟨rfl, rfl, rfl⟩ : d = d' ∧ u = u' ∧ sr = sr' := by simp_all
    obtain ⟨hmin, hfall⟩ := decayStep_real_level (e := e) hd hsr hu1
    simpa [hstage, hu0.trans hmin, hfall.trans (max_le hu1 h1)] using fun h => hfall.trans_eq (max_eq_right h)
  · obtain rfl : u = u' := by simp_all
    simp [hstage, hu0, hu1]
  · obtain ⟨rfl, rfl, rfl⟩ : r = r' ∧ u = u' ∧ sr = sr' := by simp_all
    obtain ⟨hmin, hfall⟩ := releaseStep_real_level hr hsr hu0 h0
    simp [hstage, hmin, hfall.trans h1, hfall]

section

variable {α : Type} (N : NumFormat α) {e : Env α} {u sr : α}

theorem envNext_of_attack {a : α} (hstage : e.stage = .attack) (ha : e.attack = .val a) (hs : e.sr = .val sr)
    (hsr : N.gt sr N.zero = true) : envNext N e = .next (attackStep N a sr e) := by
  simp [envNext, hstage, ha, hs, hsr]

theorem envNext_of_decay {d : α} (hstage : e.stage = .decay) (hd : e.decay = .val d) (hu : e.sustain = .val u)
    (hs : e.sr = .val sr) (hsr : N.gt sr N.zero = true) : envNext N e = .next (decayStep N d u sr e) := by
  simp [envNext, hstage, hd, hu, hs, hsr]

theorem envNext_of_release {r : α} (hstage : e.stage = .release) (hr : e.release = .val r) (hu : e.sustain = .val u)
    (hs : e.sr = .val sr) (hsr : N.gt sr N.zero = true) : envNext N e = .next (releaseStep N r u sr e) := by
  simp [envNext, hstage, hr, hu, hs, hsr]

end

/-- A run along the states `f`, as long as each step goes on to the next of them. -/
theorem repeated_along {σ : Type} {next : σ → Result σ} (f : ℕ → σ) {n : ℕ}
    (h : ∀ k < n, next (f k) = .next (f (k + 1))) : repeated next n (f 0) = .next (f n) := by
  induction n with
  | zero => rfl
  | succ n ih =>
    rw [repeated_succ_end (ih fun k hk => h k (hk.trans n.lt_succ_self)), h n n.lt_succ_self]

/-- A stage that lasts `⌈x⌉` calls: the `n`-th call leaves `level n` while `n` is below `x`, and the next one ends it. -/
theorem envCalls_ceil {e last : Env ℝ} {level : ℕ → ℝ} {x : ℝ} (hx : 0 < x) (h0 : e.level = level 0)
    (hstep : ∀ n : ℕ, envNext realNum { e with level := level n } =
      .next (if x ≤ (n + 1 : ℕ) then last else { e with level := level (n + 1) })) :
    (∀ n < ⌈x⌉₊, envCalls realNum n e = .next { e with level := level n }) ∧
      envCalls realNum ⌈x⌉₊ e = .next last := by
  have hgo : ∀ n < ⌈x⌉₊, envCalls realNum n e = .next { e with level := level n } := fun n hn => by
    have hrun := repeated_along (next := envNext realNum) (n := n) (fun k => { e with level := level k }) fun k hk => by
      rw [hstep, if_neg (not_le.2 (Nat.lt_ceil.1 (by omega)))]
    rwa [← h0] at hrun
  refine ⟨hgo, ?_⟩
  obtain ⟨m, hm⟩ := Nat.exists_eq_succ_of_ne_zero (Nat.ceil_pos.2 hx).ne'
  rw [hm, envCalls, repeated_succ_end (hgo m (by omega)), hstep, if_pos (Nat.ceil_le.1 hm.le)]

/-- `n` of `x` equal parts of a distance make it up from `n = x` on. -/
theorem le_mul_div_iff {c x : ℝ} (hc : 0 < c) (hx : 0 < x) (n : ℝ) : c ≤ n * (c / x) ↔ x ≤ n := by
  rw [mul_div_assoc', le_div_iff₀ hx, mul_comm n c, mul_le_mul_iff_right₀ hc]

theorem envCalls_attack {e : Env ℝ} {a sr : ℝ} (hstage : e.stage = .attack) (hlevel : e.level = 0)
    (ha : e.attack = .val a) (hs : e.sr = .val sr) (ha0 : 0 < a) (hsr : 0 < sr) :
    (∀ n < ⌈a * sr⌉₊, envCalls realNum n e = .next { e with level := n / (a * sr) }) ∧
      envCalls realNum ⌈a * sr⌉₊ e = .next { e with level := 1, stage := .decay } := by
  have hx : 0 < a * sr := mul_pos ha0 hsr
  refine envCalls_ceil hx (by simp [hlevel]) fun n => ?_
  have hlev : (n : ℝ) / (a * sr) + 1 / (a * sr) = (n + 1 : ℕ) / (a * sr) := by push_cast; ring
  have hend : 1 ≤ ((n + 1 : ℕ) : ℝ) / (a * sr) ↔ a * sr ≤ (n + 1 : ℕ) := one_le_div hx
  rw [envNext_of_attack realNum (e := { e with level := n / (a * sr) }) hstage ha hs (by simpa using hsr), attackStep_real]
  simp only [hlev, hend]

theorem envCalls_decay {e : Env ℝ} {d u sr : ℝ} (hstage : e.stage = .decay) (hlevel : e.level = 1)
    (hd : e.decay = .val d) (hu : e.sustain = .val u) (hs : e.sr = .val sr) (hd0 : 0 < d) (hsr : 0 < sr) (hu1 : u < 1) :
    (∀ n < ⌈d * sr⌉₊, envCalls realNum n e = .next { e with level := 1 - n * ((1 - u) / (d * sr)) }) ∧
      envCalls realNum ⌈d * sr⌉₊ e = .next { e with level := u, stage := .sustain } := by
  have hx : 0 < d * sr := mul_pos hd0 hsr
  refine envCalls_ceil hx (by simp [hlevel]) fun n => ?_
  have hlev : 1 - (n : ℝ) * ((1 - u) / (d * sr)) - (1 - u) / (d * sr) = 1 - (n + 1 : ℕ) * ((1 - u) / (d * sr)) := by
    push_cast; ring
  have hend : 1 - ((n + 1 : ℕ) : ℝ) * ((1 - u) / (d * sr)) ≤ u ↔ d * sr ≤ (n + 1 : ℕ) := by
    rw [sub_le_comm, le_mul_div_iff (by linarith) hx]
  rw [envNext_of_decay realNum (e := { e with level := 1 - n * ((1 - u) / (d * sr)) }) hstage hd hu hs
    (by simpa using hsr), decayStep_real]
  simp only [hlev, hend]

theorem envCalls_release {e : Env ℝ} {r u sr : ℝ} (hstage : e.stage = .release) (hlevel : e.level = u)
    (hr : e.release = .val r) (hu : e.sustain = .val u) (hs : e.sr = .val sr) (hr0 : 0 < r) (hsr : 0 < sr) (hu0 : 0 < u) :
    (∀ n < ⌈r * sr⌉₊, envCalls realNum n e = .next { e with level := u - n * (u / (r * sr)) }) ∧
      envCalls realNum ⌈r * sr⌉₊ e = .next { e with level := 0, stage := .off } := by
  have hx : 0 < r * sr := mul_pos hr0 hsr
  refine envCalls_ceil hx (by simp [hlevel]) fun n => ?_
  have hlev : u - (n : ℝ) * (u / (r * sr)) - u / (r * sr) = u - (n + 1 : ℕ) * (u / (r * sr)) := by push_cast; ring
  have hend : u - ((n + 1 : ℕ) : ℝ) * (u / (r * sr)) ≤ 0 ↔ r * sr ≤ (n + 1 : ℕ) := by
    rw [sub_nonpos, le_mul_div_iff hu0 hx]
  rw [envNext_of_release realNum (e := { e with level := u - n * (u / (r * sr)) }) hstage hr hu hs
    (by simpa using hsr), releaseStep_real]
  simp only [hlev, hend]

/-- Settles O39: each stage is the run of its steps; where there is no distance to go the first one ends it. -/
theorem realAttackLastsItsTime : Obligations.RealAttackLastsItsTime := by
  refine ⟨fun e a sr hstage hlevel ha hs ha0 hsr => envCalls_attack hstage hlevel ha hs ha0 hsr,
    fun e d u sr hstage hlevel hd hu hs hd0 hsr _ _ =>
      ⟨envCalls_decay hstage hlevel hd hu hs hd0 hsr, fun hu1 => ?_⟩,
    fun e r u sr hstage hlevel hr hu hs hr0 hsr _ _ =>
      ⟨envCalls_release hstage hlevel hr hu hs hr0 hsr, fun hu0 => ?_⟩⟩
  · subst hu1
    rw [envCalls, repeated_succ 0 (envNext_of_decay realNum hstage hd hu hs (by simpa using hsr)), decayStep_real,
      if_pos (by simp [hlevel])]
    rfl
  · subst hu0
    rw [envCalls, repeated_succ 0 (envNext_of_release realNum hstage hr hu hs (by simpa using hsr)), releaseStep_real,
      if_pos (by simp [hlevel])]
    rfl

end Sys2Proof.Machine

/-! Proofs of the statements of spec/10_state.md: the invariant of the machine under every step, the one writer of each
register, and the refusals of `OSC_NEXT` and `ENV_NEXT`. -/

namespace Sys2Proof.Machine

/-! ### The envelope and the filter under the invariant (R31 to R35, R38, R40, R41) -/

section

variable {α : Type} (N : NumFormat α) {nch : Nat}

/-- A stored time is `eps`, or not below it (R134). -/
def TimeGuarded (eps : α) (p : Param α) : Prop := ∀ x, p = .val x → x = eps ∨ N.lt x eps = false

/-- The part of `UnitsInv` that speaks of ENV. -/
structure EnvInv (eps : α) (e : Env α) : Prop where
  off_level : e.stage = .off → e.level = N.zero
  attack_guarded : TimeGuarded N eps e.attack
  decay_guarded : TimeGuarded N eps e.decay
  release_guarded : TimeGuarded N eps e.release

/-- A resonance is inside the two bounds of the clamp (R38, R160). -/
def ResClamped (x : α) : Prop :=
  (x = N.resMax ∨ N.gt x N.resMax = false) ∧ (x = N.resMax ∨ x = N.zero ∨ N.lt x N.zero = false)

/-- The part of `UnitsInv` that speaks of SVF. -/
structure SvfInv (v : Svf α nch) : Prop where
  res_clamped : ∀ x, v.res = .val x → ResClamped N x
  f_derived : v.f = derivedF N v.cutoff v.sr
  q_unset : v.res = .unset → v.q = .unset
  q_derived : ∀ x, v.res = .val x → v.q = .val (N.sub N.one x)

theorem unitsInv_iff {P : Params α} {s : Block.State α nch} :
    UnitsInv P s ↔ EnvInv P.num P.envEps s.env ∧ SvfInv P.num s.svf :=
  ⟨fun ⟨hoff, ha, hd, hr, hres, hf, hqu, hq⟩ => ⟨⟨hoff, ha, hd, hr⟩, hres, hf, hqu, hq⟩,
    fun ⟨⟨hoff, ha, hd, hr⟩, hres, hf, hqu, hq⟩ => ⟨hoff, ha, hd, hr, hres, hf, hqu, hq⟩⟩

theorem guardTime_guarded (eps x : α) : TimeGuarded N eps (.val (guardTime N eps x)) := by
  rintro _ ⟨rfl⟩
  unfold guardTime
  split
  · exact .inl rfl
  · next h => exact .inr (by simpa using h)

theorem clampRes_clamped (r : α) : ResClamped N (clampRes N r) := by
  unfold clampRes
  generalize hx : (if N.lt r N.zero then N.zero else r) = x
  have hlow : x = N.zero ∨ N.lt x N.zero = false := by
    subst hx
    split
    · exact .inl rfl
    · next h => exact .inr (by simpa using h)
  simp only
  split
  · exact ⟨.inl rfl, .inl rfl⟩
  · next h => exact ⟨.inr (by simpa using h), .inr hlow⟩

variable {N}

section

variable {eps : α} {e : Env α} (he : EnvInv N eps e)
include he

theorem EnvInv.setParams (attack decay sustain release : α) :
    EnvInv N eps (envSetParams N eps attack decay sustain release e) :=
  ⟨he.off_level, guardTime_guarded N eps attack, guardTime_guarded N eps decay, guardTime_guarded N eps release⟩

/-- The stage and the level may change as long as Off has level 0. -/
theorem EnvInv.move {e' : Env α} (hoff : e'.stage = .off → e'.level = N.zero) (ha : e'.attack = e.attack)
    (hd : e'.decay = e.decay) (hr : e'.release = e.release) : EnvInv N eps e' :=
  ⟨hoff, ha ▸ he.attack_guarded, hd ▸ he.decay_guarded, hr ▸ he.release_guarded⟩

theorem EnvInv.enter (k : Stage) : EnvInv N eps (envEnter N k e) := by
  cases k <;> exact he.move (by simp [envEnter]) rfl rfl rfl

end

theorem envNext_off_level {e e' : Env α} (h : envNext N e = .next e') : e'.stage = .off → e'.level = N.zero := by
  obtain ⟨-, rfl⟩ | ⟨a, sr, hstage, -, -, -, rfl⟩ | ⟨d, u, sr, hstage, -, -, -, -, rfl⟩ | ⟨u, hstage, -, rfl⟩ |
    ⟨r, u, sr, hstage, -, -, -, -, rfl⟩ := envNext_eq_next N h
  · exact fun _ => rfl
  · unfold attackStep; simp only; split <;> simp [hstage]
  · unfold decayStep; simp only; split <;> simp [hstage]
  · simp [hstage]
  · unfold releaseStep; simp only; split <;> simp [hstage]

theorem EnvInv.next {eps : α} {e e' : Env α} (he : EnvInv N eps e) (h : envNext N e = .next e') : EnvInv N eps e' := by
  obtain ⟨ha, hd, -, hr, -⟩ := envNext_keeps_params N h
  exact he.move (envNext_off_level h) ha hd hr

section

variable {v : Svf α nch} (hv : SvfInv N v)
include hv

theorem SvfInv.recomputeF {v' : Svf α nch} (hres : v'.res = v.res) (hq : v'.q = v.q) : SvfInv N (recomputeF N v') where
  res_clamped x hx := hv.res_clamped x (hres ▸ hx)
  f_derived := rfl
  q_unset hx := hq.trans (hv.q_unset (hres ▸ hx))
  q_derived x hx := hq.trans (hv.q_derived x (hres ▸ hx))

theorem SvfInv.setRes (r : α) : SvfInv N (svfSetRes N r v) where
  res_clamped := by rintro _ ⟨rfl⟩; exact clampRes_clamped N r
  f_derived := hv.f_derived
  q_unset := nofun
  q_derived := by rintro _ ⟨rfl⟩; rfl

/-- The type and the integrators do not enter into the invariant. -/
theorem SvfInv.withData (kind : Arg) (band low : Vector α nch) :
    SvfInv N { v with kind := kind, band := band, low := low } :=
  ⟨hv.res_clamped, hv.f_derived, hv.q_unset, hv.q_derived⟩

theorem SvfInv.proc {v' : Svf α nch} {ch : Nat} {x y : α} (h : svfProc N ch x v = .next (v', y)) : SvfInv N v' := by
  obtain ⟨_, f, q, sr, cutoff, -, -, -, -, -, -, rfl, -⟩ := (svfProc_eq_next N).1 h
  exact hv.withData v.kind _ _

end

end

/-! ### The record of the producer's events under an acquire load (R66, R67) -/

section

variable {α : Type} [DecidableEq α] (d : α)

/-- An acquire load that reads from one of the publications splits the events there: those up to it are observed, and
the last of them is that publication, so that they leave no sample unpublished. -/
theorem Trail.forward_split {k c : Nat} {m : Memory α} {evs : List (ScopeEvent α)} (hk : k ≤ publications evs) :
    ∃ before rest, evs = before ++ rest ∧
      Trail.forward d k m c evs = { base := replay d m before, baseCursor := lastCursor c before, later := rest } ∧
      ∀ n, (k = 0 → n = 0) → unpublished n before = 0 := by
  induction evs generalizing k m c with
  | nil =>
    obtain rfl : k = 0 := Nat.le_zero.1 hk
    exact ⟨[], [], rfl, rfl, fun n hn => hn rfl⟩
  | cons ev evs ih =>
    cases k with
    | zero => exact ⟨[], ev :: evs, rfl, rfl, fun n hn => hn rfl⟩
    | succ k =>
      cases ev with
      | write a x =>
        obtain ⟨before, rest, rfl, hf, hu⟩ := ih (m := m.write d a x) (c := c) hk
        exact ⟨.write a x :: before, rest, rfl, hf, fun n _ => hu (n + 1) (by simp)⟩
      | publish c' =>
        obtain ⟨before, rest, rfl, hf, hu⟩ := ih (m := m) (c := c') (Nat.le_of_succ_le_succ hk)
        exact ⟨.publish c' :: before, rest, rfl, hf, fun n _ => hu 0 fun _ => rfl⟩

/-- The same of the load itself. -/
theorem Scope.loadAcquire_split (pick : Nat) (sc : Scope α) :
    ∃ before rest, sc.trail.later = before ++ rest ∧ unpublished 0 before = 0 ∧
      (sc.loadAcquire d pick).trail =
        { base := replay d sc.trail.base before, baseCursor := lastCursor sc.trail.baseCursor before, later := rest } := by
  obtain ⟨before, rest, hsplit, hf, hu⟩ := Trail.forward_split d (c := sc.trail.baseCursor) (m := sc.trail.base)
    (Nat.le_of_lt_succ (Nat.mod_lt pick (Nat.succ_pos (publications sc.trail.later))))
  exact ⟨before, rest, hsplit, hu 0 fun _ => rfl, hf⟩

end

theorem moreReads_slot {cap slot n : Nat} (hslot : slot < cap) (hn : n ≤ cap) {p : Snapping}
    (h : moreReads slot n = some p) : p.slot < cap ∧ p.after < cap := by
  cases n with
  | zero => cases h
  | succ k =>
    obtain rfl := Option.some.inj h
    exact ⟨hslot, hn⟩

/-! ### The invariant under what the agents do (R12, R177, R178, R182) -/

section

variable {α : Type} {nch : Nat} {P : Params α} {s t : Block.State α nch} {u : Nat}

theorem UnitsInv.of_eq (hs : UnitsInv P s) (henv : t.env = s.env) (hsvf : t.svf = s.svf) : UnitsInv P t := by
  rw [unitsInv_iff, henv, hsvf]
  exact unitsInv_iff.1 hs

theorem UnitsInv.of_onlyUnit (hs : UnitsInv P s) (h : Block.OnlyUnit u s t) (h2 : u ≠ 2) (h3 : u ≠ 3) : UnitsInv P t := by
  obtain ⟨-, henv, hsvf, -⟩ := h
  exact hs.of_eq (henv h2) (hsvf h3)

theorem AgentsInv.of_onlyUnit (hs : AgentsInv s) (h : Block.OnlyUnit u s t) (h1 : u ≠ 1) (h4 : u ≠ 4) : AgentsInv t := by
  obtain ⟨hosc, -, -, hrest⟩ := h
  obtain ⟨-, hh⟩ := hosc h1
  obtain ⟨-, hw, hp, -⟩ := hrest h4
  exact ⟨fun h => hw.trans (hs.producer_hangs (hh ▸ h)), fun h => hp.trans (hs.consumer_hangs (hh ▸ h))⟩

variable [DecidableEq α]

theorem ScopeInv.of_onlyUnit (hs : ScopeInv P s) (h : Block.OnlyUnit u s t) (h4 : u ≠ 4) : ScopeInv P t := by
  obtain ⟨-, -, -, hrest⟩ := h
  obtain ⟨hscope, hwriting, hsnapping, -⟩ := hrest h4
  obtain ⟨h1, h2, h3, h4, h5, h6, h7, h8, h9, h10, h11, h12, h13⟩ := hs
  constructor <;> simpa only [hscope, hwriting, hsnapping]

/-- Ports, schedule and command do not enter into the invariant. -/
theorem Inv.of_onlyUnit_zero (hs : Inv P s) (h : Block.OnlyUnit 0 s t) : Inv P t := by
  obtain ⟨hu, hsc, ha⟩ := hs
  exact ⟨hu.of_onlyUnit h (by decide) (by decide), hsc.of_onlyUnit h (by decide), ha.of_onlyUnit h (by decide) (by decide)⟩

theorem Inv.withSchedule (hs : Inv P s) (later : List Agent) : Inv P { s with schedule := later } :=
  hs.of_onlyUnit_zero (by simp [Block.OnlyUnit])

theorem Inv.present (hs : Inv P s) (a : Agent) (c : Command α) (rest : List (Command α)) : Inv P (s.present a c rest) :=
  hs.of_onlyUnit_zero (by simp [Block.OnlyUnit])

end

section

variable {α : Type} {nch : Nat} [DecidableEq α] {P : Params α} {s : Block.State α nch} (hs : ScopeInv P s)
include hs

/-- Between two `SCOPE_WRITE`s the cursor is the index that the samples have reached (R177, R178). -/
theorem ScopeInv.cursor_eq_endIndex (hw : s.writing = none) :
    s.scope.cursor = endIndex P.scopeCap s.scope.trail.baseCursor s.scope.trail.later := by
  rw [← hs.cursor_replay]
  exact (endIndex_of_published (fun _ => rfl) hs.events_in_order (hs.quiescent_published hw)).symm

theorem ScopeInv.writing_slot_lt {w : Writing α} (hw : s.writing = some w) : w.slot < P.scopeCap := by
  rw [hs.writing_slot w hw]
  exact endIndex_lt P.scopeCap_pos hs.base_cursor_lt

theorem ScopeInv.beginWrite (hw : s.writing = none) (xs : List α) :
    ScopeInv P { s with writing := some { slot := s.scope.cursor, rest := xs } } :=
  { hs with
    quiescent_published := nofun
    writing_slot := by rintro _ ⟨rfl⟩; exact hs.cursor_eq_endIndex hw }

/-- The `MemWrite` of a write in progress. -/
theorem ScopeInv.memWrite {w : Writing α} (hw : s.writing = some w) (x : α) (xs : List α) :
    ScopeInv P { s with
      scope := s.scope.memWrite P.num.zero w.slot x
      writing := some { slot := nextSlot P.scopeCap w.slot, rest := xs } } :=
  { hs with
    mem_wf := Memory.write_wf _ hs.mem_wf _ _
    mem_within := Memory.write_within _ hs.mem_within (hs.writing_slot_lt hw) _
    mem_replay := by simp [hs.mem_replay, replay]
    cursor_replay := by simp [hs.cursor_replay, lastCursor]
    events_in_order := by
      simp only [Scope.memWrite_trail, Trail.record_later, Trail.record_baseCursor, inOrder_append]
      exact ⟨hs.events_in_order, hs.writing_slot w hw, trivial⟩
    quiescent_published := nofun
    writing_slot := by rintro _ ⟨rfl⟩; simp [endIndex, hs.writing_slot w hw] }

/-- The `StoreRelease` that ends a write. -/
theorem ScopeInv.storeRelease {w : Writing α} (hw : s.writing = some w) :
    ScopeInv P { s with scope := s.scope.storeRelease w.slot, writing := none } :=
  { hs with
    cursor_lt := hs.writing_slot_lt hw
    mem_replay := by simp [hs.mem_replay, replay]
    cursor_replay := by simp [lastCursor]
    events_in_order := by
      simp only [Scope.storeRelease_trail, Trail.record_later, Trail.record_baseCursor, inOrder_append]
      exact ⟨hs.events_in_order, hs.writing_slot w hw, trivial⟩
    quiescent_published := by simp [unpublished]
    writing_slot := nofun }

theorem ScopeInv.advanceWrite {w : Writing α} (hw : s.writing = some w) : ScopeInv P (s.advanceWrite P w) := by
  unfold Block.State.advanceWrite
  split
  · exact hs.memWrite hw _ _
  · exact hs.storeRelease hw

/-- An acquire load takes over what the events up to its publication made of the memory and the cursor, and the reads
that follow stay inside the memory (R66, R67, R182). -/
theorem ScopeInv.beginSnap (pick n draws : Nat) (hn : n ≤ P.scopeCap) :
    ScopeInv P { s with
      scope := s.scope.loadAcquire P.num.zero pick
      snapping := moreReads (snapStart P.scopeCap (s.scope.loadAcquire P.num.zero pick).trail.baseCursor n) n
      draws := draws } := by
  obtain ⟨before, rest, hsplit, hpub, htrail⟩ := s.scope.loadAcquire_split P.num.zero pick
  have horder := hs.events_in_order
  rw [hsplit, inOrder_append] at horder
  obtain ⟨hbefore, hrest⟩ := horder
  have hend : endIndex P.scopeCap s.scope.trail.baseCursor before = lastCursor s.scope.trail.baseCursor before :=
    endIndex_of_published (fun _ => rfl) hbefore hpub
  exact
  { hs with
    base_wf := by rw [htrail]; exact replay_wf _ hs.base_wf
    base_within := by rw [htrail]; exact replay_within _ P.scopeCap_pos hs.base_cursor_lt hbefore hs.base_within
    base_cursor_lt := by rw [htrail, ← hend]; exact endIndex_lt P.scopeCap_pos hs.base_cursor_lt
    mem_replay := by rw [htrail, ← replay_append, ← hsplit]; exact hs.mem_replay
    cursor_replay := by rw [htrail, ← lastCursor_append, ← hsplit]; exact hs.cursor_replay
    events_in_order := by rw [htrail, ← hend]; exact hrest
    quiescent_published := fun hw => by
      have hall := hs.quiescent_published hw
      rw [hsplit, unpublished_append, hpub] at hall
      rwa [htrail]
    writing_slot := fun w hw => by
      rw [htrail, ← hend, ← endIndex_append, ← hsplit]; exact hs.writing_slot w hw
    snapping_slot := fun p hp => moreReads_slot (snapStart_lt P.scopeCap_pos _ _) hn hp }

theorem ScopeInv.advanceSnap {p : Snapping} (hp : s.snapping = some p) : ScopeInv P (s.advanceSnap P p) :=
  { hs with
    snapping_slot := fun _ hq =>
      moreReads_slot (nextSlot_lt P.scopeCap_pos _) (hs.snapping_slot p hp).2.le hq }

end

section

variable {α : Type} {nch : Nat} [DecidableEq α] {P : Params α} {s t : Block.State α nch} {i : Instr}

namespace Block

theorem Effect.unitsInv (h : Effect P s t i) (hs : UnitsInv P s) : UnitsInv P t := by
  have hframe := fun h2 h3 => hs.of_onlyUnit h.onlyUnit h2 h3
  obtain ⟨he, hv⟩ := unitsInv_iff.1 hs
  cases i
  case oscSetSr | oscSetFreq | oscSetWave | oscNext | scopeWrite | scopeSnap => exact hframe (by simp) (by simp)
  all_goals rw [unitsInv_iff]
  case envSetSr => obtain rfl := h; exact ⟨he.move he.off_level rfl rfl rfl, hv⟩
  case envSetParams => obtain rfl := h; exact ⟨he.setParams _ _ _ _, hv⟩
  case envEnter => obtain ⟨k, -, rfl⟩ := h; exact ⟨he.enter k, hv⟩
  case envNext => obtain ⟨e, hnext, rfl⟩ := h; simpa using ⟨he.next hnext, hv⟩
  case envActive => obtain rfl := h; simpa using ⟨he, hv⟩
  case svfSetSr | svfSetCutoff => obtain rfl := h; exact ⟨he, hv.recomputeF rfl rfl⟩
  case svfSetRes => obtain rfl := h; exact ⟨he, hv.setRes _⟩
  case svfSetType kind => obtain rfl := h; exact ⟨he, hv.withData kind _ _⟩
  case svfProc => obtain ⟨v, y, hproc, rfl⟩ := h; simpa using ⟨he, hv.proc hproc⟩

theorem Effect.scopeInv (h : Effect P s t i) (hs : ScopeInv P s)
    (hw : s.command.agent = .producer → s.writing = none) : ScopeInv P t := by
  by_cases hu : unitOf i = 4
  · cases i
    case scopeWrite => obtain ⟨ha, rfl⟩ := h; exact hs.beginWrite (hw ha) _
    case scopeSnap => obtain ⟨-, hn, rfl⟩ := h; exact hs.beginSnap _ _ _ hn
    all_goals simp at hu
  · exact hs.of_onlyUnit h.onlyUnit hu

/-- An agent inside no operation hangs in none, and one that begins to hang is inside no other. -/
theorem Effect.agentsInv (h : Effect P s t i) (hs : AgentsInv s) (hh : s.hanging ≠ some s.command.agent)
    (hw : s.command.agent = .producer → s.writing = none) (hp : s.command.agent = .consumer → s.snapping = none) :
    AgentsInv t := by
  have hframe := fun h1 h4 => hs.of_onlyUnit h.onlyUnit h1 h4
  cases i
  case oscSetSr | oscSetFreq => obtain ⟨-, rfl⟩ := h; exact ⟨hs.producer_hangs, hs.consumer_hangs⟩
  case oscSetWave => obtain ⟨-, w, -, rfl⟩ := h; exact ⟨hs.producer_hangs, hs.consumer_hangs⟩
  case oscNext =>
    obtain ⟨-, ⟨o, out, -, rfl⟩ | ⟨-, rfl⟩⟩ := h
    · exact ⟨by simpa using hs.producer_hangs, by simpa using hs.consumer_hangs⟩
    · exact ⟨fun ha => hw (Option.some.inj ha), fun ha => hp (Option.some.inj ha)⟩
  case scopeWrite =>
    obtain ⟨ha, rfl⟩ := h
    exact ⟨fun hhang => absurd (ha ▸ hhang) hh, hs.consumer_hangs⟩
  case scopeSnap =>
    obtain ⟨ha, -, rfl⟩ := h
    exact ⟨hs.producer_hangs, fun hhang => absurd (ha ▸ hhang) hh⟩
  all_goals exact hframe (by simp) (by simp)

/-- An operation that its agent may begin keeps the invariant. -/
theorem Effect.inv (h : Effect P s t i) (hs : Inv P s) (hh : s.hanging ≠ some s.command.agent)
    (hw : s.command.agent = .producer → s.writing = none) (hp : s.command.agent = .consumer → s.snapping = none) :
    Inv P t :=
  ⟨h.unitsInv hs.1, h.scopeInv hs.2.1 hw, h.agentsInv hs.2.2 hh hw hp⟩

end Block

theorem Inv.advanceWrite {w : Writing α} (hs : Inv P s) (hh : s.hanging ≠ some .producer) (hw : s.writing = some w) :
    Inv P (s.advanceWrite P w) := by
  obtain ⟨hu, hsc, ha⟩ := hs
  exact ⟨hu.of_eq (by simp) (by simp), hsc.advanceWrite hw, by simp [hh], by simpa using ha.consumer_hangs⟩

theorem Inv.advanceSnap {p : Snapping} (hs : Inv P s) (hh : s.hanging ≠ some .consumer) (hp : s.snapping = some p) :
    Inv P (s.advanceSnap P p) := by
  obtain ⟨hu, hsc, ha⟩ := hs
  exact ⟨hu.of_eq rfl rfl, hsc.advanceSnap hp, ha.producer_hangs, fun h => absurd h hh⟩

/-- Every step keeps the invariant, at any parameters. -/
theorem Inv.stepAt (hs : Inv P s) (h : Block.stepAt P s = .next t) : Inv P t := by
  obtain ⟨-, rfl⟩ | ⟨a, later, -, hcase⟩ := Block.stepWith_next P h
  · exact hs
  obtain ⟨w, rfl, hh, hw, rfl⟩ | ⟨p, rfl, hh, hp, rfl⟩ | ⟨-, rfl⟩ | ⟨c, rest, i, -, -, hh, hw, hp, hrun⟩ := hcase
  · exact (hs.withSchedule later).advanceWrite hh hw
  · exact (hs.withSchedule later).advanceSnap hh hp
  · exact hs.withSchedule later
  · exact (Block.perform_next P hrun).2.inv ((hs.withSchedule later).present a _ rest)
      (by simpa using hh) (by simpa using hw) (by simpa using hp)

end

/-- Settles O15: a step is an event of a SCOPE operation in progress, an operation of an agent inside no other, or no
change but of the schedule, and each keeps the three parts of the invariant. -/
theorem invariantKeptByEveryStep : Obligations.InvariantKeptByEveryStep :=
  fun s _ hs h => hs.stepAt (step_eq_stepAt s ▸ h)

/-! ### The one writer of each register (R22, R49) -/

theorem Stage.ofArg_eq_some {code : Arg} {k : Stage} : Stage.ofArg code = some k ↔ code.toNat = k.code := by
  constructor
  · intro h
    unfold Stage.ofArg at h
    split at h <;> cases h <;> assumption
  · intro h
    rw [Stage.ofArg, h]
    cases k <;> rfl

theorem envEnter_level {α : Type} (N : NumFormat α) {k : Stage} (hk : k ≠ .off) (e : Env α) :
    (envEnter N k e).level = e.level := by
  cases k with
  | off => exact absurd rfl hk
  | attack | decay | sustain | release => rfl

theorem envEnter_params {α : Type} (N : NumFormat α) (k : Stage) (e : Env α) :
    (envEnter N k e).attack = e.attack ∧ (envEnter N k e).decay = e.decay ∧ (envEnter N k e).sustain = e.sustain ∧
      (envEnter N k e).release = e.release ∧ (envEnter N k e).sr = e.sr := by
  cases k <;> exact ⟨rfl, rfl, rfl, rfl, rfl⟩

namespace Block

section

variable {α : Type} {nch : Nat} [DecidableEq α] {P : Params α} {s t : State α nch} {i : Instr} (h : Effect P s t i)
include h

theorem Effect.osc_writers :
    (i ≠ .oscNext → t.osc.phase = s.osc.phase) ∧ (i ≠ .oscSetFreq → t.osc.freq = s.osc.freq) ∧
    (i ≠ .oscSetSr → t.osc.sr = s.osc.sr) ∧ ((∀ w, i ≠ .oscSetWave w) → t.osc.wave = s.osc.wave) := by
  have hframe := h.onlyUnit.1
  cases i
  case oscSetSr | oscSetFreq => obtain ⟨-, rfl⟩ := h; simp
  case oscSetWave => obtain ⟨-, w, -, rfl⟩ := h; simp
  case oscNext =>
    obtain ⟨-, ⟨o, out, hnext, rfl⟩ | ⟨-, rfl⟩⟩ := h
    · obtain ⟨_, _, p, -, -, -, -, -, rfl, -⟩ := (oscNext_eq_some P.num).1 hnext
      simp
    · simp
  all_goals simp [hframe (by simp)]

theorem Effect.env_writers :
    ((∀ k, i ≠ .envEnter k) → i ≠ .envNext → t.env.stage = s.env.stage) ∧
    (i ≠ .envNext → i ≠ .envEnter 0 → t.env.level = s.env.level) ∧
    (i ≠ .envSetParams → t.env.attack = s.env.attack ∧ t.env.decay = s.env.decay ∧ t.env.sustain = s.env.sustain ∧
      t.env.release = s.env.release) ∧
    (i ≠ .envSetSr → t.env.sr = s.env.sr) := by
  have hframe := h.onlyUnit.2.1
  cases i
  case envSetSr => obtain rfl := h; simp
  case envSetParams => obtain rfl := h; simp [envSetParams]
  case envEnter code =>
    obtain ⟨k, hk, rfl⟩ := h
    refine ⟨by simp, fun _ hcode => envEnter_level P.num ?_ s.env, ?_⟩
    · rintro rfl
      exact hcode (congrArg Instr.envEnter (BitVec.eq_of_toNat_eq (Stage.ofArg_eq_some.1 hk)))
    · simp [envEnter_params]
  case envNext =>
    obtain ⟨e, hnext, rfl⟩ := h
    simp [envNext_keeps_params P.num hnext]
  case envActive => obtain rfl := h; simp
  all_goals simp [hframe (by simp)]

theorem Effect.svf_writers :
    (i ≠ .svfSetCutoff → t.svf.cutoff = s.svf.cutoff) ∧
    (i ≠ .svfSetRes → t.svf.res = s.svf.res ∧ t.svf.q = s.svf.q) ∧ (i ≠ .svfSetSr → t.svf.sr = s.svf.sr) ∧
    (i ≠ .svfSetCutoff → i ≠ .svfSetSr → t.svf.f = s.svf.f) ∧
    ((∀ k, i ≠ .svfSetType k) → t.svf.kind = s.svf.kind) ∧
    ((∀ ch, i ≠ .svfProc ch) → t.svf.band = s.svf.band ∧ t.svf.low = s.svf.low) := by
  have hframe := h.onlyUnit.2.2.1
  cases i
  case svfSetSr => obtain rfl := h; simp [svfSetSr, recomputeF]
  case svfSetCutoff => obtain rfl := h; simp [svfSetCutoff, recomputeF]
  case svfSetRes => obtain rfl := h; simp [svfSetRes]
  case svfSetType => obtain rfl := h; simp
  case svfProc =>
    obtain ⟨v, y, hproc, rfl⟩ := h
    obtain ⟨_, f, q, sr, cutoff, -, -, -, -, -, -, rfl, -⟩ := (svfProc_eq_next P.num).1 hproc
    simp
  all_goals simp [hframe (by simp)]

/-- Of the SCOPE state an operation changes only the record of events: its memory events are later steps (log entry 6). -/
theorem Effect.scope_registers :
    t.scope.mem = s.scope.mem ∧ t.scope.cursor = s.scope.cursor ∧ t.scope.rcur = s.scope.rcur := by
  have hframe := h.onlyUnit.2.2.2
  cases i
  case scopeWrite => obtain ⟨-, rfl⟩ := h; exact ⟨rfl, rfl, rfl⟩
  case scopeSnap => obtain ⟨-, -, rfl⟩ := h; exact ⟨rfl, rfl, rfl⟩
  all_goals simp [hframe (by simp)]

end

end Block

/-- Settles O16: `ENV_ENTER` of any code but 0 enters a stage that keeps the level. -/
theorem datapathRegistersHaveOneWriter : Obligations.DatapathRegistersHaveOneWriter := by
  intro i s t h
  obtain ⟨-, he⟩ := exec_next h
  obtain ⟨hphase, -⟩ := he.osc_writers
  obtain ⟨-, hlevel, -⟩ := he.env_writers
  obtain ⟨-, -, -, -, -, hchannels⟩ := he.svf_writers
  exact ⟨hphase, hlevel, hchannels⟩

/-- Settles O17, unit by unit. -/
theorem parameterRegistersHaveOneWriter : Obligations.ParameterRegistersHaveOneWriter := by
  intro i s t h
  obtain ⟨-, he⟩ := exec_next h
  obtain ⟨-, hfreq, hsr, hwave⟩ := he.osc_writers
  obtain ⟨hstage, -, hparams, henvSr⟩ := he.env_writers
  obtain ⟨hcutoff, hres, hsvfSr, hf, hkind, -⟩ := he.svf_writers
  exact ⟨hfreq, hsr, hwave, hstage, hparams, henvSr, hcutoff, hres, hsvfSr, hf, hkind, he.scope_registers⟩

/-! ### The refusals of `OSC_NEXT` and `ENV_NEXT` (R21, R114, R123, R138) -/

section

variable {α : Type} (N : NumFormat α)

theorem oscNext_of_unset {o : Osc α} (h : o.freq = .unset ∨ o.sr = .unset) : oscNext N o = .refused .unset := by
  unfold oscNext
  split
  · next hf hs => simp [hf, hs] at h
  · rfl

section

variable {o : Osc α} {freq sr : α} (hf : o.freq = .val freq) (hs : o.sr = .val sr)
include hf hs

theorem oscNext_of_bad_sr (hsr : N.gt sr N.zero = false) : oscNext N o = .refused .badSampleRate := by
  simp [oscNext, hf, hs, hsr]

theorem oscNext_of_bad_freq (hsr : N.gt sr N.zero = true) (hfreq : N.gt freq N.zero = false) :
    oscNext N o = .refused .badFrequency := by
  simp [oscNext, hf, hs, hsr, hfreq]

end

variable {e : Env α}

theorem envNext_of_attack_unset (hstage : e.stage = .attack) (h : e.attack = .unset ∨ e.sr = .unset) :
    envNext N e = .refused .unset := by
  simp only [envNext, hstage]
  split
  · next ha hs => simp [ha, hs] at h
  · rfl

theorem envNext_of_decay_unset (hstage : e.stage = .decay)
    (h : e.decay = .unset ∨ e.sustain = .unset ∨ e.sr = .unset) : envNext N e = .refused .unset := by
  simp only [envNext, hstage]
  split
  · next hd hu hs => simp [hd, hu, hs] at h
  · rfl

theorem envNext_of_sustain_unset (hstage : e.stage = .sustain) (h : e.sustain = .unset) :
    envNext N e = .refused .unset := by
  simp [envNext, hstage, h]

theorem envNext_of_release_unset (hstage : e.stage = .release)
    (h : e.release = .unset ∨ e.sustain = .unset ∨ e.sr = .unset) : envNext N e = .refused .unset := by
  simp only [envNext, hstage]
  split
  · next hr hu hs => simp [hr, hu, hs] at h
  · rfl

theorem envNext_of_bad_sr {a d u r sr : α} (hoff : e.stage ≠ .off) (hsustain : e.stage ≠ .sustain)
    (ha : e.attack = .val a) (hd : e.decay = .val d) (hu : e.sustain = .val u) (hr : e.release = .val r)
    (hs : e.sr = .val sr) (hsr : N.gt sr N.zero = false) : envNext N e = .refused .badSampleRate := by
  cases hstage : e.stage with
  | off => exact absurd hstage hoff
  | sustain => exact absurd hstage hsustain
  | attack => simp [envNext, hstage, ha, hs, hsr]
  | decay => simp [envNext, hstage, hd, hu, hs, hsr]
  | release => simp [envNext, hstage, hr, hu, hs, hsr]

end

section

variable {α : Type} {nch : Nat} (P : Params α) {s : Block.State α nch} {r : Refusal}

/-- An `OSC_NEXT` that passes the checks before its meaning is refused as the unit refuses it. -/
theorem Block.State.oscNext_refused (hop : s.command.operands = []) (hov : s.command.overlaps = false)
    (hh : s.hanging = none) (h : Machine.oscNext P.num s.osc = .refused r) : s.oscNext P = .refused r := by
  rw [Block.State.oscNext, Block.State.onOsc_pass (by simp [hop]) hov hh, h, mapNext_refused]

/-- The same of an `ENV_NEXT`. -/
theorem Block.State.envNext_refused (hop : s.command.operands = []) (hov : s.command.overlaps = false)
    (h : Machine.envNext P.num s.env = .refused r) : s.envNext P = .refused r := by
  rw [Block.State.envNext, Block.State.onUnit_pass (by simp [hop]) hov, h, mapNext_refused]

end

/-- Settles O23: the three refusals of the unit, in its order. -/
theorem oscNextRefusesUnsetAndNotPositive : Obligations.OscNextRefusesUnsetAndNotPositive := by
  intro s hop hov hh
  have hrefused {r} := Block.State.oscNext_refused Config.params (r := r) hop hov hh
  exact ⟨fun hunset => hrefused (oscNext_of_unset _ hunset),
    fun _ _ hf hs hsr => hrefused (oscNext_of_bad_sr _ hf hs hsr),
    fun _ _ hf hs hsr hfreq => hrefused (oscNext_of_bad_freq _ hf hs hsr hfreq)⟩

/-- Settles O35, stage by stage. -/
theorem envNextRefusesWhatItsStageNeeds : Obligations.EnvNextRefusesWhatItsStageNeeds := by
  intro s hop hov
  have hrefused {r} := Block.State.envNext_refused Config.params (r := r) hop hov
  exact ⟨fun hstage h => hrefused (envNext_of_attack_unset _ hstage h),
    fun hstage h => hrefused (envNext_of_decay_unset _ hstage h),
    fun hstage h => hrefused (envNext_of_sustain_unset _ hstage h),
    fun hstage h => hrefused (envNext_of_release_unset _ hstage h),
    fun _ _ _ _ _ hoff hsustain ha hd hu hr hs hsr =>
      hrefused (envNext_of_bad_sr _ hoff hsustain ha hd hu hr hs hsr)⟩

end Sys2Proof.Machine

/-! Proofs of the statements of spec/20_memory.md: the events of the two SCOPE operations, what a racing read and an
acquire load can see, and snapshots with and without a producer beside them. -/

namespace Sys2Proof.Machine

/-! ### Slots (R64, R177, R182) -/

/-- Fewer than `cap` slots on from a slot none is met again. -/
theorem slot_ne {cap i j : Nat} (c : Nat) (hij : i < j) (hj : j < i + cap) : (c + i) % cap ≠ (c + j) % cap := by
  intro h
  have hmod : i ≡ j [MOD cap] := Nat.ModEq.add_left_cancel' c h
  have := Nat.le_of_dvd (by omega) ((Nat.modEq_iff_dvd' hij.le).1 hmod)
  omega

@[simp] theorem nextSlot_add_mod (cap a k : Nat) : (nextSlot cap a + k) % cap = (a + (k + 1)) % cap := by
  rw [nextSlot, Nat.mod_add_mod]
  congr 1
  omega

/-- The `k`-th slot of a snapshot, counted on from the cursor. -/
theorem snapStart_add_mod {cap n : Nat} (hn : n ≤ cap) (c k : Nat) :
    (snapStart cap c n + k) % cap = (c + (cap - n + k)) % cap := by
  rw [snapStart, Nat.mod_add_mod]
  congr 1
  omega

/-! ### What a racing read may return (R68) -/

section

variable {α : Type}

theorem mem_writesTo {a : Nat} {x : α} {l : List (ScopeEvent α)} : x ∈ writesTo a l ↔ .write a x ∈ l := by
  induction l with
  | nil => simp [writesTo]
  | cons ev l ih =>
    cases ev with
    | write b y =>
      simp only [writesTo]
      split
      · next h => subst h; simp [ih]
      · next h => simp [ih, h]
    | publish c => simpa [writesTo] using ih

/-- Events in order from index `i` on write to none but the slots that follow `i` (R177). -/
theorem writesTo_of_inOrder {cap a i : Nat} {l : List (ScopeEvent α)} (hi : i < cap) (ho : inOrder cap i l)
    (h : ∀ j < writesIn l, (i + j) % cap ≠ a) : writesTo a l = [] := by
  induction l generalizing i with
  | nil => rfl
  | cons ev l ih =>
    cases ev with
    | write b x =>
      obtain ⟨rfl, ho⟩ := ho
      have hab : a ≠ b := fun hab => h 0 (Nat.succ_pos _) (by rw [hab]; exact Nat.mod_eq_of_lt hi)
      rw [writesTo, if_neg hab]
      refine ih (nextSlot_lt (by omega) b) ho fun j hj => ?_
      rw [nextSlot_add_mod]
      exact h (j + 1) (Nat.succ_lt_succ hj)
    | publish c => exact ih hi ho.2 h

variable (d : α)

theorem Trail.mem_candidates {t : Trail α} {a : Nat} {x : α} :
    x ∈ t.candidates d a ↔ x = t.base.read d a ∨ .write a x ∈ t.later := by
  rw [Trail.candidates, List.mem_cons, mem_writesTo]

theorem Scope.memRead_mem_candidates (sc : Scope α) (pick a : Nat) : sc.memRead d pick a ∈ sc.trail.candidates d a := by
  have hlt : pick % (sc.trail.candidates d a).length < (sc.trail.candidates d a).length :=
    Nat.mod_lt _ (Nat.succ_pos _)
  simp only [Scope.memRead, List.getD_eq_getElem _ _ hlt, List.getElem_mem]

/-- Each candidate is the answer for some choice. -/
theorem Scope.exists_memRead_eq {sc : Scope α} {a : Nat} {x : α} :
    (∃ pick, sc.memRead d pick a = x) ↔ x ∈ sc.trail.candidates d a := by
  constructor
  · rintro ⟨pick, rfl⟩
    exact sc.memRead_mem_candidates d pick a
  · intro hx
    obtain ⟨k, hk, rfl⟩ := List.getElem_of_mem hx
    exact ⟨k, by simp [Scope.memRead, Nat.mod_eq_of_lt hk, hk]⟩

/-- While the writes since the observed publication stay out of a snapshot's slots, each has one candidate (R70). -/
theorem Trail.candidates_of_writes_out {t : Trail α} {cap n k : Nat} (hc : t.baseCursor < cap)
    (ho : inOrder cap t.baseCursor t.later) (hn : n ≤ cap) (hk : k < n) (hw : writesIn t.later ≤ cap - n) :
    t.candidates d ((snapStart cap t.baseCursor n + k) % cap) =
      [t.base.read d ((snapStart cap t.baseCursor n + k) % cap)] := by
  rw [Trail.candidates, writesTo_of_inOrder hc ho]
  intro j hj
  rw [snapStart_add_mod hn]
  exact slot_ne _ (by omega) (by omega)

end

/-- Settles O56: a read has the one candidate that the publication itself gives. -/
theorem snapshotIsExactWhileWritesStayOut : Obligations.SnapshotIsExactWhileWritesStayOut := by
  intro α _ d cap sc n k pick hc ho hn hk hw
  have h := sc.memRead_mem_candidates d pick ((snapStart cap sc.trail.baseCursor n + k) % cap)
  rw [Trail.candidates_of_writes_out d hc ho hn hk hw] at h
  exact List.mem_singleton.1 h

/-- Settles O53: the answers of a read are its candidates, and the step is the read of the snapshot's present slot. -/
theorem readReturnsAnyCandidate : Obligations.ReadReturnsAnyCandidate := by
  refine ⟨fun α _ d sc slot x => (Scope.exists_memRead_eq d).trans (Trail.mem_candidates d),
    fun s later p hs hh hp => ?_⟩
  refine ⟨_, _, Block.stepWith_of_snapping _ hs hh hp, rfl, rfl,
    (Trail.mem_candidates _).1 (Scope.memRead_mem_candidates _ _ _ _), rfl, fun h => ?_, fun n h => ?_,
    rfl, rfl, rfl, rfl, rfl, rfl⟩
  · simp [h, moreReads]
  · simp [h, moreReads, nextSlot]

/-! ### What an acquire load sees (R66, R67) -/

section

variable {α : Type}

/-- With nothing unpublished the events end in a publication. -/
theorem eq_nil_or_publish_of_published {l : List (ScopeEvent α)} (h : unpublished 0 l = 0) :
    l = [] ∨ ∃ evs cursor, l = evs ++ [.publish cursor] := by
  obtain rfl | ⟨evs, ev, rfl⟩ := List.eq_nil_or_concat l
  · exact .inl rfl
  · cases ev with
    | write a x => simp [unpublished] at h
    | publish cursor => exact .inr ⟨evs, cursor, by simp⟩

/-- Events that publish nothing leave all their samples unpublished. -/
theorem eq_nil_of_no_publications {l : List (ScopeEvent α)} (hp : publications l = 0) (hu : unpublished 0 l = 0) :
    l = [] := by
  obtain rfl | ⟨evs, cursor, rfl⟩ := eq_nil_or_publish_of_published hu
  · rfl
  · simp [publications] at hp

variable [DecidableEq α] (d : α)

theorem publications_forward {k c : Nat} {m : Memory α} {evs : List (ScopeEvent α)} (hk : k ≤ publications evs) :
    k + publications (Trail.forward d k m c evs).later = publications evs := by
  induction evs generalizing k m c with
  | nil => obtain rfl := Nat.le_zero.1 hk; rfl
  | cons ev evs ih =>
    cases k with
    | zero => exact Nat.zero_add _
    | succ k =>
      cases ev with
      | write a x => exact ih hk
      | publish c' =>
        have := ih (m := m) (c := c') (Nat.le_of_succ_le_succ hk)
        simp only [Trail.forward, publications]
        omega

/-- The load observes as many publications as its choice says, and after the last of them nothing. -/
theorem Scope.loadAcquire_observes (pick : Nat) (sc : Scope α) :
    ∃ before rest, sc.trail.later = before ++ rest ∧ publications before = pick % (publications sc.trail.later + 1) ∧
      unpublished 0 before = 0 ∧ (sc.loadAcquire d pick).trail =
        { base := replay d sc.trail.base before, baseCursor := lastCursor sc.trail.baseCursor before, later := rest } := by
  obtain ⟨before, rest, hsplit, hu, htrail⟩ := sc.loadAcquire_split d pick
  refine ⟨before, rest, hsplit, ?_, hu, htrail⟩
  have hpubs := publications_forward d (c := sc.trail.baseCursor) (m := sc.trail.base)
    (Nat.le_of_lt_succ (Nat.mod_lt pick (Nat.succ_pos (publications sc.trail.later))))
  change _ + publications (sc.loadAcquire d pick).trail.later = _ at hpubs
  rw [htrail, hsplit, publications_append] at hpubs
  rw [hsplit, publications_append]
  exact (Nat.add_right_cancel hpubs).symm

end

/-- Settles O54: the load splits the events at a publication. -/
theorem acquireLoadSeesAllBeforeItsPublication : Obligations.AcquireLoadSeesAllBeforeItsPublication := by
  intro α _ d sc pick
  obtain ⟨before, rest, hsplit, hpubs, hu, htrail⟩ := sc.loadAcquire_observes d pick
  rw [htrail]
  exact ⟨before, hsplit, hpubs, eq_nil_or_publish_of_published hu, rfl, rfl⟩

/-- Settles O51: a well-formed `SCOPE_SNAP` of the consumer's does what its effect says. -/
theorem scopeSnapBeginsBeforeTheCursor : Obligations.ScopeSnapBeginsBeforeTheCursor := by
  intro s count hop ha hcount
  refine ⟨_, (exec_eq_perform _ s).trans (Block.perform_of_effect Config.params (by simp [hop, Instr.operandCount])
    (by simp) ⟨ha, hcount, rfl⟩), rfl, rfl, ?_, ?_, rfl, rfl, rfl, rfl, rfl, rfl, rfl, rfl, rfl, rfl, rfl, rfl⟩
  · rintro rfl
    rfl
  · intro n hn
    simp [hn, moreReads, snapStart]

/-- Settles O57: the load observes both events, and then the slot holds `x`, or neither, and then the slot read is not
the one written. -/
theorem publicationMakesTheSampleVisible : Obligations.PublicationMakesTheSampleVisible := by
  intro α _ d x cap sc pick pick' hcap hcursor hlater hbaseCursor hbase written loaded
  have htrail : loaded.trail = Trail.forward d (pick % 2) sc.mem sc.cursor
      [.write sc.cursor x, .publish (nextSlot cap sc.cursor)] := by
    simp [loaded, written, Scope.loadAcquire, hlater, hbase, hbaseCursor, publications]
  have hread := loaded.memRead_mem_candidates d pick' (snapStart cap loaded.trail.baseCursor 1)
  rw [Trail.mem_candidates, htrail] at hread
  have hold : snapStart cap sc.cursor 1 ≠ sc.cursor := by
    have := slot_ne (cap := cap) sc.cursor (i := 0) (j := cap - 1) (by omega) (by omega)
    rw [Nat.add_zero, Nat.mod_eq_of_lt hcursor] at this
    rw [snapStart, Nat.add_sub_assoc hcap.le]
    exact this.symm
  have hnew : snapStart cap (nextSlot cap sc.cursor) 1 = sc.cursor := by
    rw [snapStart, Nat.add_sub_assoc hcap.le, nextSlot_add_mod, Nat.sub_add_cancel hcap.le, Nat.add_mod_right,
      Nat.mod_eq_of_lt hcursor]
  rw [htrail]
  obtain hpick | hpick := Nat.mod_two_eq_zero_or_one pick
  · simpa [hpick, Trail.forward, hold] using hread
  · simpa [hpick, Trail.forward, hnew] using hread

/-! ### The events the producer performs (R66, R69, R177, R178) -/

section

variable {α : Type}

/-- The events of a `SCOPE_WRITE` of the samples `xs` that are left, from the slot `slot` on (R180). -/
def writeEvents (cap : Nat) : Nat → List α → List (ScopeEvent α)
  | slot, [] => [.publish slot]
  | slot, x :: xs => .write slot x :: writeEvents cap (nextSlot cap slot) xs

@[simp] theorem writesIn_writeEvents (cap slot : Nat) (xs : List α) :
    writesIn (writeEvents cap slot xs) = xs.length := by
  induction xs generalizing slot with
  | nil => rfl
  | cons x xs ih => simp [writeEvents, writesIn, ih]

theorem inOrder_writeEvents (cap slot : Nat) (xs : List α) : inOrder cap slot (writeEvents cap slot xs) := by
  induction xs generalizing slot with
  | nil => exact ⟨rfl, trivial⟩
  | cons x xs ih => exact ⟨rfl, ih _⟩

theorem lastCursor_writeEvents {cap slot : Nat} (hslot : slot < cap) (c : Nat) (xs : List α) :
    lastCursor c (writeEvents cap slot xs) = (slot + xs.length) % cap := by
  induction xs generalizing slot with
  | nil => exact (Nat.mod_eq_of_lt hslot).symm
  | cons x xs ih =>
    rw [writeEvents, lastCursor, ih (nextSlot_lt (by omega) slot), nextSlot_add_mod, List.length_cons]

variable [DecidableEq α] (d : α)

/-- SCOPE once the producer has performed the events: they reach the memory, the cursor and the record. -/
def Scope.performed (evs : List (ScopeEvent α)) (sc : Scope α) : Scope α :=
  { sc with
    mem := replay d sc.mem evs
    cursor := lastCursor sc.cursor evs
    trail := { sc.trail with later := sc.trail.later ++ evs } }

variable (sc : Scope α) (evs : List (ScopeEvent α))

@[simp] theorem Scope.performed_mem : (sc.performed d evs).mem = replay d sc.mem evs := rfl
@[simp] theorem Scope.performed_cursor : (sc.performed d evs).cursor = lastCursor sc.cursor evs := rfl
@[simp] theorem Scope.performed_trail :
    (sc.performed d evs).trail = { sc.trail with later := sc.trail.later ++ evs } := rfl

@[simp] theorem Scope.performed_nil : sc.performed d [] = sc := by simp [Scope.performed, replay, lastCursor]

@[simp] theorem Scope.performed_performed (evs' : List (ScopeEvent α)) :
    (sc.performed d evs).performed d evs' = sc.performed d (evs ++ evs') := by
  simp [Scope.performed]

/-- A write changes no slot but those of its samples. -/
theorem read_replay_writeEvents_other {cap slot a : Nat} (hslot : slot < cap) (m : Memory α) {xs : List α}
    (h : ∀ k < xs.length, (slot + k) % cap ≠ a) : (replay d m (writeEvents cap slot xs)).read d a = m.read d a :=
  replay_read_of_writesTo_nil d (writesTo_of_inOrder hslot (inOrder_writeEvents cap slot xs) (by simpa using h))

/-- After a write a slot holds the last sample that went to it. -/
theorem read_replay_writeEvents {cap slot k : Nat} (hslot : slot < cap) (m : Memory α) {xs : List α}
    (hk : k < xs.length) (hlast : ∀ j, k < j → j < xs.length → (slot + j) % cap ≠ (slot + k) % cap) :
    (replay d m (writeEvents cap slot xs)).read d ((slot + k) % cap) = xs[k] := by
  induction xs generalizing slot k m with
  | nil => cases hk
  | cons x xs ih =>
    have hnext : nextSlot cap slot < cap := nextSlot_lt (by omega) slot
    rw [writeEvents, replay]
    cases k with
    | zero =>
      rw [Nat.add_zero, Nat.mod_eq_of_lt hslot] at hlast ⊢
      rw [read_replay_writeEvents_other d hnext, Memory.read_write_same, List.getElem_cons_zero]
      intro j hj
      rw [nextSlot_add_mod]
      exact hlast (j + 1) (Nat.succ_pos j) (Nat.succ_lt_succ hj)
    | succ k =>
      rw [← nextSlot_add_mod, List.getElem_cons_succ]
      refine ih hnext _ (Nat.lt_of_succ_lt_succ hk) fun j hkj hj => ?_
      simpa using hlast (j + 1) (Nat.succ_lt_succ hkj) (Nat.succ_lt_succ hj)

end

/-! ### The steps of a `SCOPE_WRITE` (R176, R180) -/

namespace Block

section

variable {α : Type} {nch : Nat} [DecidableEq α] (P : Params α) {s : State α nch}

theorem State.advanceWrite_cons (s : State α nch) (slot : Nat) (x : α) (xs : List α) :
    s.advanceWrite P { slot := slot, rest := x :: xs } =
      { s with
        scope := s.scope.performed P.num.zero [.write slot x]
        writing := some { slot := nextSlot P.scopeCap slot, rest := xs } } := rfl

theorem State.advanceWrite_nil (s : State α nch) (slot : Nat) :
    s.advanceWrite P { slot := slot, rest := [] } =
      { s with scope := s.scope.performed P.num.zero [.publish slot], writing := none } := rfl

/-- An agent inside no operation executes its next command. -/
theorem stepAt_of_issues {a : Agent} {later : List Agent} {c : Command α} {rest : List (Command α)} {i : Instr}
    (hs : s.Issues a later) (hp : (s.port a).pending = c :: rest) (hi : decode c.word = some i) :
    stepAt P s = State.perform P i (({ s with schedule := later } : State α nch).present a
      { c with missable := ({ s with schedule := later } : State α nch).mayMiss i c } rest) := by
  rw [stepAt, stepWith_of_issues P hs, issueNext_of_pending (by simpa using hp) hi]

theorem stepAt_of_writing {later : List Agent} {w : Writing α} (hs : s.schedule = .producer :: later)
    (hh : s.hanging ≠ some .producer) (hw : s.writing = some w) :
    stepAt P s = .next (({ s with schedule := later } : State α nch).advanceWrite P w) :=
  stepWith_of_writing P hs hh hw

/-- The steps of the producer alone that are left of a write in progress. -/
theorem repeated_of_writing {slot : Nat} {xs : List α} {later : List Agent} (hh : s.hanging ≠ some .producer)
    (hw : s.writing = some { slot := slot, rest := xs })
    (hs : s.schedule = List.replicate (xs.length + 1) .producer ++ later) :
    repeated (stepAt P) (xs.length + 1) s = .next { s with
      scope := s.scope.performed P.num.zero (writeEvents P.scopeCap slot xs), writing := none, schedule := later } := by
  induction xs generalizing s slot with
  | nil => exact repeated_succ 0 (stepAt_of_writing P hs hh hw)
  | cons x xs ih =>
    refine (repeated_succ _ (stepAt_of_writing P hs hh hw)).trans (Eq.trans (ih hh rfl rfl) ?_)
    simp [State.advanceWrite_cons, writeEvents]

end

end Block

/-- The decoder meets the fields of an encoded word (R81, R87). -/
theorem decode_encode_fields (i : Instr) :
    decode (encode i) = decodeFields (i.opcode.toNat / 16) (i.opcode.toNat % 16) i.arg := by
  have harg := i.arg.isLt
  have hword := encode_toNat i
  have hunit : (unitField (encode i)).toNat = i.opcode.toNat / 16 := by rw [unitField_toNat]; omega
  have hfunc : (funcField (encode i)).toNat = i.opcode.toNat % 16 := by rw [funcField_toNat]; omega
  have hfield : argField (encode i) = i.arg := BitVec.eq_of_toNat_eq (by rw [argField_toNat]; omega)
  rw [decode, hunit, hfunc, hfield]

theorem decode_encode_scopeWrite (count : Arg) : decode (encode (.scopeWrite count)) = some (.scopeWrite count) := by
  simp [decode_encode_fields, Instr.opcode, Instr.arg, decodeFields]

theorem decode_encode_scopeSnap (count : Arg) : decode (encode (.scopeSnap count)) = some (.scopeSnap count) := by
  simp [decode_encode_fields, Instr.opcode, Instr.arg, decodeFields]

namespace Block

section

variable {α : Type} {nch : Nat} [DecidableEq α] (P : Params α) {s : State α nch}

/-- A `SCOPE_WRITE` run by the producer alone, from its presentation to its publication (R176, R180, R235). -/
theorem repeated_scopeWrite {c : Command α} {rest : List (Command α)} {later : List Agent}
    (hlen : c.operands.length < 2 ^ 24) (hc : c.word = encode (.scopeWrite (BitVec.ofNat 24 c.operands.length)))
    (hh : s.hanging ≠ some .producer) (hw : s.writing = none) (hp : s.producer.pending = c :: rest)
    (hs : s.schedule = List.replicate (c.operands.length + 2) .producer ++ later) :
    repeated (stepAt P) (c.operands.length + 2) s = .next { s with
      scope := s.scope.performed P.num.zero (writeEvents P.scopeCap s.scope.cursor c.operands)
      producer := { s.producer with pending := rest }
      schedule := later
      command := { agent := .producer, operands := c.operands, overlaps := c.overlaps, missable := c.missable }
      writing := none } := by
  have hcount : c.operands.length = (BitVec.ofNat 24 c.operands.length).toNat := by
    simpa using (Nat.mod_eq_of_lt hlen).symm
  have hi : decode c.word = some (.scopeWrite (BitVec.ofNat 24 c.operands.length)) := by
    rw [hc, decode_encode_scopeWrite]
  have hbegin := (stepAt_of_issues P ⟨hs, hh, fun _ => hw, nofun⟩ hp hi).trans
    (perform_of_effect P hcount (by simp) ⟨rfl, rfl⟩)
  refine (repeated_succ _ hbegin).trans (Eq.trans (repeated_of_writing P hh rfl rfl) ?_)
  rfl

end

end Block

/-- A run of the host's machine is the block's at the host's parameters. -/
theorem stepN_eq_repeated (k : Nat) (s : State) : stepN k s = repeated (Block.stepAt Config.params) k s := by
  rw [stepN, show step = Block.stepAt Config.params from funext step_eq_stepAt]

/-- Settles O48: the two forms of a write's next event. -/
theorem writeEventsStoreAndPublish : Obligations.WriteEventsStoreAndPublish := by
  intro s later slot rest hs hh hw
  refine ⟨_, Block.stepWith_of_writing _ hs hh hw, ?_⟩
  cases rest with
  | nil => simp [Block.State.advanceWrite_nil, Scope.performed, replay, lastCursor]
  | cons y ys =>
    simp +contextual [Block.State.advanceWrite_cons, Scope.performed, replay, lastCursor, nextSlot,
      Memory.read_write_other]

/-- Settles O50: no later sample of the write takes a slot of the window. -/
theorem windowHoldsTheLastSamplesWritten : Obligations.WindowHoldsTheLastSamplesWritten := by
  intro s c rest later n k hlen hc hh hw hp hcursor hs hncap hn hk
  refine ⟨_, (stepN_eq_repeated _ s).trans (Block.repeated_scopeWrite Config.params hlen hc hh hw hp hs), ?_⟩
  have hslot : (lastCursor s.scope.cursor (writeEvents Config.scopeCap s.scope.cursor c.operands) +
      Config.scopeCap - n + k) % Config.scopeCap =
        (s.scope.cursor + (c.operands.length - n + k)) % Config.scopeCap := by
    rw [lastCursor_writeEvents hcursor, Nat.add_sub_assoc hncap, Nat.add_assoc, Nat.mod_add_mod,
      show s.scope.cursor + c.operands.length + (Config.scopeCap - n + k) =
        s.scope.cursor + (c.operands.length - n + k) + Config.scopeCap by omega, Nat.add_mod_right]
  simp only [Scope.performed_cursor, Scope.performed_mem]
  rw [hslot, read_replay_writeEvents _ hcursor _ (by omega) fun j hj hlt => (slot_ne _ hj (by omega)).symm,
    List.getElem?_eq_getElem]

/-! ### Runs (R12) -/

section

variable {σ : Type} {next : σ → Result σ} {s t u : σ}

theorem repeated_succ_eq_next {k : Nat} : repeated next (k + 1) s = .next t ↔
    ∃ u, next s = .next u ∧ repeated next k u = .next t := by
  rw [repeated]
  cases next s <;> simp

theorem repeated_add {k : Nat} (j : Nat) (h : repeated next k s = .next u) :
    repeated next (k + j) s = repeated next j u := by
  induction k generalizing s with
  | zero => cases h; rw [Nat.zero_add]
  | succ k ih =>
    obtain ⟨v, hv, hu⟩ := repeated_succ_eq_next.1 h
    rw [Nat.add_right_comm, repeated_succ _ hv, ih hu]

end

theorem Inv.repeated {α : Type} {nch : Nat} [DecidableEq α] {P : Params α} {s t : Block.State α nch} {k : Nat}
    (hs : Inv P s) (h : repeated (Block.stepAt P) k s = .next t) : Inv P t := by
  induction k generalizing s with
  | zero => cases h; exact hs
  | succ k ih =>
    obtain ⟨u, hu, ht⟩ := repeated_succ_eq_next.1 h
    exact ih (hs.stepAt hu) ht

/-! ### The window before a cursor (R182, R185) -/

section

variable {α : Type} (d : α)

/-- The `n` samples of the memory that end just before `cursor`, oldest first. -/
def Memory.window (cap cursor n : Nat) (m : Memory α) : List α :=
  (List.range n).map fun k => m.read d ((cursor + cap - n + k) % cap)

theorem Memory.eq_window {cap cursor n : Nat} {m : Memory α} {values : List α} (hn : values.length = n)
    (h : ∀ (i : Nat) (hi : i < values.length), values[i] = m.read d ((snapStart cap cursor n + i) % cap)) :
    values = m.window d cap cursor n :=
  List.ext_getElem (by simp [Memory.window, hn]) fun i hi _ => by simp [h i hi, Memory.window, snapStart]

end

namespace Block

/-! ### A step of the producer's beside a snapshot (R12, R70, R73) -/

section

variable {α : Type} {nch : Nat} {s t : State α nch}

/-- From `s` to `t` the schedule and the commands to present stay, and of the ports at most agent `a`'s results
change. -/
structure OnlyResultsOf (a : Agent) (s t : State α nch) : Prop where
  schedule : t.schedule = s.schedule
  other : ∀ b, b ≠ a → t.port b = s.port b
  pending : ∀ b, (t.port b).pending = (s.port b).pending

theorem OnlyResultsOf.of_ports {a : Agent} (hs : t.schedule = s.schedule) (hp : ∀ b, t.port b = s.port b) :
    OnlyResultsOf a s t :=
  ⟨hs, fun b _ => hp b, fun b => by rw [hp]⟩

theorem OnlyResultsOf.reply {a : Agent} (h : OnlyResultsOf a s t) (ha : t.command.agent = a) (v : Reply α) :
    OnlyResultsOf a s (t.reply v) := by
  subst ha
  exact ⟨by simpa using h.schedule, fun b hb => (State.replyTo_port_other _ v hb).trans (h.other b hb),
    fun b => (State.replyTo_pending _ _ _ _).trans (h.pending b)⟩

theorem quiescentFor_iff {n : Nat} : s.quiescentFor n = true ↔ s.writing = none ∧ (s.hanging = some .producer ∨
    ∀ c ∈ s.producer.pending.take (producerTurns n s.schedule), beginsWrite c.word = false) := by
  simp [State.quiescentFor]

theorem ne_scopeWrite_of_beginsWrite {cw : CommandWord} {i : Instr} (hb : beginsWrite cw = false)
    (hi : decode cw = some i) (count : Arg) : i ≠ .scopeWrite count := by
  rintro rfl
  simp [beginsWrite, hi] at hb

variable [DecidableEq α] (P : Params α)

/-- An operation returns its results to its issuer alone and presents nothing (R89). -/
theorem Effect.onlyResultsOf {i : Instr} (h : Effect P s t i) : OnlyResultsOf s.command.agent s t := by
  cases i
  case oscSetSr | oscSetFreq => obtain ⟨-, rfl⟩ := h; exact .of_ports rfl (by simp)
  case oscSetWave => obtain ⟨-, w, -, rfl⟩ := h; exact .of_ports rfl (by simp)
  case oscNext =>
    obtain ⟨-, ⟨o, out, -, rfl⟩ | ⟨-, rfl⟩⟩ := h
    · exact OnlyResultsOf.reply (s := s) (t := s.withOsc o) (.of_ports rfl (by simp)) rfl _
    · exact .of_ports rfl fun a => by cases a <;> rfl
  case envSetSr | envSetParams => obtain rfl := h; exact .of_ports rfl (by simp)
  case envEnter => obtain ⟨k, -, rfl⟩ := h; exact .of_ports rfl (by simp)
  case envNext =>
    obtain ⟨e, -, rfl⟩ := h
    exact OnlyResultsOf.reply (s := s) (t := s.withEnv e) (.of_ports rfl (by simp)) rfl _
  case envActive => obtain rfl := h; exact OnlyResultsOf.reply (.of_ports rfl fun _ => rfl) rfl _
  case svfSetSr | svfSetCutoff | svfSetRes | svfSetType => obtain rfl := h; exact .of_ports rfl (by simp)
  case svfProc =>
    obtain ⟨v, y, -, rfl⟩ := h
    exact OnlyResultsOf.reply (s := s) (t := s.withSvf v) (.of_ports rfl (by simp)) rfl _
  case scopeWrite => obtain ⟨-, rfl⟩ := h; exact .of_ports rfl fun a => by cases a <;> rfl
  case scopeSnap => obtain ⟨-, -, rfl⟩ := h; exact .of_ports rfl fun a => by cases a <;> rfl

/-- An operation of the producer's performs no memory event and touches no snapshot, and only `SCOPE_WRITE` begins a
write. -/
theorem Effect.of_producer {i : Instr} (h : Effect P s t i) (ha : s.command.agent = .producer) :
    t.scope = s.scope ∧ t.snapping = s.snapping ∧ (t.hanging = s.hanging ∨ t.hanging = some .producer) ∧
      ((∀ count, i ≠ .scopeWrite count) → t.writing = s.writing) := by
  obtain ⟨hosc, -, -, hscope⟩ := h.onlyUnit
  cases i
  case oscNext =>
    obtain ⟨h1, h2, h3, -⟩ := hscope (by simp)
    obtain ⟨-, ⟨o, out, -, rfl⟩ | ⟨-, rfl⟩⟩ := h
    · simp
    · simp [ha]
  case oscSetSr | oscSetFreq => obtain ⟨-, rfl⟩ := h; simp
  case oscSetWave => obtain ⟨-, w, -, rfl⟩ := h; simp
  case scopeWrite => obtain ⟨-, rfl⟩ := h; simp
  case scopeSnap => obtain ⟨hc, -⟩ := h; simp [ha] at hc
  all_goals simp [hosc (by simp), hscope (by simp)]

/-- What a step of the producer's does to a snapshot beside it: it performs the events `evs`, which are none while the
producer is quiescent, and the producer stays so. -/
structure ProducerStep (s t : State α nch) (later : List Agent) (evs : List (ScopeEvent α)) : Prop where
  schedule : t.schedule = later
  scope : t.scope = s.scope.performed P.num.zero evs
  consumer : t.consumer = s.consumer
  snapping : t.snapping = s.snapping
  hanging : s.hanging ≠ some .consumer → t.hanging ≠ some .consumer
  quiescent : ∀ n, s.quiescentFor (n + 1) = true → evs = [] ∧ t.quiescentFor (n + 1) = true

theorem producerStep_advanceWrite {later : List Agent} {w : Writing α} (hw : s.writing = some w) :
    ∃ evs, ProducerStep P s (({ s with schedule := later } : State α nch).advanceWrite P w) later evs := by
  have hquiet (n : Nat) (hq : s.quiescentFor (n + 1) = true) : False := by
    simp [(quiescentFor_iff.1 hq).1] at hw
  obtain ⟨slot, rest⟩ := w
  cases rest with
  | nil => exact ⟨[.publish slot], rfl, rfl, rfl, rfl, id, fun n hq => (hquiet n hq).elim⟩
  | cons x xs => exact ⟨[.write slot x], rfl, rfl, rfl, rfl, id, fun n hq => (hquiet n hq).elim⟩

theorem producerStep_idle {later : List Agent} (hidle : s.hanging = some .producer ∨ s.producer.pending = []) :
    ProducerStep P s { s with schedule := later } later [] := by
  refine ⟨rfl, by simp, rfl, rfl, id, fun n hq => ⟨rfl, ?_⟩⟩
  obtain ⟨hw, -⟩ := quiescentFor_iff.1 hq
  exact quiescentFor_iff.2 ⟨hw, hidle.imp id fun hp => by simp [hp]⟩

theorem producerStep_operation {later : List Agent} {c : Command α} {rest : List (Command α)} {i : Instr}
    {miss : Option Nat} (hs : s.schedule = .producer :: later) (hh : s.hanging ≠ some .producer)
    (hp : s.producer.pending = c :: rest) (hi : decode c.word = some i)
    (h : Effect P (({ s with schedule := later } : State α nch).present .producer { c with missable := miss } rest)
      t i) :
    ProducerStep P s t later [] := by
  obtain ⟨hsched, hother, hpending⟩ := h.onlyResultsOf
  obtain ⟨hscope, hsnapping, hhanging, hwriting⟩ := h.of_producer P rfl
  refine ⟨hsched, by simpa using hscope, hother .consumer (by simp), hsnapping, fun hc => ?_, fun n hq => ⟨rfl, ?_⟩⟩
  · obtain h' | h' := hhanging <;> simp [h', hc]
  obtain ⟨hw, hq | hq⟩ := quiescentFor_iff.1 hq
  · exact absurd hq hh
  rw [hs, hp, producerTurns, List.take_succ_cons, List.forall_mem_cons] at hq
  obtain ⟨hfirst, hrest⟩ := hq
  refine quiescentFor_iff.2 ⟨(hwriting (ne_scopeWrite_of_beginsWrite hfirst hi)).trans hw, .inr ?_⟩
  rw [hsched, show t.producer.pending = rest from hpending .producer]
  exact hrest

theorem stepAt_producer {later : List Agent} (hs : s.schedule = .producer :: later) (h : stepAt P s = .next t) :
    ∃ evs, ProducerStep P s t later evs := by
  obtain ⟨hs', -⟩ | ⟨a, later', hs', hcase⟩ := stepWith_next P h
  · simp [hs] at hs'
  obtain ⟨rfl, rfl⟩ : Agent.producer = a ∧ later = later' := by simpa [hs] using hs'
  obtain ⟨w, -, -, hw, rfl⟩ | ⟨p, ha, -⟩ | ⟨hidle, rfl⟩ | ⟨c, rest, i, hp, hi, hh, -, -, hrun⟩ := hcase
  · exact producerStep_advanceWrite P hw
  · simp at ha
  · exact ⟨[], producerStep_idle P hidle⟩
  · exact ⟨[], producerStep_operation P hs hh hp hi (perform_next P hrun).2⟩

end

/-! ### The reads of a snapshot (R68, R181, R184) -/

section

variable {α : Type} {nch : Nat} [DecidableEq α] (P : Params α) {s t u : State α nch}

theorem stepAt_of_snapping {later : List Agent} {p : Snapping} (hs : s.schedule = .consumer :: later)
    (hh : s.hanging ≠ some .consumer) (hp : s.snapping = some p) :
    stepAt P s = .next (({ s with schedule := later } : State α nch).advanceSnap P p) :=
  stepWith_of_snapping P hs hh hp

/-- From `s` to `t` the `n` reads that are left of a snapshot, from `slot` on, return `values`, while the producer
performs the events `evs`: each value is a candidate of its slot, with some of these events `seen` performed, none of
them if the producer is quiescent until the last read. -/
structure Reads (s t : State α nch) (slot n : Nat) (evs : List (ScopeEvent α)) (values : List α) : Prop where
  scope : t.scope = s.scope.performed P.num.zero evs
  consumer : t.consumer = { s.consumer with results := s.consumer.results ++ values.map .num }
  snapping : t.snapping = none
  length : values.length = n
  candidate : ∀ (i : Nat) (hi : i < values.length), ∃ seen, seen <+: evs ∧ (s.quiescentFor n = true → seen = []) ∧
    values[i] ∈ (s.scope.performed P.num.zero seen).trail.candidates P.num.zero ((slot + i) % P.scopeCap)

theorem Reads.none (slot : Nat) (hp : s.snapping = none) : Reads P s s slot 0 [] [] :=
  ⟨by simp, by simp, hp, rfl, nofun⟩

variable {P} {slot n : Nat} {later : List Agent}

/-- A step of the producer's before the reads. -/
theorem Reads.after_producer {evs evs' : List (ScopeEvent α)} {values : List α} (hstep : ProducerStep P s u later evs)
    (h : Reads P u t slot n evs' values) : Reads P s t slot n (evs ++ evs') values where
  scope := by rw [h.scope, hstep.scope, Scope.performed_performed]
  consumer := by rw [h.consumer, hstep.consumer]
  snapping := h.snapping
  length := h.length
  candidate i hi := by
    obtain ⟨seen, ⟨unseen, rfl⟩, hquiet, hmem⟩ := h.candidate i hi
    rw [hstep.scope, Scope.performed_performed] at hmem
    refine ⟨evs ++ seen, ⟨unseen, List.append_assoc _ _ _⟩, fun hq => ?_, hmem⟩
    obtain ⟨m, rfl⟩ : ∃ m, n = m + 1 := ⟨n - 1, by have := h.length; omega⟩
    obtain ⟨hevs, hq'⟩ := hstep.quiescent m hq
    simp [hevs, hquiet hq']

/-- A read before the others. -/
theorem Reads.after_read {evs : List (ScopeEvent α)} {values : List α} (hs : s.schedule = .consumer :: later)
    (hslot : slot < P.scopeCap)
    (h : Reads P (({ s with schedule := later } : State α nch).advanceSnap P { slot := slot, after := n }) t
      (nextSlot P.scopeCap slot) n evs values) :
    Reads P s t slot (n + 1) evs (s.scope.memRead P.num.zero (P.draw s.draws) slot :: values) where
  scope := h.scope
  consumer := by rw [h.consumer]; simp [State.advanceSnap, State.replyTo, State.withPort]
  snapping := h.snapping
  length := by simp [h.length]
  candidate i hi := by
    cases i with
    | zero =>
      refine ⟨[], ⟨evs, rfl⟩, fun _ => rfl, ?_⟩
      rw [Nat.add_zero, Nat.mod_eq_of_lt hslot, Scope.performed_nil]
      exact Scope.memRead_mem_candidates _ _ _ _
    | succ i =>
      obtain ⟨seen, hseen, hquiet, hmem⟩ := h.candidate i (Nat.lt_of_succ_lt_succ hi)
      rw [nextSlot_add_mod] at hmem
      refine ⟨seen, hseen, fun hq => hquiet ?_, hmem⟩
      rw [quiescentFor_iff, hs] at hq
      exact quiescentFor_iff.2 hq

/-- A run in which the consumer takes as many steps as there are reads left. -/
theorem reads_of_repeated {k : Nat} (hslot : slot < P.scopeCap) (hh : s.hanging ≠ some .consumer)
    (hp : s.snapping = moreReads slot n) (hc : (s.schedule.take k).count .consumer = n)
    (h : repeated (stepAt P) k s = .next t) : ∃ evs values, Reads P s t slot n evs values := by
  induction k generalizing s slot n with
  | zero =>
    obtain rfl : 0 = n := hc
    cases h
    exact ⟨[], [], Reads.none P slot hp⟩
  | succ k ih =>
    obtain ⟨u, hu, ht⟩ := repeated_succ_eq_next.1 h
    cases hs : s.schedule with
    | nil =>
      rw [stepAt, stepWith_of_no_schedule P hs] at hu
      cases hu
      exact ih hslot hh hp (by simpa [hs] using hc) ht
    | cons a later =>
      rw [hs, List.take_succ_cons, List.count_cons] at hc
      cases a with
      | producer =>
        obtain ⟨evs, hstep⟩ := stepAt_producer P hs hu
        obtain ⟨evs', values, hreads⟩ := ih hslot (hstep.hanging hh) (hstep.snapping.trans hp)
          (by simpa [hstep.schedule] using hc) ht
        exact ⟨_, _, hreads.after_producer hstep⟩
      | consumer =>
        obtain _ | n := n
        · simp at hc
        rw [stepAt_of_snapping P hs hh hp] at hu
        cases hu
        obtain ⟨evs, values, hreads⟩ := ih
          (s := State.advanceSnap P { s with schedule := later } { slot := slot, after := n })
          (nextSlot_lt P.scopeCap_pos slot) hh rfl (by simpa using hc) ht
        exact ⟨_, _, hreads.after_read hs hslot⟩

/-- With a quiescent producer and nothing missed the reads return the window of the observed publication (R70). -/
theorem Reads.exact_of_quiescent {evs : List (ScopeEvent α)} {values : List α} {cursor : Nat}
    (h : Reads P s t (snapStart P.scopeCap cursor n) n evs values) (hq : s.quiescentFor n = true)
    (hlater : s.scope.trail.later = []) : values = s.scope.trail.base.window P.num.zero P.scopeCap cursor n := by
  refine Memory.eq_window _ h.length fun i hi => ?_
  obtain ⟨seen, -, hquiet, hmem⟩ := h.candidate i hi
  simpa [hquiet hq, Trail.mem_candidates, hlater] using hmem

/-- The same while few samples are written since that publication (R70). -/
theorem Reads.exact_of_few_writes {evs : List (ScopeEvent α)} {values : List α}
    (h : Reads P s t (snapStart P.scopeCap s.scope.trail.baseCursor n) n evs values) (hn : n ≤ P.scopeCap)
    (ht : ScopeInv P t) (hfew : writesIn t.scope.trail.later ≤ P.scopeCap - n) :
    values = s.scope.trail.base.window P.num.zero P.scopeCap s.scope.trail.baseCursor n := by
  refine Memory.eq_window _ h.length fun i hi => ?_
  obtain ⟨seen, ⟨unseen, rfl⟩, -, hmem⟩ := h.candidate i hi
  have htrail : t.scope.trail = { s.scope.trail with later := s.scope.trail.later ++ seen ++ unseen } := by
    simp [h.scope]
  have hc := ht.base_cursor_lt
  have ho := ht.events_in_order
  rw [htrail] at hc ho hfew
  rw [writesIn_append] at hfew
  have hone := Trail.candidates_of_writes_out P.num.zero (t := (s.scope.performed P.num.zero seen).trail) hc
    ((inOrder_append _ _ _ _).1 ho).1 hn (h.length ▸ hi) (Nat.le_of_add_right_le hfew)
  exact List.mem_singleton.1 (hone ▸ hmem)

end

/-! ### The load of a snapshot (R67, R181, R182) -/

section

variable {α : Type} {nch : Nat} [DecidableEq α] (P : Params α) {s t : State α nch} {c : Command α}
  {rest : List (Command α)} {count : Arg} {later : List Agent}

/-- The consumer, inside no operation, has a `SCOPE_SNAP` of `count` samples to present next, a count in range. -/
structure PresentsSnap (s : State α nch) (c : Command α) (rest : List (Command α)) (count : Arg) : Prop where
  word : c.word = encode (.scopeSnap count)
  operands : c.operands = []
  count_le : count.toNat ≤ P.scopeCap
  snapping : s.snapping = none
  hanging : s.hanging ≠ some .consumer
  pending : s.consumer.pending = c :: rest

/-- The state after the load of the `SCOPE_SNAP` `c`. -/
def State.loaded (s : State α nch) (c : Command α) (rest : List (Command α)) (count : Arg) : State α nch :=
  let presented := s.present .consumer { c with missable := s.mayMiss (.scopeSnap count) c } rest
  let sc := s.scope.loadAcquire P.num.zero (presented.loadChoice P)
  { presented with
    scope := sc
    snapping := moreReads (snapStart P.scopeCap sc.trail.baseCursor count.toNat) count.toNat
    draws := s.draws + 1 }

theorem stepAt_load (h : PresentsSnap P s c rest count) (hs : s.schedule = .consumer :: later) :
    stepAt P s = .next (State.loaded P { s with schedule := later } c rest count) := by
  have hi : decode c.word = some (.scopeSnap count) := by rw [h.word, decode_encode_scopeSnap]
  exact (stepAt_of_issues P ⟨hs, h.hanging, nofun, fun _ => h.snapping⟩ h.pending hi).trans
    (perform_of_effect P (by simp [h.operands, Instr.operandCount]) (by simp) ⟨rfl, h.count_le, rfl⟩)

@[simp] theorem State.loaded_consumer (s : State α nch) (c : Command α) (rest : List (Command α)) (count : Arg) :
    (s.loaded P c rest count).consumer = { s.consumer with pending := rest } := rfl

variable {P} in
/-- The reads that follow a load, in a run that leaves the consumer as many steps as there are. -/
theorem reads_of_loaded {k : Nat} (hh : s.hanging ≠ some .consumer)
    (hc : (s.schedule.take k).count .consumer = count.toNat)
    (h : repeated (stepAt P) k (s.loaded P c rest count) = .next t) :
    ∃ performed values, Reads P (s.loaded P c rest count) t
      (snapStart P.scopeCap (s.loaded P c rest count).scope.trail.baseCursor count.toNat) count.toNat
      performed values :=
  reads_of_repeated (s := s.loaded P c rest count) (snapStart_lt P.scopeCap_pos _ _) hh rfl hc h

/-- The load observes the events `before` and misses those after. -/
structure Misses (s : State α nch) (c : Command α) (rest : List (Command α)) (count : Arg)
    (before missed : List (ScopeEvent α)) : Prop where
  split : s.scope.trail.later = before ++ missed
  trail : (s.loaded P c rest count).scope.trail =
    { base := replay P.num.zero s.scope.trail.base before
      baseCursor := lastCursor s.scope.trail.baseCursor before, later := missed }
  bound : ∀ bound, c.missable = some bound → publications missed ≤ bound
  nothing_of_bound : c.missable = some 0 → s.writing = none → missed = []
  nothing_of_quiescent : s.quiescentFor count.toNat = true → missed = []

/-- A load passes over no more publications than its command may (R70, R227). -/
theorem loaded_misses (hinv : ScopeInv P s) (c : Command α) (rest : List (Command α)) (count : Arg) :
    ∃ before missed, Misses P s c rest count before missed := by
  let presented := s.present .consumer { c with missable := s.mayMiss (.scopeSnap count) c } rest
  obtain ⟨hle, hchoice⟩ := State.loadChoice_bounds P (s := presented)
  obtain ⟨before, missed, hsplit, hpubs, hu, htrail⟩ := s.scope.loadAcquire_observes P.num.zero (presented.loadChoice P)
  replace hpubs := hpubs.trans (Nat.mod_eq_of_lt (Nat.lt_succ_of_le hle))
  have hmay (k : Nat) (hk : s.mayMiss (.scopeSnap count) c = some k) : publications missed ≤ k := by
    have hc : publications s.scope.trail.later ≤ presented.loadChoice P + k := hchoice k hk
    rw [hsplit, publications_append, ← hpubs] at hc
    omega
  have hnothing (hw : s.writing = none) (h0 : publications missed ≤ 0) : missed = [] := by
    have hall := hinv.quiescent_published hw
    rw [hsplit, unpublished_append, hu] at hall
    exact eq_nil_of_no_publications (Nat.le_zero.1 h0) hall
  have hbound (k : Nat) (hk : c.missable = some k) : publications missed ≤ k := by
    by_cases hq : s.quiescentFor count.toNat = true
    · exact (hmay 0 (if_pos hq)).trans (Nat.zero_le k)
    · exact hmay k ((if_neg hq).trans hk)
  exact ⟨before, missed, hsplit, htrail, hbound, fun h0 hw => hnothing hw (hbound 0 h0),
    fun hq => hnothing (quiescentFor_iff.1 hq).1 (hmay 0 (if_pos hq))⟩

/-- A load that misses nothing observes the memory and the cursor as they are. -/
theorem Misses.trail_of_nothing {before missed : List (ScopeEvent α)} (h : Misses P s c rest count before missed)
    (hinv : ScopeInv P s) (hm : missed = []) : (s.loaded P c rest count).scope.trail =
      { base := s.scope.mem, baseCursor := s.scope.cursor, later := [] } := by
  subst hm
  have hbefore : s.scope.trail.later = before := h.split.trans (List.append_nil _)
  rw [h.trail, ← hbefore, hinv.mem_replay, hinv.cursor_replay]

end

/-! ### A snapshot of the consumer's alone (R185, R188) -/

section

variable {α : Type} {nch : Nat} [DecidableEq α] {P : Params α} {s t : State α nch} {c : Command α}
  {rest : List (Command α)} {count : Arg} {later : List Agent}

theorem repeated_of_snapping {slot n : Nat} (hh : s.hanging ≠ some .consumer) (hp : s.snapping = moreReads slot n)
    (hs : s.schedule = List.replicate n .consumer ++ later) :
    ∃ port draws, repeated (stepAt P) n s =
      .next { s with consumer := port, snapping := none, draws := draws, schedule := later } := by
  induction n generalizing s slot with
  | zero =>
    cases s
    cases hp
    cases hs
    exact ⟨_, _, rfl⟩
  | succ n ih =>
    rw [repeated_succ _ (stepAt_of_snapping P hs hh hp)]
    exact ih (s := State.advanceSnap P { s with schedule := List.replicate n .consumer ++ later } _) hh rfl rfl

theorem producerTurns_of_consumer_alone (n : Nat) : producerTurns n (List.replicate n .consumer ++ later) = 0 := by
  induction n with
  | zero => simp [producerTurns]
  | succ n ih => exact ih

/-- A snapshot that the consumer takes alone, with no write in progress, returns the window of the memory before the
cursor (R185). -/
theorem repeated_scopeSnap (hinv : Inv P s) (h : PresentsSnap P s c rest count) (hw : s.writing = none)
    (hs : s.schedule = List.replicate (count.toNat + 1) .consumer ++ later) :
    ∃ draws command, repeated (stepAt P) (count.toNat + 1) s = .next { s with
      scope := { s.scope with trail := { base := s.scope.mem, baseCursor := s.scope.cursor, later := [] } }
      consumer :=
        { pending := rest
          results := s.consumer.results ++
            (s.scope.mem.window P.num.zero P.scopeCap s.scope.cursor count.toNat).map .num }
      snapping := none, schedule := later, draws := draws, command := command } := by
  let s' : State α nch := { s with schedule := List.replicate count.toNat .consumer ++ later }
  obtain ⟨-, hinv', -⟩ : Inv P s' := hinv.withSchedule _
  have hturns : producerTurns count.toNat s'.schedule = 0 := producerTurns_of_consumer_alone _
  have hquiet : s'.quiescentFor count.toNat = true := quiescentFor_iff.2 ⟨hw, .inr (by simp [hturns])⟩
  obtain ⟨before, missed, hmisses⟩ := loaded_misses P hinv' c rest count
  have htrail := hmisses.trail_of_nothing P hinv' (hmisses.nothing_of_quiescent hquiet)
  have hscope : (s'.loaded P c rest count).scope =
      { s.scope with trail := { base := s.scope.mem, baseCursor := s.scope.cursor, later := [] } } :=
    congrArg (fun trail => { s.scope with trail := trail }) htrail
  obtain ⟨port, draws, hrun⟩ := repeated_of_snapping (P := P) (s := s'.loaded P c rest count) h.hanging rfl rfl
  obtain ⟨evs, values, hreads⟩ := reads_of_loaded (s := s') h.hanging (by simp [s']) hrun
  have hvalues := hreads.exact_of_quiescent hquiet (by rw [htrail])
  have hport := hreads.consumer
  simp only [hvalues, htrail] at hport
  refine ⟨draws, (s'.loaded P c rest count).command,
    (repeated_succ _ (stepAt_load P h hs)).trans (hrun.trans ?_)⟩
  rw [hscope, hport]
  rfl

end

/-! ### A snapshot beside the producer (R12, R73, R184, R235) -/

section

variable {α : Type} {nch : Nat} [DecidableEq α] (P : Params α) {s t : State α nch} {c : Command α}
  {rest : List (Command α)} {count : Arg} {results : List (Reply α)} {later : List Agent} {n k : Nat}

/-- The consumer has `n` steps left of the `SCOPE_SNAP` that `results` were returned before: it has still to present
it, or is inside it with its load and some reads done. -/
inductive Serving (c : Command α) (rest : List (Command α)) (count : Arg) (results : List (Reply α)) :
    Nat → State α nch → Prop
  | before {s : State α nch} (h : PresentsSnap P s c rest count) (hresults : s.consumer.results = results) :
    Serving c rest count results (count.toNat + 1) s
  | within {s : State α nch} {n : Nat} (slot : Nat) (values : List α) (hh : s.hanging ≠ some .consumer)
    (hp : s.snapping = moreReads slot n)
    (hconsumer : s.consumer = { pending := rest, results := results ++ values.map .num })
    (hlen : values.length + n = count.toNat) : Serving c rest count results n s

variable {P}

theorem Serving.producerStep {evs : List (ScopeEvent α)} (h : Serving P c rest count results n s)
    (hstep : ProducerStep P s t later evs) : Serving P c rest count results n t := by
  cases h with
  | before h hresults =>
    obtain ⟨hword, hop, hcount, hp, hh, hpending⟩ := h
    exact .before ⟨hword, hop, hcount, hstep.snapping.trans hp, hstep.hanging hh, hstep.consumer ▸ hpending⟩
      (hstep.consumer ▸ hresults)
  | within slot values hh hp hconsumer hlen =>
    exact .within slot values (hstep.hanging hh) (hstep.snapping.trans hp) (hstep.consumer.trans hconsumer) hlen

theorem Serving.consumerStep (h : Serving P c rest count results (n + 1) s) (hs : s.schedule = .consumer :: later) :
    ∃ t, stepAt P s = .next t ∧ t.schedule = later ∧ Serving P c rest count results n t := by
  cases h with
  | before h hresults =>
    exact ⟨_, stepAt_load P h hs, rfl, .within (s := State.loaded P _ c rest count) _ [] h.hanging rfl
      (by simp [hresults]) (by simp)⟩
  | within slot values hh hp hconsumer hlen =>
    refine ⟨_, stepAt_of_snapping P hs hh hp, rfl, ?_⟩
    refine .within _ (values ++ [s.scope.memRead P.num.zero (P.draw s.draws) slot]) hh rfl ?_ ?_
    · simp [State.advanceSnap, State.replyTo, State.withPort, hconsumer]
    · simp; omega

variable (P) in
/-- Within `k` steps an operation of the producer's is refused, which ends the run (R198). -/
def ProducerRefused (k : Nat) (s : State α nch) : Prop :=
  ∃ j u r, j < k ∧ repeated (stepAt P) j s = .next u ∧ u.schedule.head? = some .producer ∧ stepAt P u = .refused r

theorem ProducerRefused.succ (h : stepAt P s = .next t) (ht : ProducerRefused P k t) : ProducerRefused P (k + 1) s := by
  obtain ⟨j, u, r, hj, hu, hhead, hr⟩ := ht
  exact ⟨j + 1, u, r, Nat.succ_lt_succ hj, (repeated_succ j h).trans hu, hhead, hr⟩

theorem Serving.run (h : Serving P c rest count results n s) (hc : (s.schedule.take k).count .consumer = n) :
    ProducerRefused P k s ∨ ∃ t, repeated (stepAt P) k s = .next t ∧ Serving P c rest count results 0 t := by
  induction k generalizing s n with
  | zero =>
    obtain rfl : 0 = n := hc
    exact .inr ⟨s, rfl, h⟩
  | succ k ih =>
    have hgo {m : Nat} {u : State α nch} (hu : stepAt P s = .next u) (hserve : Serving P c rest count results m u)
        (hcu : (u.schedule.take k).count .consumer = m) : ProducerRefused P (k + 1) s ∨
        ∃ t, repeated (stepAt P) (k + 1) s = .next t ∧ Serving P c rest count results 0 t :=
      (ih hserve hcu).imp (ProducerRefused.succ hu) fun ⟨t, ht, h0⟩ => ⟨t, (repeated_succ k hu).trans ht, h0⟩
    cases hs : s.schedule with
    | nil => exact hgo (stepWith_of_no_schedule P hs) h (by simpa [hs] using hc)
    | cons a later =>
      rw [hs, List.take_succ_cons, List.count_cons] at hc
      cases a with
      | producer =>
        cases hu : stepAt P s with
        | fault r => cases r
        | refused r => exact .inl ⟨0, s, r, Nat.succ_pos k, rfl, by simp [hs], hu⟩
        | next u =>
          obtain ⟨evs, hstep⟩ := stepAt_producer P hs hu
          exact hgo hu (h.producerStep hstep) (by simpa [hstep.schedule] using hc)
      | consumer =>
        obtain _ | n := n
        · simp at hc
        obtain ⟨u, hu, hsched, hserve⟩ := h.consumerStep hs
        exact hgo hu hserve (by simpa [hsched] using hc)

end

end Block

/-- Settles O52. (1) and (2) are the run of the consumer alone, once and twice; (3) the load with the reads that follow
it; (4) the steps left to a snapshot, which none of the producer's takes away. -/
theorem quiescentSnapshotIsExact : Obligations.QuiescentSnapshotIsExact := by
  refine ⟨?_, ?_, ?_, ?_⟩
  · intro α _ P s c rest later count hword hop hcount hinv hw hp hh hpending hs
    obtain ⟨draws, command, hrun⟩ := Block.repeated_scopeSnap hinv ⟨hword, hop, hcount, hp, hh, hpending⟩ hw hs
    exact ⟨_, hrun, by simp [Memory.window], rfl, rfl, rfl, rfl, rfl, rfl, rfl, rfl, rfl, rfl, rfl, rfl, rfl⟩
  · intro α _ P s c c' rest later count hword hword' hop hop' hcount hinv hw hp hh hpending hs
    rw [Nat.two_mul, List.replicate_add, List.append_assoc] at hs
    obtain ⟨draws, command, hrun⟩ := Block.repeated_scopeSnap hinv ⟨hword, hop, hcount, hp, hh, hpending⟩ hw hs
    obtain ⟨draws', command', hrun'⟩ := Block.repeated_scopeSnap (hinv.repeated hrun)
      ⟨hword', hop', hcount, rfl, hh, rfl⟩ hw rfl
    rw [Nat.two_mul, repeated_add _ hrun, hrun']
    exact ⟨_, s.scope.mem.window P.num.zero P.scopeCap s.scope.cursor count.toNat, rfl, by simp [Memory.window],
      rfl, rfl, rfl, rfl, rfl⟩
  · intro α _ P s t c rest later count k hword hop hcount hinv hp hh hpending hs hc h
    obtain ⟨-, hinv', -⟩ := hinv.withSchedule later
    obtain ⟨-, hinvt, -⟩ := hinv.repeated h
    rw [repeated_succ _ (Block.stepAt_load P ⟨hword, hop, hcount, hp, hh, hpending⟩ hs)] at h
    obtain ⟨before, missed, hmisses⟩ := Block.loaded_misses P hinv' c rest count
    obtain ⟨performed, values, hreads⟩ := Block.reads_of_loaded (s := { s with schedule := later }) hh hc h
    have htrail : t.scope.trail =
        { base := replay P.num.zero s.scope.trail.base before
          baseCursor := lastCursor s.scope.trail.baseCursor before, later := missed ++ performed } := by
      rw [hreads.scope, Scope.performed_trail, hmisses.trail]
    refine ⟨before, missed, performed, hmisses.split, hmisses.bound, hmisses.nothing_of_bound, fun hm => ?_,
      by rw [htrail], by rw [htrail], by rw [htrail], by rw [hreads.scope]; rfl, by rw [hreads.scope]; rfl,
      fun hfew => ?_, fun hq => ⟨hmisses.nothing_of_quiescent hq, ?_⟩⟩
    · rw [hreads.scope, Scope.performed_trail, hmisses.trail_of_nothing P hinv' hm]
      exact ⟨rfl, rfl⟩
    · rw [hreads.consumer, hreads.exact_of_few_writes hcount hinvt hfew, htrail, hmisses.trail]
      simp [Memory.window]
    · have hnothing := hmisses.trail_of_nothing P hinv' (hmisses.nothing_of_quiescent hq)
      rw [hreads.consumer, hreads.exact_of_quiescent hq (by rw [hnothing]), hnothing]
      simp [Memory.window]
  · intro α _ P s c rest count k hword hop hcount hp hh hpending hc
    refine (Block.Serving.run (.before ⟨hword, hop, hcount, hp, hh, hpending⟩ rfl) hc).imp id fun ⟨t, ht, hserve⟩ => ?_
    cases hserve with
    | within slot values _ hp' hconsumer hlen =>
      exact ⟨t, values, ht, by rw [hconsumer], hlen, by rw [hconsumer], hp'⟩

end Sys2Proof.Machine

/-! Proofs of the statements of spec/30_encoding.md: decoder and encoder, the opcode map, the reserved encodings, the
pseudo-operations, and the results of an operation. -/

namespace Sys2Proof

/-! ### Decoder and encoder (R81, R83, R85, R87) -/

/-- The fields of each operation's word select its row (R83). -/
theorem decodeFields_opcode (i : Instr) :
    decodeFields (i.opcode.toNat / 16) (i.opcode.toNat % 16) i.arg = some i := by
  cases i <;> simp [Instr.opcode, Instr.arg, decodeFields, argMustBeZero]

theorem decode_encode (i : Instr) : decode (encode i) = some i :=
  (Machine.decode_encode_fields i).trans (decodeFields_opcode i)

/-- The three fields make up the whole word (R81). -/
theorem encode_of_decode_eq_some {cw : CommandWord} {i : Instr} (h : decode cw = some i) : encode i = cw := by
  obtain ⟨hopcode, harg⟩ := decodeFields_eq_some h
  rw [unitField_toNat, funcField_toNat] at hopcode
  apply BitVec.eq_of_toNat_eq
  rw [encode_toNat, hopcode, harg, argField_toNat]
  omega

theorem decode_eq_some_iff {cw : CommandWord} {i : Instr} : decode cw = some i ↔ encode i = cw :=
  ⟨encode_of_decode_eq_some, fun h => h ▸ decode_encode i⟩

/-- Settles O1: the fields of the word are those of the operation's row, with its immediate. -/
theorem decodeOfEncodeIsTheInstruction : Obligations.DecodeOfEncodeIsTheInstruction := decode_encode

/-- Settles O2: the opcode and the immediate of what is decoded are the word's own three fields. -/
theorem decodedWordEncodesBack : Obligations.DecodedWordEncodesBack := fun _ _ => encode_of_decode_eq_some

/-! ### The opcode map (R92) -/

/-- The first bytes of the six operations that take an immediate (R84). -/
def argOpcodes : List (BitVec 8) := [0x12, 0x22, 0x33, 0x34, 0x40, 0x41]

/-- Every immediate is that of an operation of the row, where the row takes one. -/
theorem exists_of_mem_argOpcodes {i : Instr} (h : i.opcode ∈ argOpcodes) (arg : Arg) :
    ∃ j : Instr, j.opcode = i.opcode ∧ j.arg = arg := by
  cases i
  case oscSetWave => exact ⟨.oscSetWave arg, rfl, rfl⟩
  case envEnter => exact ⟨.envEnter arg, rfl, rfl⟩
  case svfSetType => exact ⟨.svfSetType arg, rfl, rfl⟩
  case svfProc => exact ⟨.svfProc arg, rfl, rfl⟩
  case scopeWrite => exact ⟨.scopeWrite arg, rfl, rfl⟩
  case scopeSnap => exact ⟨.scopeSnap arg, rfl, rfl⟩
  all_goals exact absurd h (by decide)

/-- The other rows have the immediate 0 (R85). -/
theorem Instr.arg_eq_zero {i : Instr} (h : i.opcode ∉ argOpcodes) : i.arg = 0 := by
  cases i
  case oscSetWave | envEnter | svfSetType | svfProc | scopeWrite | scopeSnap => simp [argOpcodes, opcode] at h
  all_goals rfl

theorem Instr.matchBits_eq (i : Instr) : i.matchBits = (i.opcode ++ (0 : Arg) : CommandWord) := by
  cases i <;> simp only [matchBits, opcode] <;> decide

theorem Instr.maskBits_eq (i : Instr) : i.maskBits = if i.opcode ∈ argOpcodes then 0xFF000000 else 0xFFFFFFFF := by
  cases i <;> simp [maskBits, opcode, argOpcodes]

theorem and_wholeMask (cw : CommandWord) : cw &&& 0xFFFFFFFF = cw := BitVec.and_allOnes

/-- The word of an operation is selected by the operation's row. -/
theorem encode_and_maskBits (i : Instr) : encode i &&& i.maskBits = i.matchBits := by
  rw [i.matchBits_eq, i.maskBits_eq, encode]
  split
  · exact Laws.Encoding.mask_first_byte _ _
  · next h => rw [and_wholeMask, Instr.arg_eq_zero h]

/-- A word whose first byte is `op`, by its fields (R81). -/
theorem append_argField {cw : CommandWord} {op : BitVec 8} (h : cw &&& 0xFF000000 = (op ++ (0 : Arg) : CommandWord)) :
    (op ++ argField cw : CommandWord) = cw := by
  have hcw : (cw.extractLsb' 24 8 ++ argField cw : CommandWord) = cw :=
    BitVec.extractLsb'_append_extractLsb' (w := 8) (len := 24)
  have hop : cw.extractLsb' 24 8 = op :=
    (BitVec.append_left_inj (0 : Arg)).1 (by rw [← Laws.Encoding.mask_first_byte _ (argField cw), hcw, h])
  rw [← hop, hcw]

/-- A word that a row selects is that of an operation of the row. -/
theorem exists_encode_of_and_maskBits {cw : CommandWord} {i : Instr} (h : cw &&& i.maskBits = i.matchBits) :
    ∃ j, encode j = cw ∧ j.opcode = i.opcode := by
  rw [i.matchBits_eq, i.maskBits_eq] at h
  split at h
  · next harg =>
    obtain ⟨j, hop, hj⟩ := exists_of_mem_argOpcodes harg (argField cw)
    exact ⟨j, by rw [encode, hop, hj, append_argField h], hop⟩
  · next harg => exact ⟨i, by rw [encode, Instr.arg_eq_zero harg, ← h, and_wholeMask], rfl⟩

theorem and_maskBits_iff {cw : CommandWord} {i : Instr} :
    cw &&& i.maskBits = i.matchBits ↔ ∃ j, decode cw = some j ∧ j.opcode = i.opcode := by
  simp only [decode_eq_some_iff]
  refine ⟨exists_encode_of_and_maskBits, ?_⟩
  rintro ⟨j, rfl, hop⟩
  rw [i.matchBits_eq, i.maskBits_eq, ← hop, ← j.matchBits_eq, ← j.maskBits_eq]
  exact encode_and_maskBits j

/-- Settles O3: mask and match are functions of the opcode, and a word decodes to at most one operation. -/
theorem wordSelectsItsOneRow : Obligations.WordSelectsItsOneRow := by
  refine ⟨fun cw i => and_maskBits_iff, fun cw i j hi hj => ?_⟩
  obtain ⟨k, hk, hki⟩ := and_maskBits_iff.1 hi
  obtain ⟨l, hl, hlj⟩ := and_maskBits_iff.1 hj
  obtain rfl : k = l := by simpa [hk] using hl
  exact hki.symm.trans hlj

/-! ### The reserved encodings (R90) -/

/-- The fields that select no operation: (a) to (f) of R90, unit by unit. -/
theorem decodeFields_eq_none_iff {unit func : Nat} {arg : Arg} :
    decodeFields unit func arg = none ↔
      unit = 0 ∨ 5 ≤ unit ∨ (unit = 1 ∧ 4 ≤ func) ∨ (unit = 2 ∧ 5 ≤ func) ∨ (unit = 3 ∧ 5 ≤ func) ∨
      (unit = 4 ∧ 2 ≤ func) ∨
      (arg ≠ 0 ∧ ((unit = 1 ∧ func ∈ [0, 1, 3]) ∨ (unit = 2 ∧ func ∈ [0, 1, 3, 4]) ∨
        (unit = 3 ∧ func ∈ [0, 1, 2]))) := by
  obtain _ | _ | _ | _ | _ | unit := unit
  · simp [decodeFields]
  · obtain _ | _ | _ | _ | func := func <;> simp [decodeFields, argMustBeZero]
  · obtain _ | _ | _ | _ | _ | func := func <;> simp [decodeFields, argMustBeZero]
  · obtain _ | _ | _ | _ | _ | func := func <;> simp [decodeFields, argMustBeZero]
  · obtain _ | _ | func := func <;> simp [decodeFields]
  · simp [decodeFields]

namespace Machine

theorem mapNext_eq_refused {σ τ : Type} {g : σ → τ} {r : Result σ} {q : Refusal} :
    mapNext g r = .refused q ↔ r = .refused q := by
  cases r <;> simp

theorem Wave.ofArg_eq_none {code : Arg} : Wave.ofArg code = none ↔ 3 < code.toNat := by
  unfold Wave.ofArg
  split
  case h_5 => simp only [imp_false, true_iff] at *; omega
  all_goals simp [*]

theorem Stage.ofArg_eq_none {code : Arg} : Stage.ofArg code = none ↔ 4 < code.toNat := by
  unfold Stage.ofArg
  split
  case h_6 => simp only [imp_false, true_iff] at *; omega
  all_goals simp [*]

/-- Of the refusals of `SVF_PROC` only that of the channel is `reserved` (R164). -/
theorem svfProc_eq_reserved {α : Type} (N : NumFormat α) {nch ch : Nat} {x : α} {v : Svf α nch} :
    svfProc N ch x v = .refused .reserved ↔ nch ≤ ch := by
  unfold svfProc
  split
  · next hch =>
    refine iff_of_false ?_ (Nat.not_le.2 hch)
    split
    · split
      · simp
      · split <;> simp
    · simp
  · next hch => simpa using hch

namespace Block

section

variable {α : Type} {nch : Nat} (P : Params α) {s : State α nch} {arg : Arg}

theorem issueNext_of_reserved {run : Instr → State α nch → Result (State α nch)} {a : Agent} {c : Command α}
    {rest : List (Command α)} (hp : (s.port a).pending = c :: rest) (hi : decode c.word = none) :
    issueNext run a s = .refused .reserved := by
  simp [issueNext, hp, hi]

section

variable (hop : s.command.operands = []) (hov : s.command.overlaps = false)
include hop hov

theorem State.oscSetWave_eq_reserved (hh : s.hanging = none) :
    s.oscSetWave arg = .refused .reserved ↔ 3 < arg.toNat := by
  rw [State.oscSetWave, State.onOsc_pass (by simp [hop]) hov hh, ← Wave.ofArg_eq_none]
  split <;> simp [*]

theorem State.envEnter_eq_reserved : s.envEnter P arg = .refused .reserved ↔ 4 < arg.toNat := by
  rw [State.envEnter, State.onUnit_pass (by simp [hop]) hov, ← Stage.ofArg_eq_none]
  split <;> simp [*]

theorem State.svfSetType_ne_refused (r : Refusal) : s.svfSetType arg ≠ .refused r := by
  simp [State.svfSetType, State.onUnit_pass, hop, hov]

end

theorem State.svfProc_eq_reserved {x : α} (hop : s.command.operands = [x]) (hov : s.command.overlaps = false) :
    s.svfProc P arg = .refused .reserved ↔ nch ≤ arg.toNat := by
  rw [State.svfProc, State.onUnit_pass (by simp [hop]) hov, mapNext_eq_refused, Machine.svfProc_eq_reserved]

theorem State.scopeSnap_eq_reserved [DecidableEq α] (hop : s.command.operands = [])
    (ha : s.command.agent = .consumer) : s.scopeSnap P arg = .refused .reserved ↔ P.scopeCap < arg.toNat := by
  rw [State.scopeSnap, State.onScope_pass (by simp [hop]) ha]
  split <;> simp [*]

end

end Block

/-- Settles O4: what the decoder makes of the fields, the step that decodes a reserved word, and the four operations
that refuse an immediate. -/
theorem reservedEncodingsAreRefused : Obligations.ReservedEncodingsAreRefused := by
  refine ⟨fun cw => ?_, fun s a later c rest hs hp hi => ?_, fun s arg hop hov => ⟨fun hh => ?_, ?_, ?_⟩,
    fun s arg x hop hov => ?_, fun s arg hop ha => ?_⟩
  · simp [decode, decodeFields_eq_none_iff, ← BitVec.toNat_inj]
  · rw [step, Block.stepWith_of_issues _ hs, Block.issueNext_of_reserved (by simpa using hp) hi]
  · exact Block.State.oscSetWave_eq_reserved hop hov hh
  · exact Block.State.envEnter_eq_reserved _ hop hov
  · exact Block.State.svfSetType_ne_refused hop hov _
  · exact Block.State.svfProc_eq_reserved _ hop hov
  · exact Block.State.scopeSnap_eq_reserved _ hop ha

/-- Settles O5: fifteen closed words. -/
theorem wordsOfTheOpcodeMapDecode : Obligations.WordsOfTheOpcodeMapDecode := by
  unfold Obligations.WordsOfTheOpcodeMapDecode
  decide

/-! ### The pseudo-operations (R94) -/

/-- Settles O6: a command of an expansion carries the word of its operation. -/
theorem pseudoOperationsExpand : Obligations.PseudoOperationsExpand := by
  intro α x
  simp [expand, commandOf, symbolValue, decode_encode]

/-! ### The results of an operation (R89) -/

section

variable {α : Type} {nch : Nat} {s t : Block.State α nch}

theorem Block.State.reply_results (s : Block.State α nch) (v : Reply α) :
    ((s.reply v).port s.command.agent).results = (s.port s.command.agent).results ++ [v] :=
  s.replyTo_results _ v

/-- Where the ports stay, nothing is returned. -/
theorem Block.State.results_of_same_ports (hp : t.producer = s.producer) (hc : t.consumer = s.consumer) (a : Agent) :
    (t.port a).results = (s.port a).results ++ [] := by
  cases a <;> simp [hp, hc]

end

/-- Settles O11: the frame of an operation's ports, and the one result of the four operations that reply. -/
theorem resultsGoToTheIssuerAlone : Obligations.ResultsGoToTheIssuerAlone := by
  intro i s t h
  obtain ⟨-, he⟩ := exec_next h
  obtain ⟨-, hother, hpending⟩ := he.onlyResultsOf
  refine ⟨hother, hpending _, ?_⟩
  have hsilent (hp : t.producer = s.producer) (hc : t.consumer = s.consumer) :=
    Block.State.results_of_same_ports hp hc s.command.agent
  cases i
  case oscNext =>
    obtain ⟨hh, ⟨o, out, -, rfl⟩ | ⟨-, rfl⟩⟩ := he
    · exact ⟨_, by simpa using (s.withOsc o).reply_results (.num out), .inl ⟨by simpa using hh, out, rfl⟩⟩
    · exact ⟨[], hsilent rfl rfl, .inr ⟨rfl, rfl⟩⟩
  case envNext =>
    obtain ⟨e, -, rfl⟩ := he
    exact ⟨_, by simpa using (s.withEnv e).reply_results (.num e.level), e.level, rfl⟩
  case envActive => obtain rfl := he; exact ⟨_, s.reply_results _, s.env.active, rfl⟩
  case svfProc =>
    obtain ⟨v, y, -, rfl⟩ := he
    exact ⟨_, by simpa using (s.withSvf v).reply_results (.num y), y, rfl⟩
  case oscSetSr | oscSetFreq | scopeWrite => obtain ⟨-, rfl⟩ := he; exact ⟨[], hsilent rfl rfl, rfl⟩
  case oscSetWave => obtain ⟨-, w, -, rfl⟩ := he; exact ⟨[], hsilent rfl rfl, rfl⟩
  case envEnter => obtain ⟨k, -, rfl⟩ := he; exact ⟨[], hsilent rfl rfl, rfl⟩
  case envSetSr | envSetParams | svfSetSr | svfSetCutoff | svfSetRes | svfSetType =>
    obtain rfl := he; exact ⟨[], hsilent rfl rfl, rfl⟩
  case scopeSnap => obtain ⟨-, -, rfl⟩ := he; exact ⟨[], hsilent rfl rfl, rfl⟩

end Machine

end Sys2Proof

/-! Proofs of the statements of spec/40_oscillator.md: the wrap loop as iterated subtraction, and the four operations
of OSC as equations. -/

namespace Sys2Proof.Machine

/-! ### The wrap loop (R122, R231) -/

section

variable {α : Type} {N : NumFormat α} {p q : α}

/-- The phase `p` less `TWO_PI` `k` times, as the loop of R122 computes it. -/
abbrev lessTurns (N : NumFormat α) (k : ℕ) (p : α) : α := (fun x => N.sub x N.twoPi)^[k] p

/-- While the differences are at or above `TWO_PI` the loop goes on from the next one. -/
theorem wrapPhase_lessTurns {k : ℕ} (h : ∀ j < k, N.ge (lessTurns N j p) N.twoPi = true) :
    wrapPhase N (lessTurns N k p) = wrapPhase N p := by
  induction k with
  | zero => rfl
  | succ k ih =>
    rw [lessTurns, Function.iterate_succ_apply', ← wrapPhase_above N (h k k.lt_succ_self)]
    exact ih fun j hj => h j (hj.trans k.lt_succ_self)

/-- What the loop answers, it has come to by subtracting `TWO_PI` from phases at or above it. -/
theorem exists_lessTurns_of_wrapPhase (h : wrapPhase N p = some q) :
    ∃ k, q = lessTurns N k p ∧ ∀ j < k, N.ge (lessTurns N j p) N.twoPi = true := by
  refine wrapPhase.partial_correctness N
    (fun p q => ∃ k, q = lessTurns N k p ∧ ∀ j < k, N.ge (lessTurns N j p) N.twoPi = true) ?_ p q h
  intro f ih p q hq
  split at hq
  · next hp =>
    obtain ⟨k, rfl, habove⟩ := ih _ _ hq
    refine ⟨k + 1, rfl, fun j hj => ?_⟩
    cases j with
    | zero => exact hp
    | succ j => exact habove j (Nat.lt_of_succ_lt_succ hj)
  · exact ⟨0, (Option.some.inj hq).symm, nofun⟩

theorem wrapPhase_eq_some :
    wrapPhase N p = some q ↔
      ∃ k, q = lessTurns N k p ∧ N.ge q N.twoPi = false ∧ ∀ j < k, N.ge (lessTurns N j p) N.twoPi = true := by
  constructor
  · intro h
    obtain ⟨k, hq, habove⟩ := exists_lessTurns_of_wrapPhase h
    exact ⟨k, hq, wrapPhase_result N h, habove⟩
  · rintro ⟨k, rfl, hbelow, habove⟩
    rw [← wrapPhase_lessTurns habove, wrapPhase_below N hbelow]

/-- The loop never ends exactly when every difference is at or above `TWO_PI`. -/
theorem wrapPhase_eq_none : wrapPhase N p = none ↔ ∀ k, N.ge (lessTurns N k p) N.twoPi = true := by
  constructor
  · intro h k
    induction k using Nat.strong_induction_on with
    | h k habove =>
      by_contra hk
      have hend := wrapPhase_below N (Bool.eq_false_iff.2 hk)
      rw [wrapPhase_lessTurns habove, h] at hend
      cases hend
  · intro habove
    refine Option.eq_none_iff_forall_ne_some.2 fun q hq => ?_
    obtain ⟨k, rfl, hbelow, -⟩ := wrapPhase_eq_some.1 hq
    exact absurd (habove k) (Bool.eq_false_iff.1 hbelow)

end

/-- Settles O24: the loop is iterated subtraction, stopped at the first phase below `TWO_PI`. -/
theorem wrapSubtractsUntilBelowATurn : Obligations.WrapSubtractsUntilBelowATurn :=
  fun _ _ _ _ => wrapPhase_eq_some

/-- `OSC_NEXT` does not complete exactly when its registers are set and positive and its loop never ends (U18). -/
theorem oscNext_eq_next_none {α : Type} (N : NumFormat α) {o : Osc α} :
    oscNext N o = .next none ↔
      ∃ freq sr, o.freq = .val freq ∧ o.sr = .val sr ∧ N.gt sr N.zero = true ∧ N.gt freq N.zero = true ∧
        wrapPhase N (N.add o.phase (oscIncrement N freq sr)) = none := by
  simp only [oscNext_eq_next, eq_comm (a := none), Option.map_eq_none_iff]

/-- Settles O25: no result of the unit is a loop that never ends, and the block then leaves its issuer hanging. -/
theorem oscNextIsStuckExactlyWhenTheWrapNeverEnds : Obligations.OscNextIsStuckExactlyWhenTheWrapNeverEnds := by
  refine ⟨fun α N o => ?_, fun α _ P s hop hov hh hnone => ?_⟩
  · simp only [oscNext_eq_next_none, wrapPhase_eq_none, oscIncrement]
  · exact Block.perform_of_effect P (by simp [hop, Instr.operandCount]) (fun _ => hov) ⟨hh, .inr ⟨hnone, rfl⟩⟩

/-! ### The operations of OSC (R111 to R115, R121) -/

/-- `Block.perform_of_effect` for the host's machine, of a command that does not overlap. -/
theorem exec_of_effect {i : Instr} {s t : State} (hn : s.command.operands.length = i.operandCount)
    (hov : s.command.overlaps = false) (h : Block.Effect Config.params s t i) : exec i s = .next t :=
  (exec_eq_perform i s).trans (Block.perform_of_effect _ hn (fun _ => hov) h)

/-- The operand of a command that carries one. -/
theorem Block.State.operand_zero {α : Type} {nch : ℕ} {s : Block.State α nch} {x : α} (P : Params α)
    (h : s.command.operands = [x]) : s.operand P 0 = x := by
  simp [Block.State.operand, h]

/-- Settles O20: the effect of the two setters, with the one operand in the register. -/
theorem oscSettersStoreAsGiven : Obligations.OscSettersStoreAsGiven := by
  intro s x hop hov hh
  have hn : s.command.operands.length = 1 := by rw [hop]; rfl
  rw [← Block.State.operand_zero Config.params hop]
  exact ⟨exec_of_effect hn hov ⟨hh, rfl⟩, exec_of_effect hn hov ⟨hh, rfl⟩⟩

/-- Settles O21: the waveform of each of the four codes, and the refusal of the codes without one. -/
theorem oscSetWaveSelectsTheWaveform : Obligations.OscSetWaveSelectsTheWaveform := by
  intro s hop hov hh
  have hselects {code : Arg} {w : Wave} (hw : Wave.ofArg code = some w) :
      exec (.oscSetWave code) s = .next (s.withOsc { s.osc with wave := w }) :=
    exec_of_effect (by rw [hop]; rfl) hov ⟨hh, w, hw, rfl⟩
  exact ⟨hselects rfl, hselects rfl, hselects rfl, hselects rfl,
    fun _ hcode => (Block.State.oscSetWave_eq_reserved hop hov hh).2 hcode⟩

/-- Settles O22: the unit completes with the wrapped phase and the scaled sample of the old one. -/
theorem oscNextSamplesThenAdvances : Obligations.OscNextSamplesThenAdvances := by
  intro s freq sr p hop hov hh hfreq hsr hsrpos hfreqpos hwrap
  have hunit := (oscNext_eq_some Config.num).2 ⟨freq, sr, p, hfreq, hsr, hsrpos, hfreqpos, hwrap, rfl, rfl⟩
  exact exec_of_effect (by rw [hop]; rfl) hov ⟨hh, .inl ⟨_, _, hunit, rfl⟩⟩

end Sys2Proof.Machine

/-! Proofs of the statements of spec/41_envelope.md: the five operations of ENV as equations, and the transition table. -/

namespace Sys2Proof.Machine

/-! ### A call that moves the level towards a bound (R140, R141, R143)

Attack, Decay and Release update alike: at the bound `clamp` the level is clamped and the stage becomes `stage`, short
of it only the level moves. -/

/-- A call that leaves the stage it found has clamped the level. -/
theorem clamped_of_stage_ne {α : Type} {e e' : Env α} {c : Prop} [Decidable c] {clamp level : α} {stage : Stage}
    (h : e' = if c then { e with level := clamp, stage := stage } else { e with level := level })
    (hne : e'.stage ≠ e.stage) : e'.stage = stage ∧ e'.level = clamp := by
  split at h <;> subst h
  · exact ⟨rfl, rfl⟩
  · exact absurd rfl hne

/-- The rows of the transition table that `ENV_NEXT` takes (R145). -/
theorem envNext_stage_ne {α : Type} (N : NumFormat α) {e e' : Env α} (h : envNext N e = .next e')
    (hne : e'.stage ≠ e.stage) :
    (e.stage = .attack ∧ e'.stage = .decay ∧ e'.level = N.one) ∨
    (e.stage = .decay ∧ e'.stage = .sustain ∧ e.sustain = .val e'.level) ∨
    (e.stage = .release ∧ e'.stage = .off ∧ e'.level = N.zero) := by
  obtain ⟨-, rfl⟩ | ⟨a, sr, hstage, -, -, -, hstep⟩ | ⟨d, u, sr, hstage, -, hu, -, -, hstep⟩ | ⟨u, -, -, rfl⟩ |
    ⟨r, u, sr, hstage, -, -, -, -, hstep⟩ := envNext_eq_next N h
  · exact absurd rfl hne
  · exact .inl ⟨hstage, clamped_of_stage_ne hstep hne⟩
  · obtain ⟨hsustain, rfl⟩ := clamped_of_stage_ne hstep hne
    exact .inr (.inl ⟨hstage, hsustain, hu⟩)
  · exact absurd rfl hne
  · exact .inr (.inr ⟨hstage, clamped_of_stage_ne hstep hne⟩)

theorem envEnter_stage {α : Type} (N : NumFormat α) (k : Stage) (e : Env α) : (envEnter N k e).stage = k := by
  cases k <;> rfl

theorem envEnter_level_eq_ite {α : Type} (N : NumFormat α) (k : Stage) (e : Env α) :
    (envEnter N k e).level = if k = .off then N.zero else e.level := by
  cases k <;> rfl

/-- Settles O36: of the two writers of the stage, `ENV_ENTER` enters that of its code, and `ENV_NEXT` takes a row. -/
theorem stageChangesOnlyByTheTable : Obligations.StageChangesOnlyByTheTable := by
  intro i s t h hne
  obtain ⟨-, he⟩ := exec_next h
  obtain ⟨hstage, -⟩ := he.env_writers
  cases i
  case envEnter code =>
    obtain ⟨k, hk, rfl⟩ := he
    refine .inl ⟨code, rfl, ?_, ?_⟩
    · simpa [envEnter_stage] using Stage.ofArg_eq_some.1 hk
    · simpa [envEnter_stage] using envEnter_level_eq_ite Config.num k s.env
  case envNext =>
    obtain ⟨e, hnext, rfl⟩ := he
    exact .inr ⟨rfl, by simpa using envNext_stage_ne Config.num hnext (by simpa using hne)⟩
  all_goals exact absurd (hstage nofun nofun) hne

/-! ### The operations of ENV (R131 to R146) -/

/-- Settles O29: the effect of the two setters, with the operands in the registers. -/
theorem envSettersStoreGuardedTimes : Obligations.EnvSettersStoreGuardedTimes := by
  refine ⟨fun s x hop hov => ?_, fun s a d u r hop hov => ?_⟩
  · rw [← Block.State.operand_zero Config.params hop]
    exact exec_of_effect (by rw [hop]; rfl) hov rfl
  · refine exec_of_effect (by rw [hop]; rfl) hov ?_
    simp only [Block.Effect, Block.State.operand, hop]
    rfl

/-- Settles O30: the stage of each of the five codes, and the refusal of the codes without one. -/
theorem envEnterSetsTheStage : Obligations.EnvEnterSetsTheStage := by
  intro s hop hov
  have henters {code : Arg} (k : Stage) (hk : Stage.ofArg code = some k) :
      exec (.envEnter code) s = .next (s.withEnv (envEnter Config.num k s.env)) :=
    exec_of_effect (by rw [hop]; rfl) hov ⟨k, hk, rfl⟩
  exact ⟨henters .off rfl, henters .attack rfl, henters .decay rfl, henters .sustain rfl, henters .release rfl,
    fun _ hcode => (Block.State.envEnter_eq_reserved Config.params hop hov).2 hcode⟩

theorem envNext_of_off {α : Type} (N : NumFormat α) {e : Env α} (hstage : e.stage = .off) :
    envNext N e = .next { e with level := N.zero } := by
  simp [envNext, hstage]

theorem envNext_of_sustain {α : Type} (N : NumFormat α) {e : Env α} {u : α} (hstage : e.stage = .sustain)
    (hu : e.sustain = .val u) : envNext N e = .next { e with level := u } := by
  simp [envNext, hstage, hu]

section

variable {s : State} (hop : s.command.operands = []) (hov : s.command.overlaps = false)
include hop hov

/-- `ENV_NEXT` leaves the registers its unit answers, and returns their level (R138). -/
theorem exec_envNext {e : Env NumVal} (h : envNext Config.num s.env = .next e) :
    exec .envNext s = .next ((s.withEnv e).reply (.num e.level)) :=
  exec_of_effect (by rw [hop]; rfl) hov ⟨e, h, rfl⟩

/-- `ENV_NEXT` in a stage that moves the level towards a bound. -/
theorem exec_envNext_of_clamp {c : Prop} [Decidable c] {clamp level : NumVal} {stage : Stage}
    (h : envNext Config.num s.env = .next
      (if c then { s.env with level := clamp, stage := stage } else { s.env with level := level })) :
    exec .envNext s = .next
      (if c then (s.withEnv { s.env with level := clamp, stage := stage }).reply (.num clamp)
      else (s.withEnv { s.env with level := level }).reply (.num level)) := by
  rw [exec_envNext hop hov h]
  split <;> rfl

end

/-- Settles O31, stage by stage. -/
theorem envNextHoldsInOffAndSustain : Obligations.EnvNextHoldsInOffAndSustain :=
  fun _ hop hov => ⟨fun hstage => exec_envNext hop hov (envNext_of_off _ hstage),
    fun _ hstage hu => exec_envNext hop hov (envNext_of_sustain _ hstage hu)⟩

/-- Settles O32: `attackStep` moves the level towards 1. -/
theorem envNextRisesInAttack : Obligations.EnvNextRisesInAttack :=
  fun _ _ _ hop hov hstage ha hs hsr => exec_envNext_of_clamp hop hov (envNext_of_attack _ hstage ha hs hsr)

/-- Settles O33: `decayStep` moves the level towards the sustain level. -/
theorem envNextFallsToSustainInDecay : Obligations.EnvNextFallsToSustainInDecay :=
  fun _ _ _ _ hop hov hstage hd hu hs hsr => exec_envNext_of_clamp hop hov (envNext_of_decay _ hstage hd hu hs hsr)

/-- Settles O34: `releaseStep` moves the level towards 0. -/
theorem envNextFallsToZeroInRelease : Obligations.EnvNextFallsToZeroInRelease :=
  fun _ _ _ _ hop hov hstage hr hu hs hsr => exec_envNext_of_clamp hop hov (envNext_of_release _ hstage hr hu hs hsr)

/-- Settles O37: the bit `ENV_ACTIVE` returns is `Env.active`, the stage compared with Off. -/
theorem envActiveReturnsStageNotOff : Obligations.EnvActiveReturnsStageNotOff :=
  fun _ hop hov => exec_of_effect (by rw [hop]; rfl) hov rfl

end Sys2Proof.Machine

/-! Proofs of the statements of spec/42_filter.md: the five operations of SVF as equations, and the refusals of
`SVF_PROC`. -/

namespace Sys2Proof.Machine

/-! ### The setters of the filter (R156 to R162) -/

/-- Settles O40: the effect of the three setters; `SVF.f` is unset exactly while the other of its two registers is. -/
theorem svfSettersRecomputeTheCoefficient : Obligations.SvfSettersRecomputeTheCoefficient := by
  refine ⟨fun s x hop hov => ?_, fun s kind hop hov => exec_of_effect (by rw [hop]; rfl) hov rfl⟩
  have hn : s.command.operands.length = 1 := by rw [hop]; rfl
  rw [← Block.State.operand_zero Config.params hop]
  refine ⟨exec_of_effect hn hov ?_, exec_of_effect hn hov ?_⟩
  · simp only [Block.Effect, svfSetSr, recomputeF]
    cases s.svf.cutoff <;> rfl
  · simp only [Block.Effect, svfSetCutoff, recomputeF]
    cases s.svf.sr <;> rfl

/-- Settles O41: the resonance stored is the operand as `clampRes` clamps it. -/
theorem svfSetResClampsTheResonance : Obligations.SvfSetResClampsTheResonance := by
  intro s x hop hov
  rw [← Block.State.operand_zero Config.params hop]
  exact ⟨clampRes Config.num (s.operand Config.params 0), exec_of_effect (by rw [hop]; rfl) hov rfl, rfl⟩

/-! ### `SVF_PROC` (R163 to R170) -/

/-- Settles O42: the unit completes with the taps of `svfTaps`, of which `selectTap` takes one. -/
theorem svfProcRunsTheRecurrence : Obligations.SvfProcRunsTheRecurrence := by
  intro s ch x f q sr cutoff hch hop hov hf hq hsr hcutoff hsrpos hcutoffpos
  rw [← Block.State.operand_zero Config.params hop]
  have hunit := (svfProc_eq_next Config.num (x := s.operand Config.params 0)).2
    ⟨hch, f, q, sr, cutoff, hf, hq, hsr, hcutoff, hsrpos, hcutoffpos, rfl, rfl⟩
  exact exec_of_effect (by rw [hop]; rfl) hov ⟨_, _, hunit, rfl⟩

section

variable {α : Type} (N : NumFormat α) {nch ch : ℕ} {x f q sr cutoff : α} {v : Svf α nch}

theorem svfProc_of_unset (hch : ch < nch) (h : v.f = .unset ∨ v.q = .unset) : svfProc N ch x v = .refused .unset := by
  simp only [svfProc, hch, dite_true]
  split
  · next hf hq _ _ => simp [hf, hq] at h
  · rfl

theorem svfProc_of_bad_sr (hch : ch < nch) (hf : v.f = .val f) (hq : v.q = .val q) (hs : v.sr = .val sr)
    (hc : v.cutoff = .val cutoff) (hsr : N.gt sr N.zero = false) : svfProc N ch x v = .refused .badSampleRate := by
  simp [svfProc, hch, hf, hq, hs, hc, hsr]

theorem svfProc_of_bad_cutoff (hch : ch < nch) (hf : v.f = .val f) (hq : v.q = .val q) (hs : v.sr = .val sr)
    (hc : v.cutoff = .val cutoff) (hsr : N.gt sr N.zero = true) (hcutoff : N.gt cutoff N.zero = false) :
    svfProc N ch x v = .refused .badCutoff := by
  simp [svfProc, hch, hf, hq, hs, hc, hsr, hcutoff]

end

/-- An `SVF_PROC` that passes the checks before its meaning is refused as the unit refuses it. -/
theorem Block.State.svfProc_refused {α : Type} {nch : ℕ} (P : Params α) {s : Block.State α nch} {ch : Arg} {x : α}
    {r : Refusal} (hop : s.command.operands = [x]) (hov : s.command.overlaps = false)
    (h : Machine.svfProc P.num ch.toNat (s.operand P 0) s.svf = .refused r) : s.svfProc P ch = .refused r := by
  rw [Block.State.svfProc, Block.State.onUnit_pass (by simp [hop]) hov, h, mapNext_refused]

/-- Settles O43: the four refusals of the unit, in its order. -/
theorem svfProcRefusesUnsetAndNotPositive : Obligations.SvfProcRefusesUnsetAndNotPositive := by
  intro s ch x hop hov
  have hrefused {r} := Block.State.svfProc_refused Config.params (ch := ch) (r := r) hop hov
  exact ⟨fun hch => hrefused ((svfProc_eq_reserved _).2 hch),
    fun hch hunset => hrefused (svfProc_of_unset _ hch hunset),
    fun _ _ _ _ hch hf hq hs hc => ⟨fun hsr => hrefused (svfProc_of_bad_sr _ hch hf hq hs hc hsr),
      fun hsr hcutoff => hrefused (svfProc_of_bad_cutoff _ hch hf hq hs hc hsr hcutoff)⟩⟩

end Sys2Proof.Machine

/-! Proofs of the statements of spec/43_scope_buffer.md: a `SCOPE_WRITE` from its first event to its publication, and the
frame of a step of the consumer's. -/

namespace Sys2Proof.Machine

/-! ### `SCOPE_WRITE` (R176, R177, R180) -/

/-- Settles O47: a well-formed `SCOPE_WRITE` of the producer's does what its effect says. -/
theorem scopeWriteBeginsAtTheCursor : Obligations.ScopeWriteBeginsAtTheCursor :=
  fun s count hn ha => (exec_eq_perform _ s).trans
    (Block.perform_of_effect (i := .scopeWrite count) Config.params hn (by simp) ⟨ha, rfl⟩)

/-- Settles O49: the run performs the write's events on SCOPE, whose slots and cursor are those of `writeEvents`. -/
theorem scopeWriteCompletesInItsSteps : Obligations.ScopeWriteCompletesInItsSteps := by
  intro s c rest later hlen hc hh hw hp hcursor hs
  refine ⟨_, (stepN_eq_repeated _ s).trans (Block.repeated_scopeWrite Config.params hlen hc hh hw hp hs),
    fun k hk hlast => ?_, fun a ha => ?_, ?_, rfl, rfl, rfl, rfl, rfl, rfl, rfl, rfl, rfl, rfl, rfl⟩
  · exact read_replay_writeEvents _ hcursor _ hk hlast
  · exact read_replay_writeEvents_other _ hcursor _ ha
  · exact lastCursor_writeEvents hcursor _ _

/-! ### A step of the consumer's (R181, R187) -/

/-- Only the producer's `SCOPE_WRITE` begins a write (R86, R176). -/
theorem Block.Effect.writing_of_consumer {α : Type} {nch : ℕ} [DecidableEq α] {P : Params α} {s t : Block.State α nch}
    {i : Instr} (h : Block.Effect P s t i) (ha : s.command.agent = .consumer) : t.writing = s.writing := by
  obtain ⟨-, -, -, hframe⟩ := h.onlyUnit
  cases i
  case scopeWrite => obtain ⟨hprod, -⟩ := h; simp [ha] at hprod
  case scopeSnap => obtain ⟨-, -, rfl⟩ := h; rfl
  all_goals simp [hframe (by simp)]

/-- Settles O58: of the cases of a completed step those of the consumer's are a read of its snapshot, no change but of the
schedule, and an operation, which performs no memory event of the producer's. -/
theorem onlyTheProducerWritesTheMemory : Obligations.OnlyTheProducerWritesTheMemory := by
  intro s t later hs hstep
  obtain ⟨hs', -⟩ | ⟨a, later', hs', hcase⟩ := step_next hstep
  · simp [hs] at hs'
  obtain ⟨rfl, rfl⟩ : Agent.consumer = a ∧ later = later' := by simpa [hs] using hs'
  obtain ⟨w, ha, -⟩ | ⟨p, -, -, -, rfl⟩ | ⟨-, rfl⟩ | ⟨c, rest, i, -, -, -, -, -, hrun⟩ := hcase
  · simp at ha
  · exact ⟨rfl, rfl, rfl, rfl, rfl⟩
  · exact ⟨rfl, rfl, rfl, rfl, rfl⟩
  · obtain ⟨-, he⟩ := exec_next hrun
    obtain ⟨hmem, hcursor, hrcur⟩ := he.scope_registers
    exact ⟨hmem, hcursor, hrcur, he.writing_of_consumer rfl, he.onlyResultsOf.other .producer (by simp)⟩

end Sys2Proof.Machine

/-! Proof of the statement of spec/60_exceptions.md: what each check before a meaning refuses, and which check an operation
stands under. -/

namespace Sys2Proof.Machine

namespace Block

variable {α : Type} {nch : Nat}

/-! ### What the checks refuse (R199, R226) -/

section

variable {s : State α nch} {n : Nat} {act : Result (State α nch)} (hn : s.command.operands.length = n)
include hn

theorem State.onUnit_overlap (hov : s.command.overlaps = true) : s.onUnit n act = .refused .overlap := by
  simp [State.onUnit, hn, hov]

/-- A hung `OSC_NEXT` and an overlap are refused alike, so that their order does not show (log entry 21). -/
theorem State.onOsc_hanging (hh : s.hanging ≠ none) : s.onOsc n act = .refused .overlap := by
  simp [State.onOsc, State.onUnit, hn, Option.isSome_iff_ne_none.2 hh]

theorem State.onScope_wrongAgent {a : Agent} (ha : s.command.agent ≠ a) :
    s.onScope a n act = .refused .wrongAgent := by
  simp [State.onScope, hn, ha]

end

/-! ### The check of each operation (R86, R88) -/

section

variable [DecidableEq α] (P : Params α) {i : Instr} (s : State α nch)

theorem perform_eq_onOsc (hi : unitOf i = 1) : ∃ act, s.perform P i = s.onOsc i.operandCount act := by
  cases i
  case oscSetSr | oscSetFreq | oscSetWave | oscNext => exact ⟨_, rfl⟩
  all_goals simp at hi

/-- The check of OSC is the check of a unit with a further one inside it, so OSC is no exception here. -/
theorem perform_eq_onUnit (hi : unitOf i ≠ 4) : ∃ act, s.perform P i = s.onUnit i.operandCount act := by
  cases i
  case scopeWrite | scopeSnap => simp at hi
  all_goals exact ⟨_, rfl⟩

end

end Block

/-! ### The order of the refusals (R199) -/

/-- Settles O10: the operation stands under the check of its unit, which refuses before the meaning is looked at. -/
theorem refusalsComeInOrder : Obligations.RefusalsComeInOrder := by
  refine ⟨fun i s hn hi hov => ?_, fun i s hn hi hh => ?_, fun s count hn ha => ?_, fun s count hop ha => ?_⟩
  · obtain ⟨act, hact⟩ := Block.perform_eq_onUnit Config.params s hi
    rw [exec_eq_perform, hact, Block.State.onUnit_overlap hn hov]
  · obtain ⟨act, hact⟩ := Block.perform_eq_onOsc Config.params s hi
    rw [exec_eq_perform, hact, Block.State.onOsc_hanging hn hh]
  · exact Block.State.onScope_wrongAgent hn (by simp [ha])
  · exact Block.State.onScope_wrongAgent (by simp [hop]) (by simp [ha])

end Sys2Proof.Machine

/-! Proofs of the statements of spec/70_reset_and_hazards.md: the state right after reset, and the registers that stay set
under every step. -/

namespace Sys2Proof.Machine

/-! ### The reset state (R215, R216) -/

/-- Settles O12: every register is written out by the reset of its unit, the two integrators as vectors of zeros. -/
theorem resetStateIsTheTable : Obligations.ResetStateIsTheTable := by
  refine ⟨rfl, rfl, fun c hc => ⟨Vector.getElem_replicate hc, Vector.getElem_replicate hc⟩, fun slot => rfl, rfl, rfl, rfl,
    rfl, rfl, rfl, rfl, rfl, rfl, rfl, rfl, rfl, rfl, rfl, rfl, rfl, rfl⟩

section

variable {α : Type} (N : NumFormat α)

/-- No time is set, and Off has its level. -/
theorem EnvInv.reset (eps : α) : EnvInv N eps (Env.reset N.zero) := ⟨fun _ => rfl, nofun, nofun, nofun⟩

/-- Neither coefficient is set, and none of the registers they are derived from. -/
theorem SvfInv.reset (nch : Nat) : SvfInv N (Svf.reset N.zero nch) := ⟨nofun, rfl, fun _ => rfl, nofun⟩

variable [DecidableEq α] (P : Params α)

/-- No event has been performed and no operation is in progress: the memory observed is the empty one. -/
theorem ScopeInv.reset : ScopeInv P (Block.State.reset P) where
  mem_wf := ⟨.nil, nofun⟩
  mem_within := nofun
  base_wf := ⟨.nil, nofun⟩
  base_within := nofun
  cursor_lt := P.scopeCap_pos
  base_cursor_lt := P.scopeCap_pos
  rcur_zero := rfl
  mem_replay := rfl
  cursor_replay := rfl
  events_in_order := trivial
  quiescent_published _ := rfl
  writing_slot := nofun
  snapping_slot := nofun

theorem Inv.reset : Inv P (Block.State.reset P) :=
  ⟨unitsInv_iff.2 ⟨EnvInv.reset P.num P.envEps, SvfInv.reset P.num P.svfNch⟩, ScopeInv.reset P, nofun, nofun⟩

end

/-- Settles O14: each part of the invariant holds at the reset of what it speaks of. -/
theorem invariantHoldsAtReset : Obligations.InvariantHoldsAtReset := Inv.reset Config.params

/-! ### Registers stay set (R21, R218) -/

/-- If a register holds a value in `p`, it holds one in `q`. -/
def Param.StaysSet {α : Type} (p q : Param α) : Prop := p.isSet → q.isSet

@[simp] theorem Param.staysSet_self {α : Type} (p : Param α) : p.StaysSet p := id

@[simp] theorem Param.staysSet_val {α : Type} (p : Param α) (x : α) : p.StaysSet (.val x) := fun _ => rfl

/-- `recompute_f` leaves `SVF.f` set exactly when it finds both of its registers set (R157). -/
theorem isSet_derivedF {α : Type} (N : NumFormat α) (cutoff sr : Param α) :
    (derivedF N cutoff sr).isSet = true ↔ cutoff.isSet = true ∧ sr.isSet = true := by
  cases cutoff <;> cases sr <;> simp [derivedF, Param.isSet]

theorem UnitsInv.isSet_f {α : Type} {nch : Nat} {P : Params α} {s : Block.State α nch} (hs : UnitsInv P s) :
    s.svf.f.isSet = true ↔ s.svf.cutoff.isSet = true ∧ s.svf.sr.isSet = true := by
  rw [hs.f_derived, isSet_derivedF]

namespace Block

variable {α : Type} {nch : Nat}

/-- The registers that may be unset, but for `SVF.f`, whose value is that of two of them (R40). -/
def State.paramRegisters (s : State α nch) : List (Param α) :=
  [s.osc.freq, s.osc.sr, s.env.attack, s.env.decay, s.env.sustain, s.env.release, s.env.sr, s.svf.cutoff, s.svf.res,
    s.svf.sr, s.svf.q]

/-- From `s` to `t` every one of `paramRegisters` stays set. -/
def ParamsStaySet (s t : State α nch) : Prop := List.Forall₂ Param.StaysSet s.paramRegisters t.paramRegisters

theorem ParamsStaySet.of_eq {s t : State α nch} (ho : t.osc = s.osc) (he : t.env = s.env) (hv : t.svf = s.svf) :
    ParamsStaySet s t := by
  simp [ParamsStaySet, State.paramRegisters, ho, he, hv]

variable [DecidableEq α] {P : Params α} {s t : State α nch} {i : Instr}

/-- An operation gives values to the registers of which it is the one writer, and keeps the others. -/
theorem Effect.paramsStaySet (h : Effect P s t i) : ParamsStaySet s t := by
  obtain ⟨-, hfreq, hsr, -⟩ := h.osc_writers
  obtain ⟨-, -, hparams, henvSr⟩ := h.env_writers
  obtain ⟨hcutoff, hres, hsvfSr, -, -, -⟩ := h.svf_writers
  simp only [ParamsStaySet, State.paramRegisters, List.forall₂_cons, List.forall₂_nil_left_iff, and_true]
  cases i
  case oscSetSr | oscSetFreq => obtain ⟨-, rfl⟩ := h; simp
  case envSetSr => obtain rfl := h; simp
  case envSetParams => obtain rfl := h; simp [envSetParams]
  case svfSetSr => obtain rfl := h; simp [svfSetSr, recomputeF]
  case svfSetCutoff => obtain rfl := h; simp [svfSetCutoff, recomputeF]
  case svfSetRes => obtain rfl := h; simp [svfSetRes]
  all_goals simp [hfreq, hsr, hparams, henvSr, hcutoff, hres, hsvfSr]

/-- The steps that are no operation write none of these registers. -/
theorem paramsStaySet_of_stepAt (h : stepAt P s = .next t) : ParamsStaySet s t := by
  obtain ⟨-, rfl⟩ | ⟨a, later, -, hcase⟩ := stepWith_next P h
  · exact .of_eq rfl rfl rfl
  obtain ⟨w, -, -, -, rfl⟩ | ⟨p, -, -, -, rfl⟩ | ⟨-, rfl⟩ | ⟨c, rest, i, -, -, -, -, -, hrun⟩ := hcase
  · exact .of_eq (by simp) (by simp) (by simp)
  · exact .of_eq rfl rfl rfl
  · exact .of_eq rfl rfl rfl
  · obtain ⟨-, he⟩ := perform_next P hrun
    simpa [ParamsStaySet, State.paramRegisters] using he.paramsStaySet

end Block

/-- Settles O13: a register is written with a value only, and `SVF.f` is set as long as cutoff and sample rate are. -/
theorem setRegistersStaySet : Obligations.SetRegistersStaySet := by
  intro s t h
  have hstay := Block.paramsStaySet_of_stepAt (step_eq_stepAt s ▸ h)
  simp only [Block.ParamsStaySet, Block.State.paramRegisters, List.forall₂_cons, List.forall₂_nil_left_iff, and_true]
    at hstay
  obtain ⟨hfreq, hsr, hattack, hdecay, hsustain, hrelease, henvSr, hcutoff, hres, hsvfSr, hq⟩ := hstay
  refine ⟨hfreq, hsr, hattack, hdecay, hsustain, hrelease, henvSr, hcutoff, hres, hsvfSr, hq, fun hs hf => ?_⟩
  have ht := invariantKeptByEveryStep s t hs h
  obtain ⟨hc, hr⟩ := hs.1.isSet_f.1 hf
  exact ht.1.isSet_f.2 ⟨hcutoff hc, hsvfSr hr⟩

end Sys2Proof.Machine
